-- ==== Sys2Proof/Word.lean ====
section
/-! DEFINITION. The word types of the CDP block (00_scope.md R6, R7): what the spec treats as bits. -/

namespace Sys2Proof

/-- A 32-bit word: a register, or the data of one host access (20_memory.md R50, R64). -/
abbrev Word := BitVec 32

/-- One byte of the output buffer `OUT` (10_state.md R34). -/
abbrev Byte := BitVec 8

/-- An index code: the position of a palette entry, 2 bits (30_encoding.md R85). -/
abbrev Code := BitVec 2

/-- The element index of a host access, `A[23:0]` (20_memory.md R51). -/
abbrev Index := BitVec 24

/-- The 28-bit word address of a host access (20_memory.md R51). -/
abbrev BusAddr := BitVec 28

end Sys2Proof
end

