-- ==== Sys2Proof/Config.lean ====
section
/-! DEFINITION. The parameters of the block (00_scope.md R6, R13; 10_state.md R30, R36) and their values for this
hardware. A parameter never changes while the machine runs. Every shared operation takes the configuration as an
argument; the meanings of the commands apply it at `Config.hw`. -/

namespace Sys2Proof

/-- The parameter `NUM`, the number format of the accumulator (R6): `binary64` is this hardware (R9), `exact` is the
companion of R13, which is not this hardware. -/
inductive NumFormat
  | binary64
  | exact
  deriving DecidableEq, Repr

/-- The colour names of the palettes (R30). The hardware never returns one (R36). -/
inductive ColorName
  | black
  | white
  | yellow
  | red
  deriving DecidableEq, Repr

/-- The two recognised format variants, the values 0 and 1 of `CFG.FORMAT` (10_state.md R21). -/
inductive Variant
  | bwry
  | bwr
  deriving DecidableEq, Repr

/-- One palette entry: its name and its RGB triple of integers in `[0, 255]` (R30). Its index code is its position. -/
structure PaletteEntry where
  name : ColorName
  r : Nat
  g : Nat
  b : Nat
  deriving DecidableEq, Repr

/-- A palette in its declared order (R30). It is never empty, so entry 0 stands apart. -/
structure Palette where
  entry0 : PaletteEntry
  others : List PaletteEntry
  deriving DecidableEq, Repr

/-- `PAL[f][0], PAL[f][1], ...` as one list. -/
def Palette.entries (p : Palette) : List PaletteEntry := p.entry0 :: p.others

/-- `NPAL`, the number of entries (00_scope.md R8). -/
def Palette.size (p : Palette) : Nat := p.entries.length

/-- The parameters of the block (R6). -/
structure Config where
  /-- Capacity in pixels of `PIX` and `IDX`; `OUT` holds `maxPix / 4` bytes. -/
  maxPix : Nat
  /-- Reset value of `WIDTH`. -/
  wReset : BitVec 16
  /-- Reset value of `HEIGHT`. -/
  hReset : BitVec 16
  /-- `NUM`. -/
  num : NumFormat
  /-- `PAL[0]`, the 4-colour palette. -/
  bwry : Palette
  /-- `PAL[1]`, the 3-colour palette. -/
  bwr : Palette
  /-- The index code width: bits of an Index Grid element. -/
  codeBits : Nat
  /-- The sample width at the input port: bits of a colour channel of a loaded pixel, unsigned. -/
  sampleBits : Nat
  /-- The dimension register width: bits of `WIDTH` and of `HEIGHT`. -/
  dimBits : Nat
  deriving DecidableEq, Repr

/-- `PAL[f]`. -/
def Config.palette (c : Config) : Variant → Palette
  | .bwry => c.bwry
  | .bwr => c.bwr

/-- The number of bytes of `OUT`, `floor(MAXPIX/4)` (R6). -/
def Config.outSize (c : Config) : Nat := c.maxPix / 4

/-- The parameter values of this hardware (R6, R30; the spec's own defaults, assumption 1). -/
def Config.hw : Config where
  maxPix := 40000
  wReset := 200#16
  hReset := 200#16
  num := .binary64
  bwry :=
    { entry0 := ⟨.black, 0, 0, 0⟩
      others := [⟨.white, 255, 255, 255⟩, ⟨.yellow, 255, 255, 0⟩, ⟨.red, 255, 0, 0⟩] }
  bwr :=
    { entry0 := ⟨.black, 0, 0, 0⟩
      others := [⟨.white, 255, 255, 255⟩, ⟨.red, 255, 0, 0⟩] }
  codeBits := 2
  sampleBits := 8
  dimBits := 16

end Sys2Proof
end

