-- ==== Sys2Proof/Syntax.lean ====
section
/-! DEFINITION. The instructions: the five commands of 30_encoding.md R82, one constructor per row of
spec/opcode_table.json. No command has an operand field (R80): operands are implicit registers and memories. -/

namespace Sys2Proof

/-- The five commands (R82). The micro-operations `DSTEP`, `QSTEP`, `PACKB` have no encoding and are no commands. -/
inductive Instr
  /-- `RESET`, word 1 (60_exceptions.md R195). -/
  | reset
  /-- `CLASSIFY`, word 2 (40_classify.md R104). -/
  | classify
  /-- `QUANT`, word 3 (41_dither.md R121). -/
  | quant
  /-- `PACK`, word 4 (43_pack.md R150). -/
  | pack
  /-- `CONVERT`, word 5 (43_pack.md R154). -/
  | convert
  deriving DecidableEq, Repr

end Sys2Proof
end

