-- ==== Sys2Proof/WellFormed.lean ====
section
/-! DEFINITION. Well-formedness. A command has no operand, so every `Instr` is well formed (30_encoding.md R80); what can
be ill formed is a configuration, whose legal values 00_scope.md R6, 10_state.md R30 and the open-parameter table of
92_eei_decisions.md give. -/

namespace Sys2Proof

/-- Every command is well formed: there is no operand to check (R80). -/
def Instr.wf : Instr → Bool
  | .reset => true
  | .classify => true
  | .quant => true
  | .pack => true
  | .convert => true

/-- An entry's channels are integers in `[0, 255]` (R30). -/
def PaletteEntry.inByteRange (p : PaletteEntry) : Bool := p.r ≤ 255 && p.g ≤ 255 && p.b ≤ 255

/-- Entry 0 is the colour (0, 0, 0) (R30). -/
def Palette.blackFirst (p : Palette) : Bool := p.entry0.r == 0 && p.entry0.g == 0 && p.entry0.b == 0

/-- A palette of `n` entries: black at code 0, every channel a byte, names unique (R30). -/
def Palette.wf (n : Nat) (p : Palette) : Bool :=
  p.size == n && p.blackFirst && p.entries.all PaletteEntry.inByteRange && decide (p.entries.map (·.name)).Nodup

/-- The capacity the address map allows: `1 <= MAXPIX <= 2^24` (R6). -/
def Config.capacityOk (c : Config) : Bool := decide (1 ≤ c.maxPix) && decide (c.maxPix ≤ 2 ^ 24)

/-- The reset dimensions are fixed at 200 and 200 (92_eei_decisions.md, open parameters). -/
def Config.resetDimsOk (c : Config) : Bool := c.wReset == 200#16 && c.hReset == 200#16

/-- The three widths are the source's own numbers, 2, 8 and 16 bits (R6), and none is an open parameter
(92_eei_decisions.md); 2 is the width of `Code`, 16 that of the fields `width` and `height`. -/
def Config.widthsOk (c : Config) : Bool := c.codeBits == 2 && c.sampleBits == 8 && c.dimBits == 16

/-- A legal configuration: 4 entries in "bwry", 3 in "bwr" (R30), a legal capacity, the fixed reset dimensions and the
fixed widths. -/
def Config.wf (c : Config) : Bool := c.capacityOk && c.resetDimsOk && c.widthsOk && c.bwry.wf 4 && c.bwr.wf 3

end Sys2Proof
end

