-- ==== Sys2Proof/Decode.lean ====
section
/-! DEFINITION. Command words (30_encoding.md R80 to R83): format `C`, `OP` in bits [7:0], `MBZ` in bits [31:8]; all
32 bits are decoded. The decoder is total and rejects by name; the encoder is written from the same table. -/

namespace Sys2Proof

/-- Why a word is no command (R83): a non-zero must-be-zero field, or an opcode that no row has. -/
inductive DecodeReject
  | nonZeroMbz (mbz : BitVec 24)
  | unknownOpcode (op : BitVec 8)
  deriving DecidableEq, Repr

/-- Field `OP` [7:0] of a command word (R80). -/
def opField (v : Word) : BitVec 8 := v.extractLsb' 0 8

/-- Field `MBZ` [31:8] of a command word (R80). -/
def mbzField (v : Word) : BitVec 24 := v.extractLsb' 8 24

/-- One row of the command table (R82): a word selects the row when `v & mask = pattern`. -/
structure OpcodeRow where
  mask : Word
  pattern : Word
  instr : Instr
  deriving DecidableEq, Repr

/-- The command table (R82): `mask = 0xFFFFFFFF` in every row. -/
def opcodeTable : List OpcodeRow :=
  [ ⟨0xFFFFFFFF#32, 0x00000001#32, .reset⟩,
    ⟨0xFFFFFFFF#32, 0x00000002#32, .classify⟩,
    ⟨0xFFFFFFFF#32, 0x00000003#32, .quant⟩,
    ⟨0xFFFFFFFF#32, 0x00000004#32, .pack⟩,
    ⟨0xFFFFFFFF#32, 0x00000005#32, .convert⟩ ]

/-- The row test of R82. -/
def OpcodeRow.selects (r : OpcodeRow) (v : Word) : Bool := v &&& r.mask == r.pattern

/-- The decoder (R82, R83): the first row that selects the word, or the reason why the word is illegal. -/
def decode (v : Word) : Except DecodeReject Instr :=
  match opcodeTable.find? (·.selects v) with
  | some r => .ok r.instr
  | none => if mbzField v = 0#24 then .error (.unknownOpcode (opField v)) else .error (.nonZeroMbz (mbzField v))

/-- The opcode of each command, `OP` (R82). -/
def Instr.opcode : Instr → BitVec 8
  | .reset => 0x01#8
  | .classify => 0x02#8
  | .quant => 0x03#8
  | .pack => 0x04#8
  | .convert => 0x05#8

/-- The encoder: format `C` is `MBZ || OP` with `MBZ` zero (R80). -/
def encode (i : Instr) : Word := 0#24 ++ i.opcode

/-- The command the decoder reads from an instruction whose bits are `w`, bit 0 the least significant of the one 32-bit
word; the bits from `nbits` on are 0. A value that does not fit one word is no command (R81). -/
def decodeTableWord (nbits w : Nat) : Option Instr :=
  if w % 2 ^ nbits < 2 ^ 32 then (decode (BitVec.ofNat 32 (w % 2 ^ nbits))).toOption else none

end Sys2Proof
end

