-- ==== Sys2Proof/Machine/State.lean ====
section
/-! DEFINITION. The whole state of the block (10_state.md R20 to R37) as plain data, the host's pending accesses and the
answers it got, the reasons a step can stop, and the state after hardware reset. -/

namespace Sys2Proof.Machine

/-- One element of the Pixel Grid memory `PIX`: three values of the carrier `Q` (R32; 00_scope.md R9). -/
structure Pixel where
  r : Rat
  g : Rat
  b : Rat
  deriving DecidableEq, Repr

/-- A memory of elements, as (index, element) pairs with strictly rising indices. An index that is not listed has never
been written since hardware reset and has no value (R37; assumption 2). `OUT` is a `Memory Byte`, a list of
`Host.Cell`. -/
abbrev Memory (α : Type) := List (Nat × α)

/-- One host access as the port carries it: a read of, or a write to, a 28-bit word address (20_memory.md R51). -/
inductive BusOp
  | read (a : BusAddr)
  | write (a : BusAddr) (v : Word)
  deriving DecidableEq, Repr

/-- The eight host transactions (20_memory.md R52). -/
inductive Txn
  | regRead (n : Index)
  | regWrite (n : Index) (v : Word)
  | pixRead (i : Index)
  | pixWrite (i : Index) (v : Word)
  | idxRead (i : Index)
  | idxWrite (i : Index) (v : Word)
  | outRead (j : Index)
  | outWrite (j : Index) (v : Word)
  deriving DecidableEq, Repr

/-- The state of the machine: the registers of R20 (only their implemented bits: reserved bits read 0 and ignore writes),
the three memories, and the model's own two lists of the host port. `CMD` holds nothing (R24), so it has no field. -/
structure State where
  /-- `CFG.DITHER` [0] (R21). -/
  dither : Bool
  /-- `CFG.FORMAT` [2:1] (R21). -/
  format : BitVec 2
  /-- `WIDTH.W` [15:0] (R22). -/
  width : BitVec 16
  /-- `HEIGHT.H` [15:0] (R23). -/
  height : BitVec 16
  /-- `STATUS.ERR` [2:0], the sticky fault code (R25). -/
  err : BitVec 3
  /-- `ERRINFO.INFO` [31:0] (R26). -/
  errInfo : Word
  /-- `XPOS.X` [15:0] (R28). -/
  xpos : BitVec 16
  /-- `YPOS.Y` [15:0] (R28). -/
  ypos : BitVec 16
  /-- `OPTR.J` [31:0] (R29). -/
  optr : Word
  /-- `CR.V`, two's complement (R27). -/
  cr : Word
  /-- `CG.V`, two's complement (R27). -/
  cg : Word
  /-- `CB.V`, two's complement (R27). -/
  cb : Word
  /-- `RESULT.CODE` [1:0] (R31). -/
  result : Code
  /-- `PIX`, the Pixel Grid memory and error accumulator (R32). -/
  pix : Memory Pixel
  /-- `IDX`, the Index Grid memory (R33). -/
  idx : Memory Code
  /-- `OUT`, the output buffer (R34). -/
  out : Memory Byte
  /-- The host accesses not yet taken, in the order the host issues them (20_memory.md R67; the model's own, assumption 3). -/
  inbox : List BusOp
  /-- The data words the host's reads returned, newest first (the model's own, assumption 3). -/
  replies : List Word
  deriving DecidableEq, Repr

/-- Where a step stops because it would use a memory element that nothing has written since hardware reset (R37;
70_reset_and_hazards.md R222; 93_implementation_defined.md U3). All three are safe: the hardware goes on with an
unspecified value. -/
inductive Fault
  /-- Raised by `DSTEP` and `QSTEP` (so by `QUANT`, `CONVERT`). Safe. -/
  | unwrittenPix (i : Nat)
  /-- Raised by `PACKB` (so by `PACK`, `CONVERT`) and by a host `IdxRead`. Safe. -/
  | unwrittenIdx (i : Nat)
  /-- Raised by a host `OutRead`. Safe. -/
  | unwrittenOut (j : Nat)
  deriving DecidableEq, Repr

/-- Why a step has no meaning. -/
inductive Refusal
  /-- Raised by `exec` for a command whose meaning is not modelled yet (none is). Safe. -/
  | notModelled (mnemonic : String)
  /-- Raised by the arithmetic primitives when a rounded result has magnitude 2^1024 or more and so lies outside `Q`:
  the spec gives no effect and asks for a refusal (00_scope.md R12; 93_implementation_defined.md U9; assumption 4). Safe. -/
  | outsideQ
  deriving DecidableEq, Repr

/-- The two ways a shared operation can stop before it has a result. -/
inductive Stop
  | fault (f : Fault)
  | refuse (r : Refusal)
  deriving DecidableEq, Repr

/-- The machine right after hardware reset (R37; 70_reset_and_hazards.md R220): registers at their reset values, no
memory element written, and no host access pending. -/
def State.reset : State where
  dither := true
  format := 0#2
  width := Config.hw.wReset
  height := Config.hw.hReset
  err := 0#3
  errInfo := 0#32
  xpos := 0#16
  ypos := 0#16
  optr := 0#32
  cr := 0#32
  cg := 0#32
  cb := 0#32
  result := 0#2
  pix := []
  idx := []
  out := []
  inbox := []
  replies := []

end Sys2Proof.Machine
end

