-- ==== Sys2Proof/Machine/Bus.lean ====
section
/-! DEFINITION. The word address map of the host port (20_memory.md R51, R65): `A[27:24]` is the port, `A[23:0]` the
element index. -/

namespace Sys2Proof.Machine

/-- The port number `A[27:24]`. -/
def portOf (a : BusAddr) : BitVec 4 := a.extractLsb' 24 4

/-- The element index `A[23:0]`. -/
def indexOf (a : BusAddr) : Index := a.extractLsb' 0 24

/-- The word address of element `i` of port `p`. -/
def busAddr (p : BitVec 4) (i : Index) : BusAddr := p ++ i

/-- The word address of `CMD`, register 3 (R51; 10_state.md R24). -/
def cmdAddr : BusAddr := busAddr 0#4 3#24

/-- The transaction an access stands for (R52); none where the port does not exist (ports 4 to 15, R51). -/
def busDecode : BusOp → Option Txn
  | .read a =>
    match (portOf a).toNat with
    | 0 => some (.regRead (indexOf a))
    | 1 => some (.pixRead (indexOf a))
    | 2 => some (.idxRead (indexOf a))
    | 3 => some (.outRead (indexOf a))
    | _ => none
  | .write a v =>
    match (portOf a).toNat with
    | 0 => some (.regWrite (indexOf a) v)
    | 1 => some (.pixWrite (indexOf a) v)
    | 2 => some (.idxWrite (indexOf a) v)
    | 3 => some (.outWrite (indexOf a) v)
    | _ => none

/-- The access that carries a transaction (R51, R52). -/
def busEncode : Txn → BusOp
  | .regRead n => .read (busAddr 0#4 n)
  | .regWrite n v => .write (busAddr 0#4 n) v
  | .pixRead i => .read (busAddr 1#4 i)
  | .pixWrite i v => .write (busAddr 1#4 i) v
  | .idxRead i => .read (busAddr 2#4 i)
  | .idxWrite i v => .write (busAddr 2#4 i) v
  | .outRead j => .read (busAddr 3#4 j)
  | .outWrite j v => .write (busAddr 3#4 j) v

end Sys2Proof.Machine
end

