-- ==== Sys2Proof/Machine/Arith.lean ====
section
/-! DEFINITION. The number format of the accumulator (00_scope.md R9 to R13): the carrier `Q`, the rounding function
`rnd`, the arithmetic primitives, and the diffusion coefficients, all over rationals as the spec states them. -/

namespace Sys2Proof.Machine

/-- `2^k` for an integer `k`, as a rational. -/
def pow2 : Int → Rat
  | .ofNat n => mkRat (2 ^ n : Nat) 1
  | .negSucc n => mkRat 1 (2 ^ (n + 1))

/-- The magnitude of a rational. -/
def absQ (q : Rat) : Rat := if q < 0 then -q else q

/-- `floor(log2(|q|))` for `q ≠ 0`: the difference of the bit lengths of numerator and denominator, or one less. -/
def floorLog2 (q : Rat) : Int :=
  let l : Int := (Nat.log2 q.num.natAbs : Int) - (Nat.log2 q.den : Int)
  if pow2 l ≤ absQ q then l else l - 1

/-- The integer nearest to `t`; when `t` is exactly halfway between two integers, the even one (R9). -/
def rne (t : Rat) : Int :=
  let f := t.floor
  let rest := t - (f : Rat)
  if rest < mkRat 1 2 then f
  else if mkRat 1 2 < rest then f + 1
  else if f % 2 = 0 then f else f + 1

/-- The spacing `u = 2^(E - 52)` of the values of `Q` around `q`, with `E = max(floor(log2 |q|), -1022)` (R9). -/
def unitOf (q : Rat) : Rat := pow2 (max (floorLog2 q) (-1022) - 52)

/-- The rounding function `rnd` of binary64, ties to even, gradual underflow (R9). -/
def rnd (q : Rat) : Rat := if q = 0 then 0 else unitOf q * (rne (q / unitOf q) : Rat)

/-- The rounding function of the format: R9 for binary64, the identity for the exact companion (R13). -/
def roundIn : NumFormat → Rat → Rat
  | .binary64, q => rnd q
  | .exact, q => q

/-- The carrier `Q` of binary64: zero, and every `s * m * 2^e` with `1 <= m < 2^53` and `-1074 <= e <= 971` (R9). -/
def InBinary64 (q : Rat) : Prop :=
  q = 0 ∨ ∃ (m : Nat) (e : Int),
    1 ≤ m ∧ m < 2 ^ 53 ∧ -1074 ≤ e ∧ e ≤ 971 ∧ (q = (m : Rat) * pow2 e ∨ q = -((m : Rat) * pow2 e))

/-- The carrier of the format (R9, R13). -/
def InCarrier : NumFormat → Rat → Prop
  | .binary64, q => InBinary64 q
  | .exact, _ => True

/-- A rounded result is outside `Q` when its magnitude is `2^1024` or more (R9). The exact companion has no bound. -/
def overflowsIn : NumFormat → Rat → Bool
  | .binary64, q => decide (pow2 1024 ≤ absQ q)
  | .exact, _ => false

/-- One rounding of an exact result; a result outside `Q` is a refusal (R9, R12; assumption 4). -/
def roundTo (num : NumFormat) (q : Rat) : Except Stop Rat :=
  if overflowsIn num (roundIn num q) then .error (.refuse .outsideQ) else .ok (roundIn num q)

/-- `fromInt(n)`, exact (R10). -/
def fromInt (n : Int) : Rat := (n : Rat)

/-- `fadd(a, b) = rnd(a + b)` (R10). -/
def fadd (num : NumFormat) (a b : Rat) : Except Stop Rat := roundTo num (a + b)

/-- `fsub(a, b) = rnd(a - b)` (R10). -/
def fsub (num : NumFormat) (a b : Rat) : Except Stop Rat := roundTo num (a - b)

/-- `fmul(a, b) = rnd(a * b)` (R10). -/
def fmul (num : NumFormat) (a b : Rat) : Except Stop Rat := roundTo num (a * b)

/-- `flt(a, b)`, the exact comparison of rationals (R10). -/
def flt (a b : Rat) : Bool := decide (a < b)

/-- `K7 = 7/16` (R11). -/
def K7 : Rat := mkRat 7 16
/-- `K3 = 3/16` (R11). -/
def K3 : Rat := mkRat 3 16
/-- `K5 = 5/16` (R11). -/
def K5 : Rat := mkRat 5 16
/-- `K1 = 1/16` (R11). -/
def K1 : Rat := mkRat 1 16

end Sys2Proof.Machine
end

