-- ==== Sys2Proof/Machine/Operands.lean ====
section
/-! DEFINITION. The implicit operands of the commands (30_encoding.md R80): the format variant, the grid dimensions, the
classifier's operand triple; and the fields of the data words the ports take (30_encoding.md R85, R88). No command names a
register, an immediate or an address, so there is no other operand form. -/

namespace Sys2Proof.Machine

/-- The variant a value of `CFG.FORMAT` selects; 2 and 3 are unrecognised (10_state.md R21). -/
def variantOf (f : BitVec 2) : Option Variant :=
  if f = 0#2 then some .bwry else if f = 1#2 then some .bwr else none

/-- `W`, the value of `WIDTH.W` (00_scope.md R8). -/
def State.W (s : State) : Nat := s.width.toNat

/-- `H`, the value of `HEIGHT.H` (00_scope.md R8). -/
def State.H (s : State) : Nat := s.height.toNat

/-- The element index of pixel `(x, y)` in a grid of width `w` (20_memory.md R61). -/
def pixelIndex (w x y : Nat) : Nat := y * w + x

/-- The element index of the pixel at the scan position (41_dither.md R122). -/
def State.scanIndex (s : State) : Nat := pixelIndex s.W s.xpos.toNat s.ypos.toNat

/-- The triple `CLASSIFY` classifies: `fromInt(sint32(...))` of `CR`, `CG`, `CB` (40_classify.md R104). -/
def State.operandTriple (s : State) : Pixel := ⟨fromInt s.cr.toInt, fromInt s.cg.toInt, fromInt s.cb.toInt⟩

/-- Field `n` of a word cut into unsigned fields of `width` bits, field 0 the lowest. -/
def fieldOfWord (width n : Nat) (v : Word) : Nat := v.toNat / 2 ^ (n * width) % 2 ^ width

/-- The pixel a pixel word loads: samples of the input port's width, red above green above blue ([23:16], [15:8], [7:0] at 8
bits), each exact (20_memory.md R56; 00_scope.md R6). -/
def pixelOfWord (c : Config) (v : Word) : Pixel :=
  ⟨fromInt (fieldOfWord c.sampleBits 2 v), fromInt (fieldOfWord c.sampleBits 1 v), fromInt (fieldOfWord c.sampleBits 0 v)⟩

/-- The index code an index word carries: its lowest bits, of the index code width ([1:0] at 2 bits) (20_memory.md R57). -/
def codeOfWord (c : Config) (v : Word) : Code := BitVec.ofNat 2 (fieldOfWord c.codeBits 0 v)

/-- The dimension a word carries: its lowest bits, of the dimension register width ([15:0] at 16 bits) (10_state.md R22,
R23). -/
def dimOfWord (c : Config) (v : Word) : BitVec 16 := BitVec.ofNat 16 (fieldOfWord c.dimBits 0 v)

/-- `CFG` as read: `DITHER` [0], `FORMAT` [2:1], reserved bits zero (10_state.md R21). -/
def State.cfgWord (s : State) : Word := (s.format ++ BitVec.ofBool s.dither).setWidth 32

end Sys2Proof.Machine
end

