-- ==== Sys2Proof/Machine/Flags.lean ====
section
/-! DEFINITION. The block has no condition codes and no arithmetic flags (10_state.md R25). Its only status is the sticky
fault code `STATUS.ERR` and its `ERRINFO`: the three faults, their codes, the conditions that raise them and the value
each records (60_exceptions.md R190 to R192). -/

namespace Sys2Proof.Machine

/-- The three faults of the block (R190). -/
inductive ErrKind
  | invalidPaletteFormat
  | unsupportedGridDimensions
  | illegalCommand
  deriving DecidableEq, Repr

/-- The value of `STATUS.ERR` for each fault (R190). -/
def ErrKind.code : ErrKind → BitVec 3
  | .invalidPaletteFormat => 1#3
  | .unsupportedGridDimensions => 2#3
  | .illegalCommand => 3#3

/-- `STATUS.ERR != 0`: every command but `RESET` is refused (R194). -/
def State.faulted (s : State) : Bool := s.err != 0#3

/-- What `InvalidPaletteFormat` records: the selector, zero-extended (R191). -/
def State.formatInfo (s : State) : Word := s.format.setWidth 32

/-- What `UnsupportedGridDimensions` records: `(H << 16) | W` (R191). -/
def State.dimsInfo (s : State) : Word := s.height ++ s.width

/-- The condition of `CHECK_DIMS(need_mult4)`; the product is a mathematical integer (R192). -/
def State.badDims (c : Config) (needMult4 : Bool) (s : State) : Bool :=
  s.W == 0 || s.H == 0 || decide (c.maxPix < s.W * s.H) || (needMult4 && s.W % 4 != 0)

end Sys2Proof.Machine
end

