-- ==== Sys2Proof/Machine/Memory.lean ====
section
/-! DEFINITION. The one read and the one write of a memory of elements, and the canonical form they keep
(10_state.md R32 to R34; 20_memory.md R67). -/

namespace Sys2Proof.Machine

/-- The element at index `i`, or none where nothing has been written since hardware reset (R37). -/
def Memory.read {α : Type} : Memory α → Nat → Option α
  | [], _ => none
  | (k, v) :: m, i => if i = k then some v else Memory.read m i

/-- Write one element, keeping the indices strictly rising. -/
def Memory.write {α : Type} : Memory α → Nat → α → Memory α
  | [], i, v => [(i, v)]
  | (k, u) :: m, i, v =>
    if i < k then (i, v) :: (k, u) :: m
    else if i = k then (i, v) :: m
    else (k, u) :: Memory.write m i v

/-- The canonical form: strictly rising indices, every one below the capacity. Nothing is listed that was never written. -/
abbrev Memory.wf {α : Type} (cap : Nat) (m : Memory α) : Prop :=
  (m.map Prod.fst).Pairwise (· < ·) ∧ ∀ k ∈ m.map Prod.fst, k < cap

end Sys2Proof.Machine
end

