-- ==== Sys2Proof/Machine/Ops.lean ====
section
/-! DEFINITION. The shared operations: taking a fault and returning from one, the two checks, element access to the three
memories, the scan, and the end of a command. -/

namespace Sys2Proof.Machine

/-- `raise E(info)`, the fault entry: `STATUS.ERR` and `ERRINFO` are written and nothing else changes; the command ends
(60_exceptions.md R193). -/
def raise (k : ErrKind) (info : Word) (s : State) : State := { s with err := k.code, errInfo := info }

/-- The return from a fault, the body of `RESET`: every register to its reset value, the memories unchanged
(60_exceptions.md R195). -/
def resetRegisters (c : Config) (s : State) : State :=
  { s with
    dither := true, format := 0#2, width := c.wReset, height := c.hReset
    err := 0#3, errInfo := 0#32
    xpos := 0#16, ypos := 0#16, optr := 0#32
    cr := 0#32, cg := 0#32, cb := 0#32, result := 0#2 }

/-- `CHECK_FORMAT`, then the rest of the command with the variant it found; an unrecognised selector raises
`InvalidPaletteFormat` and ends the command (60_exceptions.md R192). -/
def withFormat (s : State) (body : Variant → Except Stop State) : Except Stop State :=
  match variantOf s.format with
  | some f => body f
  | none => .ok (raise .invalidPaletteFormat s.formatInfo s)

/-- `CHECK_DIMS(need_mult4)`, then the rest of the command; bad dimensions raise `UnsupportedGridDimensions` and end the
command (60_exceptions.md R192). -/
def withDims (c : Config) (needMult4 : Bool) (s : State) (body : Except Stop State) : Except Stop State :=
  if s.badDims c needMult4 then .ok (raise .unsupportedGridDimensions s.dimsInfo s) else body

/-- `PIX[i]`; an element never written stops (R37, U3). -/
def State.readPix (s : State) (i : Nat) : Except Stop Pixel :=
  match s.pix.read i with
  | some v => .ok v
  | none => .error (.fault (.unwrittenPix i))

/-- `PIX[i] <- v`. -/
def State.writePix (s : State) (i : Nat) (v : Pixel) : State := { s with pix := s.pix.write i v }

/-- `IDX[i]`; an element never written stops (R37, U3). -/
def State.readIdx (s : State) (i : Nat) : Except Stop Code :=
  match s.idx.read i with
  | some k => .ok k
  | none => .error (.fault (.unwrittenIdx i))

/-- `IDX[i] <- k`. -/
def State.writeIdx (s : State) (i : Nat) (k : Code) : State := { s with idx := s.idx.write i k }

/-- `OUT[j]`; an element never written stops (R37, U3). -/
def State.readOut (s : State) (j : Nat) : Except Stop Byte :=
  match s.out.read j with
  | some b => .ok b
  | none => .error (.fault (.unwrittenOut j))

/-- `OUT[j] <- b`. -/
def State.writeOut (s : State) (j : Nat) (b : Byte) : State := { s with out := s.out.write j b }

/-- `ADVANCE`: the scan position one pixel on, row-major (41_dither.md R120). -/
def State.advance (s : State) : State :=
  if s.xpos.toNat + 1 = s.W then { s with xpos := 0#16, ypos := s.ypos + 1#16 } else { s with xpos := s.xpos + 1#16 }

/-- The quantising loop `while YPOS.Y < H` over one micro-operation, with at most `n` turns (41_dither.md R121). -/
def scan (micro : State → Except Stop State) : Nat → State → Except Stop State
  | 0, s => .ok s
  | n + 1, s => if s.ypos.toNat < s.H then micro s >>= scan micro n else .ok s

/-- How a command ends: the next state, a fault of the model, or a refusal. -/
def finish : Except Stop State → Host.Outcome State Fault Refusal
  | .ok s => .next s
  | .error (.fault f) => .fault f
  | .error (.refuse r) => .refused r

end Sys2Proof.Machine
end

