-- ==== Sys2Proof/Machine/Classify.lean ====
section
/-! DEFINITION. The Color Classifier: `dist`, `nearest` (40_classify.md R100 to R102) and the command `CLASSIFY` (R104). -/

namespace Sys2Proof.Machine

/-- The RGB triple of a palette entry as values of `Q`. -/
def entryPixel (p : PaletteEntry) : Pixel := ⟨fromInt p.r, fromInt p.g, fromInt p.b⟩

/-- The per-channel difference `v - w`, each channel rounded once. -/
def subPixel (num : NumFormat) (v w : Pixel) : Except Stop Pixel := do
  let r ← fsub num v.r w.r
  let g ← fsub num v.g w.g
  let b ← fsub num v.b w.b
  return ⟨r, g, b⟩

/-- The squared distance `dist(v, p)`: `fadd(fadd(dR², dG²), dB²)`, eight operations, each rounding once; `v` is not
clamped (R100, R102). -/
def dist (num : NumFormat) (v : Pixel) (p : PaletteEntry) : Except Stop Rat := do
  let d ← subPixel num v (entryPixel p)
  let rr ← fmul num d.r d.r
  let gg ← fmul num d.g d.g
  let bb ← fmul num d.b d.b
  let rg ← fadd num rr gg
  fadd num rg bb

/-- The loop of `nearest` over the entries from code `k` on: a later entry wins only if strictly nearer (R101). -/
def nearestFrom (num : NumFormat) (v : Pixel) : List PaletteEntry → Nat → Nat → Rat → Except Stop Nat
  | [], _, best, _ => .ok best
  | p :: ps, k, best, bestd => do
    let d ← dist num v p
    if flt d bestd then nearestFrom num v ps (k + 1) k d else nearestFrom num v ps (k + 1) best bestd

/-- `nearest(v, f)` as a position in the palette (R101). -/
def nearestPos (c : Config) (v : Pixel) (f : Variant) : Except Stop Nat := do
  let d0 ← dist c.num v (c.palette f).entry0
  nearestFrom c.num v (c.palette f).others 1 0 d0

/-- `nearest(v, f)`, the index code of the nearest entry (R101; 30_encoding.md R85). -/
def nearest (c : Config) (v : Pixel) (f : Variant) : Except Stop Code := do
  let k ← nearestPos c v f
  return BitVec.ofNat 2 k

/-- `PAL[f][k]` for a code; a code that is no entry of the palette (none that `nearest` returns) gives entry 0. -/
def paletteAt (p : Palette) (k : Code) : PaletteEntry := (p.entries[k.toNat]?).getD p.entry0

/-- `CLASSIFY` over a configuration (R104). -/
def classify (c : Config) (s : State) : Except Stop State :=
  withFormat s fun f => do
    let k ← nearest c s.operandTriple f
    return { s with result := k }

/-- `CLASSIFY` (R104). -/
def execClassify (s : State) : Host.Outcome State Fault Refusal := finish (classify Config.hw s)

end Sys2Proof.Machine
end

