-- ==== Sys2Proof/Machine/Quant.lean ====
section
/-! DEFINITION. The Dither Engine (41_dither.md R120 to R128), the Simple Quantizer (42_quantize.md R140) and the command
`QUANT` (41_dither.md R121). -/

namespace Sys2Proof.Machine

/-- A neighbour's value with its share of the error added in place: `fadd(p, fmul(e, K))` per channel, two roundings
(R122, R124; 00_scope.md R10). -/
def addShare (num : NumFormat) (p e : Pixel) (k : Rat) : Except Stop Pixel := do
  let r ← fmul num e.r k >>= fadd num p.r
  let g ← fmul num e.g k >>= fadd num p.g
  let b ← fmul num e.b k >>= fadd num p.b
  return ⟨r, g, b⟩

/-- `PIX[t][c] <- fadd(PIX[t][c], fmul(e[c], K))` for the three channels (R122). -/
def diffuse (num : NumFormat) (t : Nat) (e : Pixel) (k : Rat) (s : State) : Except Stop State := do
  let p ← s.readPix t
  let p' ← addShare num p e k
  return s.writePix t p'

/-- A neighbour outside the grid is skipped (R123). -/
def diffuseIf (inside : Prop) [Decidable inside] (num : NumFormat) (t : Nat) (e : Pixel) (k : Rat) (s : State) :
    Except Stop State :=
  if inside then diffuse num t e k s else .ok s

/-- Step 4 of `DSTEP`: add the error of pixel `(x, y)`, element `i`, into the neighbours not yet visited (R122). -/
def propagate (num : NumFormat) (x y i : Nat) (e : Pixel) (s : State) : Except Stop State := do
  let s ← diffuseIf (x + 1 < s.W) num (i + 1) e K7 s
  let s ← diffuseIf (y + 1 < s.H ∧ 1 ≤ x) num (i + s.W - 1) e K3 s
  let s ← diffuseIf (y + 1 < s.H) num (i + s.W) e K5 s
  diffuseIf (y + 1 < s.H ∧ x + 1 < s.W) num (i + s.W + 1) e K1 s

/-- `DSTEP`: classify the pixel at the scan position, record its code, diffuse its error, advance (R122). `PIX[i]` itself
is not written (R125). -/
def dstep (c : Config) (f : Variant) (s : State) : Except Stop State := do
  let i := s.scanIndex
  let v ← s.readPix i
  let k ← nearest c v f
  let e ← subPixel c.num v (entryPixel (paletteAt (c.palette f) k))
  let s' ← propagate c.num s.xpos.toNat s.ypos.toNat i e (s.writeIdx i k)
  return s'.advance

/-- `QSTEP`: classify the pixel at the scan position with no diffusion, advance (42_quantize.md R140). -/
def qstep (c : Config) (f : Variant) (s : State) : Except Stop State := do
  let v ← s.readPix s.scanIndex
  let k ← nearest c v f
  return (s.writeIdx s.scanIndex k).advance

/-- The micro-operation `CFG.DITHER` selects (R121). -/
def quantStep (c : Config) (f : Variant) (dither : Bool) : State → Except Stop State :=
  if dither then dstep c f else qstep c f

/-- `QUANT_BODY`: the scan over the whole grid from (0, 0); it takes exactly `W * H` turns (R121). -/
def quantBody (c : Config) (f : Variant) (s : State) : Except Stop State :=
  scan (quantStep c f s.dither) (s.W * s.H) { s with xpos := 0#16, ypos := 0#16 }

/-- `QUANT` over a configuration (R121). -/
def quant (c : Config) (s : State) : Except Stop State :=
  withFormat s fun f => withDims c false s (quantBody c f s)

/-- `QUANT` (R121). -/
def execQuant (s : State) : Host.Outcome State Fault Refusal := finish (quant Config.hw s)

end Sys2Proof.Machine
end

