-- ==== Sys2Proof/Machine/Pack.lean ====
section
/-! DEFINITION. The Bit Packer (43_pack.md R150 to R153) and the commands `PACK` (R150) and `CONVERT` (R154). -/

namespace Sys2Proof.Machine

/-- A packed byte: the first of four codes in the top two bits (R151; 30_encoding.md R86). -/
def packByte (k0 k1 k2 k3 : Code) : Byte := k0 ++ k1 ++ k2 ++ k3

/-- `unpack(b, n) = b[7 - 2n : 6 - 2n]`, for the host and for proofs; the block has no such command (R153). -/
def unpack (b : Byte) (n : Nat) : Code := b.extractLsb' (6 - 2 * n) 2

/-- `PACKB`: pack four index codes into `OUT[j]`, `j = OPTR.J`, and step `OPTR` (R151). -/
def packb (s : State) : Except Stop State := do
  let j := s.optr.toNat
  let k0 ← s.readIdx (4 * j)
  let k1 ← s.readIdx (4 * j + 1)
  let k2 ← s.readIdx (4 * j + 2)
  let k3 ← s.readIdx (4 * j + 3)
  return { s.writeOut j (packByte k0 k1 k2 k3) with optr := s.optr + 1#32 }

/-- The packing loop `while OPTR.J < (W * H) div 4`, with at most `n` turns (R150). -/
def packLoop : Nat → State → Except Stop State
  | 0, s => .ok s
  | n + 1, s => if s.optr.toNat < s.W * s.H / 4 then packb s >>= packLoop n else .ok s

/-- `PACK_BODY`: exactly `W * H / 4` turns from `OPTR.J = 0` (R150). -/
def packBody (s : State) : Except Stop State := packLoop (s.W * s.H / 4) { s with optr := 0#32 }

/-- `PACK` over a configuration; it reads neither `CFG` nor the palette (R150). -/
def pack (c : Config) (s : State) : Except Stop State := withDims c true s (packBody s)

/-- `CONVERT` over a configuration: every check first, then both bodies (R154). -/
def convert (c : Config) (s : State) : Except Stop State :=
  withFormat s fun f => withDims c true s (quantBody c f s >>= packBody)

/-- `PACK` (R150). -/
def execPack (s : State) : Host.Outcome State Fault Refusal := finish (pack Config.hw s)

/-- `CONVERT` (R154). -/
def execConvert (s : State) : Host.Outcome State Fault Refusal := finish (convert Config.hw s)

end Sys2Proof.Machine
end

