-- ==== Sys2Proof/Machine/Reset.lean ====
section
/-! DEFINITION. The command `RESET` (60_exceptions.md R195). -/

namespace Sys2Proof.Machine

/-- `RESET`: every register to its reset value, the fault cleared, the memories kept (R195). It cannot fault. -/
def execReset (s : State) : Host.Outcome State Fault Refusal := .next (resetRegisters Config.hw s)

end Sys2Proof.Machine
end

