-- ==== Sys2Proof/Machine/Dispatch.lean ====
section
/-! DEFINITION. The dispatch: one arm per command of 30_encoding.md R82. -/

namespace Sys2Proof.Machine

/-- What a command does once it is executed (30_encoding.md R84 says when it is: see `runCommand`). -/
def exec (i : Instr) (s : State) : Host.Outcome State Fault Refusal :=
  match i with
  | .reset => Sys2Proof.Machine.execReset s
  | .classify => Sys2Proof.Machine.execClassify s
  | .quant => Sys2Proof.Machine.execQuant s
  | .pack => Sys2Proof.Machine.execPack s
  | .convert => Sys2Proof.Machine.execConvert s

end Sys2Proof.Machine
end

