-- ==== Sys2Proof/Machine/HostPort.lean ====
section
/-! DEFINITION. The host port: the write to `CMD` with its decoding order (30_encoding.md R84) and the eight transactions
(20_memory.md R52 to R59). Each is one atomic step (R60, R64). -/

namespace Sys2Proof.Machine

/-- The write of `v` to `CMD` (R84): `RESET` always executes; while `STATUS.ERR != 0` everything else is refused without
effect; an illegal word raises `IllegalCommand` with the word. -/
def runCommand (v : Word) (s : State) : Host.Outcome State Fault Refusal :=
  match decode v with
  | .ok i => if i = .reset ∨ s.faulted = false then exec i s else .next s
  | .error _ => if s.faulted then .next s else .next (raise .illegalCommand v s)

/-- The value a register read returns: reserved bits zero, `CMD` and the numbers from 13 on read 0 (R53). -/
def readReg (n : Index) (s : State) : Word :=
  match n.toNat with
  | 0 => s.cfgWord
  | 1 => s.width.setWidth 32
  | 2 => s.height.setWidth 32
  | 3 => 0#32
  | 4 => s.err.setWidth 32
  | 5 => s.errInfo
  | 6 => s.xpos.setWidth 32
  | 7 => s.ypos.setWidth 32
  | 8 => s.optr
  | 9 => s.cr
  | 10 => s.cg
  | 11 => s.cb
  | 12 => s.result.setWidth 32
  | _ => 0#32

/-- `RegWrite(n, v)`: read-only registers and the numbers from 13 on ignore it (R54). -/
def writeReg (c : Config) (n : Index) (v : Word) (s : State) : Host.Outcome State Fault Refusal :=
  match n.toNat with
  | 0 => .next { s with dither := v.getLsbD 0, format := v.extractLsb' 1 2 }
  | 1 => .next { s with width := dimOfWord c v }
  | 2 => .next { s with height := dimOfWord c v }
  | 3 => runCommand v s
  | 9 => .next { s with cr := v }
  | 10 => .next { s with cg := v }
  | 11 => .next { s with cb := v }
  | _ => .next s

/-- A read answers the host with one data word; nothing else changes (R64). -/
def reply (v : Word) (s : State) : State := { s with replies := v :: s.replies }

/-- One host transaction (R53 to R58). An index beyond a port's size reads 0 and ignores writes. -/
def transact (c : Config) (t : Txn) (s : State) : Host.Outcome State Fault Refusal :=
  match t with
  | .regRead n => .next (reply (readReg n s) s)
  | .regWrite n v => writeReg c n v s
  | .pixRead _ => .next (reply 0#32 s)
  | .pixWrite i v => .next (if i.toNat < c.maxPix then s.writePix i.toNat (pixelOfWord c v) else s)
  | .idxRead i =>
    if i.toNat < c.maxPix then finish (s.readIdx i.toNat >>= fun k => .ok (reply (k.setWidth 32) s))
    else .next (reply 0#32 s)
  | .idxWrite i v => .next (if i.toNat < c.maxPix then s.writeIdx i.toNat (codeOfWord c v) else s)
  | .outRead j =>
    if j.toNat < c.outSize then finish (s.readOut j.toNat >>= fun b => .ok (reply (b.setWidth 32) s))
    else .next (reply 0#32 s)
  | .outWrite _ _ => .next s

/-- One host access: a port that does not exist reads 0 and ignores writes (R59). -/
def busAccess (c : Config) (op : BusOp) (s : State) : Host.Outcome State Fault Refusal :=
  match busDecode op with
  | some t => transact c t s
  | none =>
    match op with
    | .read _ => .next (reply 0#32 s)
    | .write _ _ => .next s

/-- Take the host's oldest pending access; with none pending the block does nothing (20_memory.md R67;
70_reset_and_hazards.md R220). -/
def takeAccess (c : Config) (s : State) : Host.Outcome State Fault Refusal :=
  match s.inbox with
  | [] => .next s
  | op :: rest => busAccess c op { s with inbox := rest }

end Sys2Proof.Machine
end

