-- ==== Sys2Proof/Machine/Step.lean ====
section
/-! DEFINITION. One step of the host-visible machine: one host access, a command run to its end included
(20_memory.md R60, R67). -/

namespace Sys2Proof.Machine

/-- One step takes the host's oldest pending access. -/
def step (s : State) : Host.Outcome State Fault Refusal := takeAccess Config.hw s

/-- The state in which the next access is the write of the word `w` (its low `nbits` bits) to `CMD`: the block fetches no
instruction (20_memory.md R70), so a command comes from the host's next access (assumption 3). -/
def State.withFetchWord (s : State) (nbits w : Nat) : State :=
  { s with inbox := .write cmdAddr (BitVec.ofNat 32 (w % 2 ^ nbits)) :: s.inbox }

end Sys2Proof.Machine
end

