-- ==== Sys2Proof/Machine/HostFormats.lean ====
section
/-! DEFINITION. What the host does around the block (44_host_formats.md R170 to R175; 30_encoding.md R87 to R90): its script
lines as accesses, its configuration, the scripts that produce a "4EI1" file or an indexed image from a grid, and the stripe
pattern. Nothing here is state or behaviour of the block, and the step uses none of it. -/

namespace Sys2Proof.Machine

/-- Why the host has no accesses to make (assumption 9). -/
inductive HostStop
  /-- The host itself reports the fault, before any processing begins (R174). -/
  | reported (k : ErrKind)
  /-- The loader's grid does not have exactly `W * H` pixels (R171, R173). -/
  | wrongPixelCount
  /-- There are more elements than a 24-bit element index names (20_memory.md R51). -/
  | beyondThePort
  /-- There is no stripe pattern (93_implementation_defined.md U8). -/
  | noPattern
  /-- `STATUS.ERR != 0`: nothing is fetched and no file is written (R171). -/
  | conversionFaulted
  deriving DecidableEq, Repr

/-- One access per element of a list, at the element's position. -/
def perElement {α : Type} (access : Index → α → BusOp) (l : List α) : Except HostStop (List BusOp) :=
  if l.length ≤ 2 ^ 24 then .ok (l.zipIdx.map fun p => access (BitVec.ofNat 24 p.2) p.1) else .error .beyondThePort

/-- One access per index below `n`. -/
def perIndex (access : Index → BusOp) (n : Nat) : Except HostStop (List BusOp) :=
  perElement (fun i _ => access i) (List.replicate n ())

/-! ### The script lines -/

/-- `wr NAME, v`, the register by its number (R89). -/
def hostWr (n : Index) (v : Word) : BusOp := busEncode (.regWrite n v)

/-- `rd NAME` (R89). -/
def hostRd (n : Index) : BusOp := busEncode (.regRead n)

/-- The pixel word `0x00RRGGBB` (R88). -/
def pixelWord (r g b : Byte) : Word := 0#8 ++ r ++ g ++ b

/-- `pix i, r, g, b` (R89). -/
def hostPix (i : Index) (r g b : Byte) : BusOp := busEncode (.pixWrite i (pixelWord r g b))

/-- `idxw i, c` (R89). -/
def hostIdxw (i : Index) (c : Code) : BusOp := busEncode (.idxWrite i (c.setWidth 32))

/-- `idxr i` (R89). -/
def hostIdxr (i : Index) : BusOp := busEncode (.idxRead i)

/-- `out j` (R89). -/
def hostOut (j : Index) : BusOp := busEncode (.outRead j)

/-- `cmd MNEMONIC` (R89). -/
def hostCmd (i : Instr) : BusOp := .write cmdAddr (encode i)

/-- The value of `CFG.FORMAT` that selects a variant (R87). -/
def formatSelector : Variant → BitVec 2
  | .bwry => 0#2
  | .bwr => 1#2

/-- The word that writes both fields of `CFG`: `d + 2 * f` (R90). -/
def selectorWord (dither : Bool) (f : BitVec 2) : Word := (f ++ BitVec.ofBool dither).setWidth 32

/-- The word the host writes to `CFG` for a recognised format (R87). -/
def cfgWordOf (dither : Bool) (f : Variant) : Word := selectorWord dither (formatSelector f)

/-- `cfg dither=d format=f` (R90). -/
def hostCfg (dither : Bool) (f : Variant) : List BusOp := [hostWr 0#24 (cfgWordOf dither f)]

/-- `dims w, h` (R90). -/
def hostDims (w h : BitVec 16) : List BusOp := [hostWr 1#24 (w.setWidth 32), hostWr 2#24 (h.setWidth 32)]

/-- `fill n, r, g, b` (R90). -/
def hostFill (n : Nat) (r g b : Byte) : Except HostStop (List BusOp) := perIndex (fun i => hostPix i r g b) n

/-- `classify r, g, b` (R90). -/
def hostClassify (r g b : Int) : List BusOp :=
  [hostWr 9#24 (BitVec.ofInt 32 r), hostWr 10#24 (BitVec.ofInt 32 g), hostWr 11#24 (BitVec.ofInt 32 b), hostCmd .classify,
    hostRd 12#24]

/-! ### The host's configuration -/

/-- The document's configuration with its defaults (R174; R87). -/
structure HostConfig where
  dither : Bool := true
  format : String := "bwry"
  deriving DecidableEq, Repr

/-- The variant a format string names (R87). -/
def variantOfName (name : String) : Option Variant :=
  if name = "bwry" then some .bwry else if name = "bwr" then some .bwr else none

/-- The correct courses of a host that is given an unrecognised format string: report it, or write one of the two
unrecognised selectors and let the block report it (R87, R174). -/
inductive FormatCourse
  | report
  | passTwo
  | passThree
  deriving DecidableEq, Repr

/-- The selector the host writes for a format string, or its own report of `InvalidPaletteFormat` (R87, R174). -/
def selectorOfName (course : FormatCourse) (name : String) : Except HostStop (BitVec 2) :=
  match variantOfName name, course with
  | some f, _ => .ok (formatSelector f)
  | none, .report => .error (.reported .invalidPaletteFormat)
  | none, .passTwo => .ok 2#2
  | none, .passThree => .ok 3#2

/-- The one write of `CFG` a configuration stands for (R174). -/
def HostConfig.script (course : FormatCourse) (cfg : HostConfig) : Except HostStop (List BusOp) := do
  let f ← selectorOfName course cfg.format
  return [hostWr 0#24 (selectorWord cfg.dither f)]

/-! ### From a grid to the block's result -/

/-- How a conversion begins: the host resets the block, or it knows the block's state, no fault standing (R171). -/
inductive Start
  | reset
  | known
  deriving DecidableEq, Repr

/-- The accesses of a start. -/
def Start.script : Start → List BusOp
  | .reset => [hostCmd .reset]
  | .known => []

/-- The commands a host issues over a loaded grid: for packed bytes one `CONVERT`, or `QUANT` then `PACK` (R171); for an
Index Grid a `QUANT` (R172). -/
inductive Run
  | convert
  | quantThenPack
  | quant
  deriving DecidableEq, Repr

/-- The commands of a run, in order. -/
def Run.commands : Run → List Instr
  | .convert => [.convert]
  | .quantThenPack => [.quant, .pack]
  | .quant => [.quant]

/-- The loader's hand-over of a grid, pixel by pixel in row-major order (R173). -/
def hostLoad (pixels : List (Byte × Byte × Byte)) : Except HostStop (List BusOp) :=
  perElement (fun i p => hostPix i p.1 p.2.1 p.2.2) pixels

/-- The accesses that take one grid of exactly `W * H` pixels through the block, up to the read of `STATUS` (R171, R172). -/
def conversionScript (start : Start) (course : FormatCourse) (cfg : HostConfig) (w h : BitVec 16)
    (pixels : List (Byte × Byte × Byte)) (run : Run) : Except HostStop (List BusOp) := do
  let configure ← cfg.script course
  let load ← if pixels.length = w.toNat * h.toNat then hostLoad pixels else .error .wrongPixelCount
  return start.script ++ configure ++ hostDims w h ++ load ++ run.commands.map hostCmd ++ [hostRd 4#24]

/-! ### The raw format "4EI1" -/

/-- The reads of the `OPTR` output bytes, after a conversion that left `s` (R171). -/
def State.fetchScript (s : State) : Except HostStop (List BusOp) :=
  if s.faulted then .error .conversionFaulted else perIndex hostOut s.optr.toNat

/-- The eight header bytes of a "4EI1" file, little-endian (R170). -/
def rawHeader (w h : BitVec 16) : List Byte :=
  [0x34#8, 0x45#8, 0x49#8, 0x31#8, w.extractLsb' 0 8, w.extractLsb' 8 8, h.extractLsb' 0 8, h.extractLsb' 8 8]

/-- A "4EI1" file: the header, then the packed bytes (R170). -/
def rawFile (w h : BitVec 16) (data : List Byte) : List Byte := rawHeader w h ++ data

/-- The file of a conversion that ended in `s`: the bytes `OutRead` gives, or nothing while a fault stands (R171). A byte
that nothing has written gives no file. -/
def State.rawFile (s : State) : Option (List Byte) :=
  if s.faulted then none
  else ((List.range s.optr.toNat).mapM fun j => s.out.read j).map (Machine.rawFile s.width s.height)

/-! ### The indexed format -/

/-- The 256 entries of the indexed format's colour table: the palette in its declared order, for three colours a duplicate
of black, then zeros (R172). -/
def colorTable (c : Config) (f : Variant) : List (Nat × Nat × Nat) :=
  let rgb := fun p : PaletteEntry => (p.r, p.g, p.b)
  let live := (c.palette f).entries.map rgb
  let head := match f with
    | .bwry => live
    | .bwr => live ++ [rgb (c.palette f).entry0]
  head ++ List.replicate (256 - head.length) (0, 0, 0)

/-- What the Indexed-Image Encoder wraps into its container (R172): the colour table, and one byte per pixel. -/
structure IndexedImage where
  colors : List (Nat × Nat × Nat)
  bytes : List Byte
  deriving DecidableEq, Repr

/-- The Indexed-Image Encoder on an Index Grid in row-major order: every byte is the raw index code (R172). -/
def indexedImage (c : Config) (f : Variant) (codes : List Code) : IndexedImage :=
  ⟨colorTable c f, codes.map (·.setWidth 8)⟩

/-- The reads of the Index Grid, after a `QUANT` that left `s` without a fault (R172). -/
def State.indexFetchScript (s : State) : Except HostStop (List BusOp) :=
  if s.faulted then .error .conversionFaulted else perIndex hostIdxr (s.W * s.H)

/-- The Index Grid that `IdxRead` gives after a `QUANT` that left `s`, or nothing while a fault stands (R172). A code that
nothing has written gives no grid. -/
def State.indexGrid (s : State) : Option (List Code) :=
  if s.faulted then none else (List.range (s.W * s.H)).mapM fun i => s.idx.read i

/-- The indexed image of the grid that a `QUANT` left in `s` (R172). -/
def State.indexedImage (c : Config) (f : Variant) (s : State) : Option IndexedImage :=
  s.indexGrid.map (Machine.indexedImage c f)

/-! ### The stripe test pattern -/

/-- The code of every pixel of row `y` in the stripe pattern with `n` bands (R175). -/
def stripeCode (n h y : Nat) : Nat := min (y / (h / n)) (n - 1)

/-- The stripe pattern of a `w` by `h` grid, row-major; none below `n` rows, where the document says nothing (R175;
93_implementation_defined.md U8; assumption 9). -/
def stripes (c : Config) (f : Variant) (w h : Nat) : Option (List Code) :=
  let n := (c.palette f).size
  if n ≤ h then
    some ((List.range h).flatMap fun y => List.replicate w (BitVec.ofNat 2 (stripeCode n h y)))
  else none

/-- The accesses that write an index grid (R175). -/
def indexLoad (codes : List Code) : Except HostStop (List BusOp) := perElement hostIdxw codes

/-- The accesses that write the stripe pattern and pack it, up to the read of `STATUS`; the packed bytes are then fetched
and filed as R171 says (R175). -/
def stripePackScript (start : Start) (c : Config) (f : Variant) (w h : BitVec 16) : Except HostStop (List BusOp) := do
  let codes ← (stripes c f w.toNat h.toNat).elim (.error .noPattern) .ok
  let load ← indexLoad codes
  return start.script ++ hostDims w h ++ load ++ [hostCmd .pack, hostRd 4#24]

/-- The stripe pattern as an indexed image, made without the block (R175, R172). -/
def stripeImage (c : Config) (f : Variant) (w h : Nat) : Option IndexedImage :=
  (stripes c f w h).map (indexedImage c f)

end Sys2Proof.Machine
end

