-- ==== Sys2Proof/Safety.lean ====
section
/-! DEFINITION. The terms claims are stated in: the invariant every step keeps, and the conditions on the state under which a
command is taken, passes its checks and completes. -/

namespace Sys2Proof.Machine

/-- Every channel of a pixel is a value of the carrier `Q` (10_state.md R32; 00_scope.md R9). -/
def Pixel.InCarrier (num : NumFormat) (v : Pixel) : Prop :=
  Machine.InCarrier num v.r ∧ Machine.InCarrier num v.g ∧ Machine.InCarrier num v.b

/-- Every channel of a pixel has magnitude at most `bound`. -/
def Pixel.Within (bound : Rat) (v : Pixel) : Prop := absQ v.r ≤ bound ∧ absQ v.g ≤ bound ∧ absQ v.b ≤ bound

/-- What holds of every state between two host accesses. -/
structure State.Inv (c : Config) (s : State) : Prop where
  /-- `PIX` is canonical and no larger than `MAXPIX` (10_state.md R32). -/
  pixWf : s.pix.wf c.maxPix
  /-- `IDX` is canonical and no larger than `MAXPIX` (R33). -/
  idxWf : s.idx.wf c.maxPix
  /-- `OUT` is canonical and no larger than `floor(MAXPIX/4)` (R34). -/
  outWf : s.out.wf c.outSize
  /-- Every stored channel is a value of `Q` (R32). -/
  pixInCarrier : ∀ i v, s.pix.read i = some v → v.InCarrier c.num
  /-- `STATUS.ERR` is one of 0, 1, 2, 3 (R25, U5). -/
  errLegal : s.err.toNat ≤ 3
  /-- While `ERR = 0`, `ERRINFO` reads 0 (R26). -/
  errInfoClear : s.err = 0#3 → s.errInfo = 0#32
  /-- The host never sees a scan in progress: the column is back at 0 (R28). -/
  atRowStart : s.xpos = 0#16
  /-- The row left by a completed scan is within the capacity (R28; 60_exceptions.md R191). -/
  rowBound : s.ypos.toNat ≤ c.maxPix
  /-- `OPTR.J <= MAXPIX / 4` (R29). -/
  optrBound : s.optr.toNat ≤ c.outSize

/-- `CHECK_FORMAT` passes: `CFG.FORMAT` is 0 or 1 (60_exceptions.md R192). -/
def State.FormatOk (s : State) : Prop := s.format.toNat < 2

/-- `CFG.FORMAT` selects the variant `f` (10_state.md R21). -/
def State.Selects (s : State) (f : Variant) : Prop :=
  (s.format = 0#2 ∧ f = .bwry) ∨ (s.format = 1#2 ∧ f = .bwr)

/-- `CHECK_DIMS(false)` passes (60_exceptions.md R192). -/
def State.DimsOk (c : Config) (s : State) : Prop := 0 < s.W ∧ 0 < s.H ∧ s.W * s.H ≤ c.maxPix

/-- Every pixel of the grid has been written, with channels of magnitude at most `2^470`: a freshly loaded grid has channels
in `[0, 255]` (20_memory.md R56), and the bound leaves room for grids that many runs have already adjusted. Far above it a
square or a sum can leave `Q` (assumption 4). -/
def State.GridLoaded (s : State) : Prop :=
  ∀ i, i < s.W * s.H → ∃ v, s.pix.read i = some v ∧ v.Within (pow2 470)

/-- Every index code of the grid has been written (70_reset_and_hazards.md R221 (3)). -/
def State.CodesWritten (s : State) : Prop := ∀ i, i < s.W * s.H → ∃ k, s.idx.read i = some k

/-- Every pixel of the grid is an exact colour of the palette (41_dither.md R126). -/
def State.GridExact (c : Config) (f : Variant) (s : State) : Prop :=
  ∀ i, i < s.W * s.H → ∃ p ∈ (c.palette f).entries, s.pix.read i = some (entryPixel p)

/-- `n` micro-operations one after another, with no loop guard. -/
def repeatMicro (micro : State → Except Stop State) : Nat → State → Except Stop State
  | 0, s => .ok s
  | n + 1, s => micro s >>= repeatMicro micro n

/-- The next access the host makes is `op`, and `rest` follows. -/
def State.Pending (s : State) (op : BusOp) (rest : List BusOp) : Prop := s.inbox = op :: rest

end Sys2Proof.Machine
end

