-- ==== Sys2Proof/Certificates/Slice0/Obligations.lean ====
section
/-! DEFINITION. The statements for the provers: what the commands, the host port, the arithmetic and the whole machine do,
rule by rule of spec/. Where a clause rests on a choice of the model and not on the spec, its docstring names the
assumption. `Config.hw` has `MAXPIX = 40000` and the palettes of 10_state.md R30. -/

open Sys2Proof Sys2Proof.Machine

/-! ### Command words and decoding -/

/-- 30_encoding.md R82: the five words select the five commands. A sanity check on words written out from the table. -/
def Obligations.FiveCommandWordsDecode : Prop :=
  decode 0x00000001#32 = .ok .reset ∧ decode 0x00000002#32 = .ok .classify ∧ decode 0x00000003#32 = .ok .quant ∧
    decode 0x00000004#32 = .ok .pack ∧ decode 0x00000005#32 = .ok .convert

/-- Decoding and encoding agree (30_encoding.md R80, R82): every command decodes from its own word, and a word that decodes
to a command is that command's word. -/
def Obligations.DecodeAndEncodeAgree : Prop :=
  ∀ (i : Instr) (v : Word), i.wf = true → (decode v = .ok i ↔ v = encode i)

/-- 30_encoding.md R83: every word other than the five is illegal; written to `CMD` it raises `IllegalCommand` with the word
while `STATUS.ERR = 0`, and changes nothing while `STATUS.ERR != 0`. -/
def Obligations.EveryOtherWordIsIllegal : Prop :=
  ∀ (v : Word) (s : State), v ≠ 1#32 → v ≠ 2#32 → v ≠ 3#32 → v ≠ 4#32 → v ≠ 5#32 →
    (decode v).toOption = none ∧
      (s.err = 0#3 → runCommand v s = .next { s with err := 3#3, errInfo := v }) ∧
      (s.err ≠ 0#3 → runCommand v s = .next s)

/-- 30_encoding.md R84: the decoding order of a write of `v` to `CMD`, as one step of the machine. -/
def Obligations.CommandWriteDecodingOrder : Prop :=
  ∀ (s : State) (v : Word) (rest : List BusOp), s.Pending (.write cmdAddr v) rest →
    step s =
      if v = 1#32 then exec .reset { s with inbox := rest }
      else if s.err ≠ 0#3 then .next { s with inbox := rest }
      else if v = 2#32 then exec .classify { s with inbox := rest }
      else if v = 3#32 then exec .quant { s with inbox := rest }
      else if v = 4#32 then exec .pack { s with inbox := rest }
      else if v = 5#32 then exec .convert { s with inbox := rest }
      else .next { s with inbox := rest, err := 3#3, errInfo := v }

/-- A step runs the decoded command: where the host's next access writes a word that decodes to `i` and the block is not
faulted (or `i` is `RESET`), the step is `exec i` once the access is taken. The word may also be placed by
`State.withFetchWord`. -/
def Obligations.StepRunsTheDecodedCommand : Prop :=
  (∀ (s : State) (v : Word) (rest : List BusOp) (i : Instr), s.Pending (.write cmdAddr v) rest → decode v = .ok i →
      i.wf = true → (s.err = 0#3 ∨ i = .reset) → step s = exec i { s with inbox := rest }) ∧
    ∀ (s : State) (w : Nat) (i : Instr), decodeTableWord 32 w = some i → (s.err = 0#3 ∨ i = .reset) →
      step (s.withFetchWord 32 w) = exec i s

/-! ### The host port -/

/-- 20_memory.md R51: the word address map. Register `n` is at `n`, pixel `i` at `0x1000000 + i`, index code `i` at
`0x2000000 + i`, output byte `j` at `0x3000000 + j`; an address of any higher port is no transaction. Every transaction is
carried by exactly the access the map gives it. -/
def Obligations.WordAddressMap : Prop :=
  (∀ (i : Index) (v : Word),
      busDecode (.read (BitVec.ofNat 28 (0x0000000 + i.toNat))) = some (.regRead i) ∧
      busDecode (.write (BitVec.ofNat 28 (0x0000000 + i.toNat)) v) = some (.regWrite i v) ∧
      busDecode (.read (BitVec.ofNat 28 (0x1000000 + i.toNat))) = some (.pixRead i) ∧
      busDecode (.write (BitVec.ofNat 28 (0x1000000 + i.toNat)) v) = some (.pixWrite i v) ∧
      busDecode (.read (BitVec.ofNat 28 (0x2000000 + i.toNat))) = some (.idxRead i) ∧
      busDecode (.write (BitVec.ofNat 28 (0x2000000 + i.toNat)) v) = some (.idxWrite i v) ∧
      busDecode (.read (BitVec.ofNat 28 (0x3000000 + i.toNat))) = some (.outRead i) ∧
      busDecode (.write (BitVec.ofNat 28 (0x3000000 + i.toNat)) v) = some (.outWrite i v)) ∧
    (∀ (a : BusAddr) (v : Word), 0x4000000 ≤ a.toNat → busDecode (.read a) = none ∧ busDecode (.write a v) = none) ∧
    ∀ (op : BusOp) (t : Txn), busDecode op = some t ↔ op = busEncode t

/-- 20_memory.md R53: `RegRead(n)` returns the register with its reserved bits zero, 0 for `CMD` and for `n >= 13`, and
changes nothing but the host's list of answers. -/
def Obligations.RegisterReadReturnsTheRegister : Prop :=
  ∀ (s : State) (n : Index) (rest : List BusOp), s.Pending (busEncode (.regRead n)) rest →
    ∃ v : Word, step s = .next { s with inbox := rest, replies := v :: s.replies } ∧
      (n.toNat = 0 → v.toNat = 2 * s.format.toNat + s.dither.toNat) ∧
      (n.toNat = 1 → v.toNat = s.width.toNat) ∧ (n.toNat = 2 → v.toNat = s.height.toNat) ∧
      (n.toNat = 3 → v = 0#32) ∧ (n.toNat = 4 → v.toNat = s.err.toNat) ∧ (n.toNat = 5 → v = s.errInfo) ∧
      (n.toNat = 6 → v.toNat = s.xpos.toNat) ∧ (n.toNat = 7 → v.toNat = s.ypos.toNat) ∧ (n.toNat = 8 → v = s.optr) ∧
      (n.toNat = 9 → v = s.cr) ∧ (n.toNat = 10 → v = s.cg) ∧ (n.toNat = 11 → v = s.cb) ∧
      (n.toNat = 12 → v.toNat = s.result.toNat) ∧ (13 ≤ n.toNat → v = 0#32)

/-- 20_memory.md R54: `RegWrite(n, v)` stores the implemented bits of a writable register, runs the command for `CMD`, and
is ignored for a read-only register and for `n >= 13`. -/
def Obligations.RegisterWriteStoresTheField : Prop :=
  ∀ (s : State) (n : Index) (v : Word) (rest : List BusOp), s.Pending (busEncode (.regWrite n v)) rest →
    (n.toNat = 0 → step s =
        .next { s with inbox := rest, dither := v.getLsbD 0, format := BitVec.ofNat 2 (v.toNat / 2) }) ∧
      (n.toNat = 1 → step s = .next { s with inbox := rest, width := BitVec.ofNat 16 v.toNat }) ∧
      (n.toNat = 2 → step s = .next { s with inbox := rest, height := BitVec.ofNat 16 v.toNat }) ∧
      (n.toNat = 3 → step s = runCommand v { s with inbox := rest }) ∧
      (n.toNat = 9 → step s = .next { s with inbox := rest, cr := v }) ∧
      (n.toNat = 10 → step s = .next { s with inbox := rest, cg := v }) ∧
      (n.toNat = 11 → step s = .next { s with inbox := rest, cb := v }) ∧
      ((4 ≤ n.toNat ∧ n.toNat ≤ 8) ∨ 12 ≤ n.toNat → step s = .next { s with inbox := rest })

/-- 20_memory.md R55 and R56: `PixRead` returns 0 and changes nothing; `PixWrite(i, v)` loads the three samples exactly for
`i < MAXPIX`, `v[31:24]` and every other element aside, and is ignored beyond. -/
def Obligations.PixelPortLoadsSamples : Prop :=
  (∀ (s : State) (i : Index) (rest : List BusOp), s.Pending (busEncode (.pixRead i)) rest →
      step s = .next { s with inbox := rest, replies := 0#32 :: s.replies }) ∧
    ∀ (s : State) (i : Index) (v : Word) (rest : List BusOp), s.Pending (busEncode (.pixWrite i v)) rest →
      (i.toNat < 40000 → ∃ p : Memory Pixel, step s = .next { s with inbox := rest, pix := p } ∧
          p.read i.toNat = some ⟨(v.toNat / 65536 % 256 : Nat), (v.toNat / 256 % 256 : Nat), (v.toNat % 256 : Nat)⟩ ∧
          ∀ j, j ≠ i.toNat → p.read j = s.pix.read j) ∧
        (40000 ≤ i.toNat → step s = .next { s with inbox := rest })

/-- 20_memory.md R57: the index port, for elements that hold a value (that an element never written stops is the model's
choice, assumption 2, stated in `HostReadOfUnwrittenElementStops`). -/
def Obligations.IndexPortReadsAndWritesCodes : Prop :=
  (∀ (s : State) (i : Index) (rest : List BusOp), s.Pending (busEncode (.idxRead i)) rest →
      (∀ k, i.toNat < 40000 → s.idx.read i.toNat = some k →
          step s = .next { s with inbox := rest, replies := BitVec.ofNat 32 k.toNat :: s.replies }) ∧
        (40000 ≤ i.toNat → step s = .next { s with inbox := rest, replies := 0#32 :: s.replies })) ∧
    ∀ (s : State) (i : Index) (v : Word) (rest : List BusOp), s.Pending (busEncode (.idxWrite i v)) rest →
      (i.toNat < 40000 → ∃ x : Memory Code, step s = .next { s with inbox := rest, idx := x } ∧
          x.read i.toNat = some (BitVec.ofNat 2 v.toNat) ∧ ∀ j, j ≠ i.toNat → x.read j = s.idx.read j) ∧
        (40000 ≤ i.toNat → step s = .next { s with inbox := rest })

/-- 20_memory.md R58: the output port, for bytes that hold a value; `OutWrite` is ignored for every index. -/
def Obligations.OutputPortIsReadOnly : Prop :=
  (∀ (s : State) (j : Index) (rest : List BusOp), s.Pending (busEncode (.outRead j)) rest →
      (∀ b, j.toNat < 10000 → s.out.read j.toNat = some b →
          step s = .next { s with inbox := rest, replies := BitVec.ofNat 32 b.toNat :: s.replies }) ∧
        (10000 ≤ j.toNat → step s = .next { s with inbox := rest, replies := 0#32 :: s.replies })) ∧
    ∀ (s : State) (j : Index) (v : Word) (rest : List BusOp), s.Pending (busEncode (.outWrite j v)) rest →
      step s = .next { s with inbox := rest }

/-- 20_memory.md R59, its first sentence: a port that does not exist reads 0 and ignores writes. -/
def Obligations.MissingPortReadsZero : Prop :=
  ∀ (s : State) (a : BusAddr) (v : Word) (rest : List BusOp), 0x4000000 ≤ a.toNat →
    (s.Pending (.read a) rest → step s = .next { s with inbox := rest, replies := 0#32 :: s.replies }) ∧
      (s.Pending (.write a v) rest → step s = .next { s with inbox := rest })

/-- The model's choice (assumption 2; 93_implementation_defined.md U3 asks for it): a host read of an element inside the
port that nothing has written stops under its own name. -/
def Obligations.HostReadOfUnwrittenElementStops : Prop :=
  ∀ (s : State) (i : Index) (rest : List BusOp),
    (s.Pending (busEncode (.idxRead i)) rest → i.toNat < 40000 → s.idx.read i.toNat = none →
        step s = .fault (.unwrittenIdx i.toNat)) ∧
      (s.Pending (busEncode (.outRead i)) rest → i.toNat < 10000 → s.out.read i.toNat = none →
        step s = .fault (.unwrittenOut i.toNat))

/-- 20_memory.md R64: no read has a side effect. A step that reads and goes on changes nothing but the host's own lists. -/
def Obligations.NoReadHasASideEffect : Prop :=
  ∀ (s t : State) (a : BusAddr) (rest : List BusOp), s.Pending (.read a) rest → step s = .next t →
    ∃ v : Word, t = { s with inbox := rest, replies := v :: s.replies }

/-- Whole-machine rule from 20_memory.md R50 and R58: `OUT` changes only by `PACK` or `CONVERT`, `IDX` only by those two
quantising commands or `IdxWrite`, `PIX` only by a dithering run or `PixWrite`. -/
def Obligations.MemoriesChangeOnlyByTheirWriters : Prop :=
  ∀ s t : State, step s = .next t →
    (t.out ≠ s.out → ∃ v rest, s.inbox = .write cmdAddr v :: rest ∧ (v = 4#32 ∨ v = 5#32)) ∧
      (t.idx ≠ s.idx → (∃ v rest, s.inbox = .write cmdAddr v :: rest ∧ (v = 3#32 ∨ v = 5#32)) ∨
        ∃ i v rest, s.inbox = busEncode (.idxWrite i v) :: rest) ∧
      (t.pix ≠ s.pix → (s.dither = true ∧ ∃ v rest, s.inbox = .write cmdAddr v :: rest ∧ (v = 3#32 ∨ v = 5#32)) ∨
        ∃ i v rest, s.inbox = busEncode (.pixWrite i v) :: rest)

/-- 20_memory.md R52, its last sentence: accesses are accepted whatever `STATUS.ERR` holds. An access that is no write to
`CMD` and does not read `STATUS` or `ERRINFO` has the same effect under any fault code, which it leaves as it is. -/
def Obligations.AccessesDoNotDependOnTheFaultCode : Prop :=
  ∀ (s t : State) (op : BusOp) (rest : List BusOp) (e : BitVec 3) (info : Word), s.Pending op rest →
    (∀ v, op ≠ .write cmdAddr v) → op ≠ busEncode (.regRead 4#24) → op ≠ busEncode (.regRead 5#24) →
    step s = .next t → step { s with err := e, errInfo := info } = .next { t with err := e, errInfo := info }

/-! ### Reset and faults -/

/-- 10_state.md R37: the registers after hardware reset, and no element of a memory has a value. -/
def Obligations.HardwareResetValues : Prop :=
  State.reset.dither = true ∧ State.reset.format = 0#2 ∧ State.reset.width = 200#16 ∧ State.reset.height = 200#16 ∧
    State.reset.err = 0#3 ∧ State.reset.errInfo = 0#32 ∧ State.reset.xpos = 0#16 ∧ State.reset.ypos = 0#16 ∧
    State.reset.optr = 0#32 ∧ State.reset.cr = 0#32 ∧ State.reset.cg = 0#32 ∧ State.reset.cb = 0#32 ∧
    State.reset.result = 0#2 ∧
    ∀ i, State.reset.pix.read i = none ∧ State.reset.idx.read i = none ∧ State.reset.out.read i = none

/-- 60_exceptions.md R195: `RESET` puts every register at its reset value and keeps the memories, whatever `STATUS.ERR`
holds. It is the completion statement of `RESET`. -/
def Obligations.ResetCommandRestoresRegisters : Prop :=
  ∀ s : State,
    exec .reset s = .next
        { s with
          dither := true, format := 0#2, width := 200#16, height := 200#16
          err := 0#3, errInfo := 0#32
          xpos := 0#16, ypos := 0#16, optr := 0#32
          cr := 0#32, cg := 0#32, cb := 0#32, result := 0#2 } ∧
      runCommand 1#32 s = exec .reset s

/-- 60_exceptions.md R191 and R192: which condition raises which fault with which value, and the order of the checks:
`IllegalCommand`, then `InvalidPaletteFormat`, then `UnsupportedGridDimensions`. The raise is all the command does, and no
fault is raised outside its condition. -/
def Obligations.FaultConditionsAndPriority : Prop :=
  (∀ (s : State) (v : Word), s.err = 0#3 → (v.toNat < 1 ∨ 5 < v.toNat) →
      runCommand v s = .next { s with err := 3#3, errInfo := v }) ∧
    (∀ s : State, 2 ≤ s.format.toNat → ∀ i : Instr, i = .classify ∨ i = .quant ∨ i = .convert →
      exec i s = .next { s with err := 1#3, errInfo := BitVec.ofNat 32 s.format.toNat }) ∧
    (∀ s : State, s.format.toNat < 2 → (s.W = 0 ∨ s.H = 0 ∨ 40000 < s.W * s.H) → ∀ i : Instr, i = .quant ∨ i = .convert →
      exec i s = .next { s with err := 2#3, errInfo := BitVec.ofNat 32 (s.H * 65536 + s.W) }) ∧
    (∀ s : State, s.format.toNat < 2 → s.W % 4 ≠ 0 →
      exec .convert s = .next { s with err := 2#3, errInfo := BitVec.ofNat 32 (s.H * 65536 + s.W) }) ∧
    (∀ s : State, (s.W = 0 ∨ s.H = 0 ∨ 40000 < s.W * s.H ∨ s.W % 4 ≠ 0) →
      exec .pack s = .next { s with err := 2#3, errInfo := BitVec.ofNat 32 (s.H * 65536 + s.W) }) ∧
    ∀ (i : Instr) (s t : State), s.err = 0#3 → exec i s = .next t →
      (t.err = 1#3 → (i = .classify ∨ i = .quant ∨ i = .convert) ∧ 2 ≤ s.format.toNat) ∧
        (t.err = 2#3 → (i = .quant ∨ i = .pack ∨ i = .convert) ∧
          (s.W = 0 ∨ s.H = 0 ∨ 40000 < s.W * s.H ∨ (i ≠ .quant ∧ s.W % 4 ≠ 0))) ∧
        t.err.toNat ≤ 2

/-- 60_exceptions.md R193: a write to `CMD` that raises a fault changes `STATUS.ERR` and `ERRINFO` and nothing else. -/
def Obligations.FaultsArePrecise : Prop :=
  ∀ (v : Word) (s t : State), s.err = 0#3 → runCommand v s = .next t → t.err ≠ 0#3 →
    (t.err = 1#3 ∨ t.err = 2#3 ∨ t.err = 3#3) ∧ t = { s with err := t.err, errInfo := t.errInfo }

/-- A command that raises nothing leaves `STATUS` and `ERRINFO` as they are, `RESET` aside (10_state.md R25: `ERR` is
written only by `raise` and cleared only by `RESET` and hardware reset). -/
def Obligations.StatusIsWrittenOnlyByRaise : Prop :=
  ∀ (i : Instr) (s t : State), i ≠ .reset → exec i s = .next t →
    (t.err = s.err ∧ t.errInfo = s.errInfo) ∨ ∃ (k : ErrKind) (info : Word), t = raise k info s

/-- 60_exceptions.md R194, its first two sentences: while a fault stands, a write to `CMD` of any word but `RESET` changes
no state at all, and completes. -/
def Obligations.FaultedBlockRefusesCommands : Prop :=
  ∀ (s : State) (v : Word) (rest : List BusOp), s.Pending (.write cmdAddr v) rest → s.err ≠ 0#3 → v ≠ 1#32 →
    step s = .next { s with inbox := rest }

/-- 60_exceptions.md R196: faults do not nest. Once `ERR != 0` every step keeps the first fault, the `RESET` command
excepted. -/
def Obligations.FirstFaultIsKeptUntilReset : Prop :=
  ∀ s t : State, s.err ≠ 0#3 → step s = .next t →
    (t.err = s.err ∧ t.errInfo = s.errInfo) ∨
      ∃ rest, s.inbox = .write cmdAddr 1#32 :: rest ∧ t.err = 0#3 ∧ t.errInfo = 0#32

/-! ### The number format -/

/-- 00_scope.md R9: `rnd` is rounding to the nearest multiple of `u = 2^(E-52)`, ties to even, with
`E = max(floor(log2 |q|), -1022)`; it fixes `Q`, is monotone and is odd, and its value lies in `Q` exactly when its magnitude
is below `2^1024`. -/
def Obligations.RoundingFunctionOfTheSpec : Prop :=
  rnd 0 = 0 ∧
    (∀ (q : ℚ) (l : ℤ), (2 : ℚ) ^ l ≤ |q| → |q| < (2 : ℚ) ^ (l + 1) →
      ∃ n : ℤ, rnd q = (2 : ℚ) ^ (max l (-1022) - 52) * n ∧
        |q / (2 : ℚ) ^ (max l (-1022) - 52) - n| ≤ 1 / 2 ∧
        (|q / (2 : ℚ) ^ (max l (-1022) - 52) - n| = 1 / 2 → Even n)) ∧
    (∀ q : ℚ, InBinary64 q → rnd q = q) ∧
    (∀ p q : ℚ, p ≤ q → rnd p ≤ rnd q) ∧
    (∀ q : ℚ, rnd (-q) = -rnd q) ∧
    ∀ q : ℚ, InBinary64 (rnd q) ↔ |rnd q| < (2 : ℚ) ^ (1024 : ℤ)

/-- 00_scope.md R10: each primitive rounds the exact result exactly once and returns a value of `Q`, for every result whose
rounding lies in `Q` (the others are `ResultOutsideQIsRefused`). -/
def Obligations.PrimitivesRoundOnceIntoTheCarrier : Prop :=
  (∀ a b : ℚ,
      (|rnd (a + b)| < (2 : ℚ) ^ (1024 : ℤ) → fadd .binary64 a b = .ok (rnd (a + b)) ∧ InBinary64 (rnd (a + b))) ∧
      (|rnd (a - b)| < (2 : ℚ) ^ (1024 : ℤ) → fsub .binary64 a b = .ok (rnd (a - b)) ∧ InBinary64 (rnd (a - b))) ∧
      (|rnd (a * b)| < (2 : ℚ) ^ (1024 : ℤ) → fmul .binary64 a b = .ok (rnd (a * b)) ∧ InBinary64 (rnd (a * b))) ∧
      (flt a b = true ↔ a < b)) ∧
    ∀ n : ℤ, |n| ≤ 2 ^ 53 → InBinary64 (fromInt n) ∧ fromInt n = n

/-- The model's reading of 00_scope.md R12 and 93_implementation_defined.md U9 (assumption 4): a result whose rounding has
magnitude `2^1024` or more is no value of `Q`, and the primitive refuses it under that name. -/
def Obligations.ResultOutsideQIsRefused : Prop :=
  ∀ a b : ℚ,
    ((2 : ℚ) ^ (1024 : ℤ) ≤ |rnd (a + b)| → fadd .binary64 a b = .error (.refuse .outsideQ) ∧ ¬InBinary64 (rnd (a + b))) ∧
      ((2 : ℚ) ^ (1024 : ℤ) ≤ |rnd (a - b)| → fsub .binary64 a b = .error (.refuse .outsideQ) ∧ ¬InBinary64 (rnd (a - b))) ∧
      ((2 : ℚ) ^ (1024 : ℤ) ≤ |rnd (a * b)| → fmul .binary64 a b = .error (.refuse .outsideQ) ∧ ¬InBinary64 (rnd (a * b)))

/-- 00_scope.md R11: the four coefficients, each in `Q` exactly, and "multiply by k, round, then divide by 16" for every
product that is not subnormal. -/
def Obligations.DiffusionCoefficients : Prop :=
  (K7 = 7 / 16 ∧ K3 = 3 / 16 ∧ K5 = 5 / 16 ∧ K1 = 1 / 16) ∧
    (InBinary64 K7 ∧ InBinary64 K3 ∧ InBinary64 K5 ∧ InBinary64 K1) ∧
    ∀ e : ℚ, (2 : ℚ) ^ (-1022 : ℤ) ≤ |e * K7| → rnd (e * K7) = rnd (7 * e) / 16

/-- 00_scope.md R13: in the exact companion the rounding function is the identity, so every primitive answers the exact
result. It is not this hardware. -/
def Obligations.ExactCompanionDoesNotRound : Prop :=
  ∀ a b : ℚ, fadd .exact a b = .ok (a + b) ∧ fsub .exact a b = .ok (a - b) ∧ fmul .exact a b = .ok (a * b) ∧
    InCarrier .exact a

/-! ### The Color Classifier -/

/-- 40_classify.md R100: the squared distance, one rounding per operation in the order red, green, blue; never negative;
0 for an exact colour; and only for an exact colour when every non-zero channel difference is at least `2^-537`. -/
def Obligations.SquaredDistance : Prop :=
  ∀ (v : Pixel) (p : PaletteEntry) (d : ℚ), dist .binary64 v p = .ok d →
    d = rnd (rnd (rnd (rnd (v.r - p.r) * rnd (v.r - p.r)) + rnd (rnd (v.g - p.g) * rnd (v.g - p.g)))
          + rnd (rnd (v.b - p.b) * rnd (v.b - p.b))) ∧
      0 ≤ d ∧
      (v = ⟨p.r, p.g, p.b⟩ → d = 0) ∧
      (d = 0 → (v.r = p.r ∨ (2 : ℚ) ^ (-537 : ℤ) ≤ |v.r - p.r|) → (v.g = p.g ∨ (2 : ℚ) ^ (-537 : ℤ) ≤ |v.g - p.g|) →
        (v.b = p.b ∨ (2 : ℚ) ^ (-537 : ℤ) ≤ |v.b - p.b|) → v = ⟨p.r, p.g, p.b⟩)

/-- 40_classify.md R102: no clamping; the rule's example with its distances, and the clamped triple beside it. -/
def Obligations.NoClampingExample : Prop :=
  (dist .binary64 ⟨-10, 300, 0⟩ (paletteAt Config.hw.bwry 0#2) = .ok 90100 ∧
      dist .binary64 ⟨-10, 300, 0⟩ (paletteAt Config.hw.bwry 1#2) = .ok 137275 ∧
      dist .binary64 ⟨-10, 300, 0⟩ (paletteAt Config.hw.bwry 2#2) = .ok 72250 ∧
      dist .binary64 ⟨-10, 300, 0⟩ (paletteAt Config.hw.bwry 3#2) = .ok 160225) ∧
    nearest Config.hw ⟨-10, 300, 0⟩ .bwry = .ok 2#2 ∧ nearest Config.hw ⟨0, 255, 0⟩ .bwry = .ok 0#2

/-- 40_classify.md R103, for every legal configuration and both formats: (a) an exact colour returns its own code with
distance 0; (b) the code is below `NPAL`; (c) no entry is nearer and every earlier entry is strictly farther. (d) holds
because `nearest` is a function of the configuration, the triple and the variant alone. -/
def Obligations.LawsOfNearest : Prop :=
  ∀ c : Config, c.wf = true → ∀ f : Variant,
    (∀ (j : Nat) (p : PaletteEntry), (c.palette f).entries[j]? = some p →
        (∀ (j' : Nat) (p' : PaletteEntry), j' < j → (c.palette f).entries[j']? = some p' → entryPixel p' ≠ entryPixel p) →
        nearest c (entryPixel p) f = .ok (BitVec.ofNat 2 j) ∧ dist c.num (entryPixel p) p = .ok 0) ∧
      ∀ (v : Pixel) (k : Code), nearest c v f = .ok k →
        k.toNat < (c.palette f).size ∧
          ∃ dk, dist c.num v (paletteAt (c.palette f) k) = .ok dk ∧
            ∀ (j : Nat) (p : PaletteEntry), (c.palette f).entries[j]? = some p →
              ∃ dj, dist c.num v p = .ok dj ∧ dk ≤ dj ∧ (j < k.toNat → dk < dj)

/-- 40_classify.md R104: `CLASSIFY` completes for every operand triple and writes `RESULT` only; with an unrecognised
format it raises `InvalidPaletteFormat` and `RESULT` keeps its value; and the rule's two worked examples. It is the
completion statement of `CLASSIFY`. -/
def Obligations.ClassifyWritesTheNearestCode : Prop :=
  (∀ (s : State) (f : Variant), s.Selects f →
      ∃ k : Code, nearest Config.hw ⟨(s.cr.toInt : ℚ), (s.cg.toInt : ℚ), (s.cb.toInt : ℚ)⟩ f = .ok k ∧
        exec .classify s = .next { s with result := k }) ∧
    (∀ s : State, 2 ≤ s.format.toNat →
      exec .classify s = .next { s with err := 1#3, errInfo := BitVec.ofNat 32 s.format.toNat }) ∧
    ((Config.hw.palette .bwry).entries.map (dist .binary64 ⟨200, 100, 50⟩) = [.ok 52500, .ok 69075, .ok 29550, .ok 15525] ∧
      nearest Config.hw ⟨200, 100, 50⟩ .bwry = .ok 3#2) ∧
    (Config.hw.palette .bwr).entries.map (dist .binary64 ⟨255, 128, 127⟩) = [.ok 97538, .ok 32513, .ok 32513] ∧
      nearest Config.hw ⟨255, 128, 127⟩ .bwr = .ok 1#2

/-! ### The scan, the Dither Engine and the Simple Quantizer -/

/-- 41_dither.md R120: `ADVANCE` moves one pixel on in row-major order. Started at (0, 0), after `n <= W * H` calls the
position is column `n mod W` of row `n div W`, so every pixel is visited once in order and the end is (0, H). -/
def Obligations.AdvanceIsRowMajor : Prop :=
  (∀ s : State, s.xpos.toNat < s.W → s.ypos.toNat < s.H →
      s.advance = { s with xpos := s.advance.xpos, ypos := s.advance.ypos } ∧
        (s.xpos.toNat + 1 = s.W → s.advance.xpos.toNat = 0 ∧ s.advance.ypos.toNat = s.ypos.toNat + 1) ∧
        (s.xpos.toNat + 1 ≠ s.W → s.advance.xpos.toNat = s.xpos.toNat + 1 ∧ s.advance.ypos = s.ypos)) ∧
    ∀ (s : State) (n : Nat), s.xpos = 0#16 → s.ypos = 0#16 → 0 < s.W → n ≤ s.W * s.H →
      ((State.advance)^[n] s).xpos.toNat = n % s.W ∧ ((State.advance)^[n] s).ypos.toNat = n / s.W

/-- 41_dither.md R122, R123 and R125: one `DSTEP` at `(x, y)`. It reads the pixel, records the nearest code, and adds the
error, rounded once per product and once per sum, into the four neighbours inside the grid; nothing outside the grid and
not the pixel itself is written; the scan advances. -/
def Obligations.DitherStepDiffusesTheError : Prop :=
  ∀ (s t : State) (f : Variant) (x y i : Nat), s.xpos.toNat = x → s.ypos.toNat = y → i = y * s.W + x →
    x < s.W → y < s.H → dstep Config.hw f s = .ok t →
    ∃ (v e : Pixel) (k : Code) (p : PaletteEntry),
      s.pix.read i = some v ∧ nearest Config.hw v f = .ok k ∧ (Config.hw.palette f).entries[k.toNat]? = some p ∧
        e = ⟨rnd (v.r - p.r), rnd (v.g - p.g), rnd (v.b - p.b)⟩ ∧
        t.idx.read i = some k ∧ (∀ j, j ≠ i → t.idx.read j = s.idx.read j) ∧
        (x + 1 < s.W → ∃ a, s.pix.read (i + 1) = some a ∧ t.pix.read (i + 1) = some
          ⟨rnd (a.r + rnd (e.r * (7 / 16))), rnd (a.g + rnd (e.g * (7 / 16))), rnd (a.b + rnd (e.b * (7 / 16)))⟩) ∧
        (1 ≤ x → y + 1 < s.H → ∃ a, s.pix.read (i + s.W - 1) = some a ∧ t.pix.read (i + s.W - 1) = some
          ⟨rnd (a.r + rnd (e.r * (3 / 16))), rnd (a.g + rnd (e.g * (3 / 16))), rnd (a.b + rnd (e.b * (3 / 16)))⟩) ∧
        (y + 1 < s.H → ∃ a, s.pix.read (i + s.W) = some a ∧ t.pix.read (i + s.W) = some
          ⟨rnd (a.r + rnd (e.r * (5 / 16))), rnd (a.g + rnd (e.g * (5 / 16))), rnd (a.b + rnd (e.b * (5 / 16)))⟩) ∧
        (x + 1 < s.W → y + 1 < s.H → ∃ a, s.pix.read (i + s.W + 1) = some a ∧ t.pix.read (i + s.W + 1) = some
          ⟨rnd (a.r + rnd (e.r * (1 / 16))), rnd (a.g + rnd (e.g * (1 / 16))), rnd (a.b + rnd (e.b * (1 / 16)))⟩) ∧
        (∀ j, ¬(x + 1 < s.W ∧ j = i + 1) → ¬(1 ≤ x ∧ y + 1 < s.H ∧ j = i + s.W - 1) → ¬(y + 1 < s.H ∧ j = i + s.W) →
          ¬(x + 1 < s.W ∧ y + 1 < s.H ∧ j = i + s.W + 1) → t.pix.read j = s.pix.read j) ∧
        t = { s with pix := t.pix, idx := t.idx, xpos := s.advance.xpos, ypos := s.advance.ypos }

/-- 42_quantize.md R140: one `QSTEP` writes the nearest code of the pixel at the scan position and advances; `PIX` is not
written. -/
def Obligations.SimpleStepClassifiesOnePixel : Prop :=
  ∀ (s t : State) (f : Variant) (i : Nat), i = s.ypos.toNat * s.W + s.xpos.toNat → qstep Config.hw f s = .ok t →
    ∃ (v : Pixel) (k : Code), s.pix.read i = some v ∧ nearest Config.hw v f = .ok k ∧ t.idx.read i = some k ∧
      (∀ j, j ≠ i → t.idx.read j = s.idx.read j) ∧
      t = { s with idx := t.idx, xpos := s.advance.xpos, ypos := s.advance.ypos }

/-- 41_dither.md R121: once the checks pass, `QUANT` is exactly `W * H` micro-operations from (0, 0), `DSTEP` or `QSTEP` as
`CFG.DITHER` selects; the loop guard never ends it early. -/
def Obligations.QuantRunsOneMicroOperationPerPixel : Prop :=
  ∀ (s : State) (f : Variant), s.Selects f → s.DimsOk Config.hw →
    exec .quant s = finish
      (repeatMicro (if s.dither then dstep Config.hw f else qstep Config.hw f) (s.W * s.H)
        { s with xpos := 0#16, ypos := 0#16 })

/-- 42_quantize.md R141: over a loaded grid the Simple Quantizer gives every element its nearest code; `PIX` and everything
else stay. It is the completion statement of `QUANT` with `CFG.DITHER = 0`. -/
def Obligations.QuantWithoutDitheringClassifiesEveryPixel : Prop :=
  ∀ (s : State) (f : Variant), s.Selects f → s.DimsOk Config.hw → s.dither = false → s.GridLoaded →
    ∃ x : Memory Code, exec .quant s = .next { s with xpos := 0#16, ypos := s.height, idx := x } ∧
      (∀ i, i < s.W * s.H → ∃ v k, s.pix.read i = some v ∧ nearest Config.hw v f = .ok k ∧ x.read i = some k) ∧
      ∀ i, s.W * s.H ≤ i → x.read i = s.idx.read i

/-- 41_dither.md R121 and R125 with 00_scope.md R12: over a loaded grid a dithering `QUANT` completes (no result leaves
`Q`), ends at (0, H), writes a palette code for every pixel, which is the nearest code of the pixel's final value, and
touches nothing beyond the grid and no other register. It is the completion statement of `QUANT` with `CFG.DITHER = 1`. -/
def Obligations.QuantWithDitheringCompletes : Prop :=
  ∀ (s : State) (f : Variant), s.Selects f → s.DimsOk Config.hw → s.dither = true → s.GridLoaded →
    ∃ (q : Memory Pixel) (x : Memory Code),
      exec .quant s = .next { s with xpos := 0#16, ypos := s.height, pix := q, idx := x } ∧
      (∀ i, i < s.W * s.H → ∃ v k, q.read i = some v ∧ nearest Config.hw v f = .ok k ∧ x.read i = some k ∧
        k.toNat < (Config.hw.palette f).size) ∧
      q.read 0 = s.pix.read 0 ∧
      ∀ i, s.W * s.H ≤ i → x.read i = s.idx.read i ∧ q.read i = s.pix.read i

/-- 41_dither.md R126: on a grid of exact palette colours the two quantisers give the same Index Grid and leave `PIX` as it
is; a solid-black grid gives the all-zero Index Grid. -/
def Obligations.ExactColoursQuantiseTheSameWithAndWithoutDithering : Prop :=
  ∀ (s : State) (f : Variant), s.Inv Config.hw → s.Selects f → s.DimsOk Config.hw → s.GridExact Config.hw f →
    ∃ x : Memory Code,
      exec .quant { s with dither := true } =
          .next { s with dither := true, xpos := 0#16, ypos := s.height, idx := x } ∧
        exec .quant { s with dither := false } =
          .next { s with dither := false, xpos := 0#16, ypos := s.height, idx := x } ∧
        (∀ i, i < s.W * s.H → ∃ k p, x.read i = some k ∧ (Config.hw.palette f).entries[k.toNat]? = some p ∧
          s.pix.read i = some (entryPixel p)) ∧
        ((∀ i, i < s.W * s.H → s.pix.read i = some ⟨0, 0, 0⟩) → ∀ i, i < s.W * s.H → x.read i = some 0#2)

/-- 41_dither.md R126, its first sentence, for one `DSTEP`: a zero error changes no neighbour in any bit. -/
def Obligations.ZeroErrorLeavesThePixelGrid : Prop :=
  ∀ (s t : State) (f : Variant) (p : PaletteEntry), s.pix.wf 40000 →
    (∀ i v, s.pix.read i = some v → v.InCarrier .binary64) →
    p ∈ (Config.hw.palette f).entries → s.pix.read (s.ypos.toNat * s.W + s.xpos.toNat) = some (entryPixel p) →
    dstep Config.hw f s = .ok t → t.pix = s.pix

/-- 41_dither.md R128: after a `QUANT` or `CONVERT` that passed its checks, every code of the grid is a palette code. -/
def Obligations.OnlyPaletteCodesAreEmitted : Prop :=
  ∀ (s t : State) (f : Variant), s.Selects f → s.DimsOk Config.hw →
    (exec .quant s = .next t ∨ (s.W % 4 = 0 ∧ exec .convert s = .next t)) →
    ∀ i, i < s.W * s.H → ∃ k, t.idx.read i = some k ∧ k.toNat < (Config.hw.palette f).size

/-! ### The Bit Packer and the whole conversion -/

/-- 30_encoding.md R86 with its example: the packed byte, first pixel in the top bits. -/
def Obligations.PackedByteLayout : Prop :=
  (∀ k0 k1 k2 k3 : Code,
      (packByte k0 k1 k2 k3).toNat = 64 * k0.toNat + 16 * k1.toNat + 4 * k2.toNat + k3.toNat) ∧
    packByte 0#2 1#2 2#2 3#2 = 0x1B#8

/-- 43_pack.md R150 and R151: `PACK` over a grid whose codes are written. The bytes of the grid are packed, `OPTR` counts
them, everything else stays; bad dimensions raise before anything is written. It is the completion statement of
`PACK`. -/
def Obligations.PackWritesTheGridsBytes : Prop :=
  (∀ s : State, s.DimsOk Config.hw → s.W % 4 = 0 → s.CodesWritten →
      ∃ o : Memory Byte, exec .pack s = .next { s with optr := BitVec.ofNat 32 (s.W * s.H / 4), out := o } ∧
        (∀ j, j < s.W * s.H / 4 → ∃ k0 k1 k2 k3 : Code,
          s.idx.read (4 * j) = some k0 ∧ s.idx.read (4 * j + 1) = some k1 ∧ s.idx.read (4 * j + 2) = some k2 ∧
            s.idx.read (4 * j + 3) = some k3 ∧
            o.read j = some (BitVec.ofNat 8 (64 * k0.toNat + 16 * k1.toNat + 4 * k2.toNat + k3.toNat))) ∧
        ∀ j, s.W * s.H / 4 ≤ j → o.read j = s.out.read j) ∧
    ∀ s : State, (s.W = 0 ∨ s.H = 0 ∨ 40000 < s.W * s.H ∨ s.W % 4 ≠ 0) →
      exec .pack s = .next { s with err := 2#3, errInfo := BitVec.ofNat 32 (s.H * 65536 + s.W) }

/-- 43_pack.md R153: unpacking the output in declared bit order gives back the Index Grid. -/
def Obligations.PackThenUnpackIsTheIndexGrid : Prop :=
  ∀ s t : State, s.DimsOk Config.hw → s.W % 4 = 0 → exec .pack s = .next t →
    ∀ j n, j < s.W * s.H / 4 → n < 4 →
      ∃ b k, t.out.read j = some b ∧ t.idx.read (4 * j + n) = some k ∧ k.toNat = b.toNat / 4 ^ (3 - n) % 4 ∧ unpack b n = k

/-- 43_pack.md R150, "Does not read `CFG`": `PACK` does the same under every configuration word and leaves it. -/
def Obligations.PackDoesNotReadCfg : Prop :=
  ∀ (s t : State) (d : Bool) (f : BitVec 2), exec .pack s = .next t →
    exec .pack { s with dither := d, format := f } = .next { t with dither := d, format := f }

/-- 43_pack.md R154: once `CONVERT`'s checks pass it is `QUANT` followed by `PACK`. -/
def Obligations.ConvertIsQuantThenPack : Prop :=
  ∀ s t : State, s.FormatOk → s.DimsOk Config.hw → s.W % 4 = 0 → exec .quant s = .next t →
    exec .convert s = exec .pack t

/-- 43_pack.md R154 as a result: over a loaded grid `CONVERT` completes, the Index Grid holds palette codes, `OUT` holds
their bytes, and nothing else changes (`PIX` neither, without dithering). It is the completion statement of
`CONVERT`. -/
def Obligations.ConvertCompletes : Prop :=
  ∀ (s : State) (f : Variant), s.Selects f → s.DimsOk Config.hw → s.W % 4 = 0 → s.GridLoaded →
    ∃ (q : Memory Pixel) (x : Memory Code) (o : Memory Byte),
      exec .convert s = .next
          { s with xpos := 0#16, ypos := s.height, optr := BitVec.ofNat 32 (s.W * s.H / 4), pix := q, idx := x, out := o } ∧
        (s.dither = false → q = s.pix) ∧
        (∀ i, i < s.W * s.H → ∃ k, x.read i = some k ∧ k.toNat < (Config.hw.palette f).size) ∧
        (∀ j, j < s.W * s.H / 4 → ∃ k0 k1 k2 k3 : Code,
          x.read (4 * j) = some k0 ∧ x.read (4 * j + 1) = some k1 ∧ x.read (4 * j + 2) = some k2 ∧
            x.read (4 * j + 3) = some k3 ∧
            o.read j = some (BitVec.ofNat 8 (64 * k0.toNat + 16 * k1.toNat + 4 * k2.toNat + k3.toNat))) ∧
        (∀ i, s.W * s.H ≤ i → x.read i = s.idx.read i ∧ q.read i = s.pix.read i) ∧
        ∀ j, s.W * s.H / 4 ≤ j → o.read j = s.out.read j

/-- The model's choice (assumption 2; 10_state.md R37 and 70_reset_and_hazards.md R222 ask for it): a run command that
needs the first element of a grid nothing has written stops under its own name, and names the element. -/
def Obligations.RunOverUnwrittenGridStops : Prop :=
  (∀ s : State, s.FormatOk → s.DimsOk Config.hw → s.pix.read 0 = none → exec .quant s = .fault (.unwrittenPix 0)) ∧
    (∀ s : State, s.FormatOk → s.DimsOk Config.hw → s.W % 4 = 0 → s.pix.read 0 = none →
      exec .convert s = .fault (.unwrittenPix 0)) ∧
    ∀ s : State, s.DimsOk Config.hw → s.W % 4 = 0 → s.idx.read 0 = none → exec .pack s = .fault (.unwrittenIdx 0)

/-- The model's choice (assumption 2), for every element: a run command that has an element of its grid to read which nothing
has written never answers a next state. -/
def Obligations.NoRunCompletesOverAnUnwrittenElement : Prop :=
  ∀ (s t : State) (i : Nat), i < s.W * s.H →
    (s.FormatOk → s.DimsOk Config.hw → s.pix.read i = none → exec .quant s ≠ .next t) ∧
      (s.FormatOk → s.DimsOk Config.hw → s.W % 4 = 0 → s.pix.read i = none → exec .convert s ≠ .next t) ∧
      (s.DimsOk Config.hw → s.W % 4 = 0 → s.idx.read i = none → exec .pack s ≠ .next t)

/-! ### Frames of the commands and rules of the whole machine -/

/-- The registers each command leaves alone: no command but `RESET` writes `CFG`, `WIDTH`, `HEIGHT`, `CR`, `CG`, `CB`
(10_state.md R21, R22, R23, R27); `RESULT` is written by `CLASSIFY` only (R31); `XPOS` and `YPOS` by `QUANT` and `CONVERT`
only (R28); `OPTR` by `PACK` and `CONVERT` only (R29). The host's lists are no command's business. -/
def Obligations.RegistersEachCommandLeavesAlone : Prop :=
  ∀ (i : Instr) (s t : State), i ≠ .reset → exec i s = .next t →
    (t.dither = s.dither ∧ t.format = s.format ∧ t.width = s.width ∧ t.height = s.height) ∧
      (t.cr = s.cr ∧ t.cg = s.cg ∧ t.cb = s.cb) ∧
      (i ≠ .classify → t.result = s.result) ∧
      (i = .classify ∨ i = .pack → t.xpos = s.xpos ∧ t.ypos = s.ypos) ∧
      (i = .classify ∨ i = .quant → t.optr = s.optr) ∧
      t.inbox = s.inbox ∧ t.replies = s.replies

/-- The memories each command leaves alone (41_dither.md R121, 43_pack.md R150, 70_reset_and_hazards.md R225): every
element and byte outside the command's own grid, all of `PIX` without dithering, all of `OUT` for `QUANT`, all of `PIX` and
`IDX` for `PACK`, everything for `CLASSIFY` and `RESET`. -/
def Obligations.ElementsEachCommandLeavesAlone : Prop :=
  ∀ s t : State,
    (exec .reset s = .next t ∨ exec .classify s = .next t → t.pix = s.pix ∧ t.idx = s.idx ∧ t.out = s.out) ∧
      (exec .quant s = .next t → t.out = s.out ∧ (s.dither = false → t.pix = s.pix) ∧
        ∀ i, s.W * s.H ≤ i → t.pix.read i = s.pix.read i ∧ t.idx.read i = s.idx.read i) ∧
      (exec .pack s = .next t → t.pix = s.pix ∧ t.idx = s.idx ∧
        ∀ j, s.W * s.H / 4 ≤ j → t.out.read j = s.out.read j) ∧
      (exec .convert s = .next t → (s.dither = false → t.pix = s.pix) ∧
        (∀ i, s.W * s.H ≤ i → t.pix.read i = s.pix.read i ∧ t.idx.read i = s.idx.read i) ∧
        ∀ j, s.W * s.H / 4 ≤ j → t.out.read j = s.out.read j)

/-- The reset state meets the invariant. -/
def Obligations.ResetStateMeetsTheInvariant : Prop := State.reset.Inv Config.hw

/-- Every step keeps the invariant, from every state that meets it: the memories stay canonical and within their
capacity (20_memory.md R61), every stored channel is a value of `Q` (10_state.md R32, 00_scope.md R12), `STATUS.ERR` is a
legal code and `ERRINFO` is 0 without a fault (R25, R26), the host never sees a scan in progress (R28), and `OPTR` stays
within the buffer (R29). -/
def Obligations.EveryStepKeepsTheInvariant : Prop :=
  ∀ s t : State, s.Inv Config.hw → step s = .next t → t.Inv Config.hw

/-- 20_memory.md R67: accesses are taken one at a time in the order the host issues them; a step that goes on has taken
the oldest one and no other, and with none pending the block does nothing. -/
def Obligations.AccessesAreTakenInOrder : Prop :=
  (∀ s : State, s.inbox = [] → step s = .next s) ∧
    ∀ (s t : State) (op : BusOp) (rest : List BusOp), s.Pending op rest → step s = .next t → t.inbox = rest

/-! ### The host around the block (44_host_formats.md) -/

/-- 30_encoding.md R87: the host's configuration word, written to `CFG`, sets `DITHER` and selects the format. -/
def Obligations.ConfigurationWordSelects : Prop :=
  ∀ (s : State) (d : Bool) (f : Variant) (rest : List BusOp), s.Pending (hostWr 0#24 (cfgWordOf d f)) rest →
    step s = .next { s with inbox := rest, dither := d, format := formatSelector f } ∧
      State.Selects { s with inbox := rest, dither := d, format := formatSelector f } f

/-- 44_host_formats.md R170: the "4EI1" file of a state that has packed its grid without a fault. -/
def Obligations.RawFileLayout : Prop :=
  (∀ s : State, s.err = 0#3 → s.optr.toNat = s.W * s.H / 4 → (∀ j, j < s.W * s.H / 4 → ∃ b, s.out.read j = some b) →
      ∃ file : List Byte, s.rawFile = some file ∧ file.length = 8 + s.W * s.H / 4 ∧
        file.take 4 = [0x34#8, 0x45#8, 0x49#8, 0x31#8] ∧
        file[4]? = some (BitVec.ofNat 8 (s.W % 256)) ∧ file[5]? = some (BitVec.ofNat 8 (s.W / 256)) ∧
        file[6]? = some (BitVec.ofNat 8 (s.H % 256)) ∧ file[7]? = some (BitVec.ofNat 8 (s.H / 256)) ∧
        ∀ j, j < s.W * s.H / 4 → file[8 + j]? = s.out.read j) ∧
    rawHeader 200#16 200#16 = [0x34#8, 0x45#8, 0x49#8, 0x31#8, 0xC8#8, 0x00#8, 0xC8#8, 0x00#8]

/-- 44_host_formats.md R172: the indexed format has a colour table of 256 entries, the palette first, then black, and one
byte per pixel in row-major order, the raw index code. The host reads the Index Grid by `IdxRead` of 0 to `W * H - 1` after
a `QUANT` without a fault; while a fault stands there is nothing to encode. -/
def Obligations.IndexedFormatTableAndBytes : Prop :=
  (∀ c : Config, c.wf = true → ∀ f : Variant, (colorTable c f).length = 256 ∧
      (∀ (k : Nat) (p : PaletteEntry), (c.palette f).entries[k]? = some p → (colorTable c f)[k]? = some (p.r, p.g, p.b)) ∧
      ∀ k, (c.palette f).size ≤ k → k < 256 → (colorTable c f)[k]? = some (0, 0, 0)) ∧
    (∀ (c : Config) (f : Variant) (codes : List Code), (indexedImage c f codes).colors = colorTable c f ∧
      (indexedImage c f codes).bytes.length = codes.length ∧
      ∀ (i : Nat) (k : Code), codes[i]? = some k → (indexedImage c f codes).bytes[i]? = some (BitVec.ofNat 8 k.toNat)) ∧
    (∀ (c : Config) (f : Variant) (s : State), s.err = 0#3 → s.CodesWritten →
      ∃ codes : List Code, s.indexedImage c f = some (indexedImage c f codes) ∧ codes.length = s.W * s.H ∧
        ∀ i, i < s.W * s.H → codes[i]? = s.idx.read i) ∧
    (∀ s : State, s.err = 0#3 → s.W * s.H ≤ 40000 → ∃ reads : List BusOp, s.indexFetchScript = .ok reads ∧
      reads.length = s.W * s.H ∧ ∀ i, i < s.W * s.H → reads[i]? = some (busEncode (.idxRead (BitVec.ofNat 24 i)))) ∧
    ∀ (c : Config) (f : Variant) (s : State), s.err ≠ 0#3 →
      s.indexedImage c f = none ∧ s.indexFetchScript = .error .conversionFaulted

/-- 44_host_formats.md R175: the stripe pattern, for heights from the number of bands on: every pixel of row `y` has code
`min(y div h, n - 1)` with `h = H div n`. The clause that there is no pattern below that height is the model's choice
(assumption 9): the rule's formula needs `H >= n`, and 93_implementation_defined.md U8 only asks a host model to refuse. -/
def Obligations.StripePatternBands : Prop :=
  (∀ (f : Variant) (w h : Nat), (Config.hw.palette f).size ≤ h →
      ∃ l : List Code, stripes Config.hw f w h = some l ∧ l.length = w * h ∧
        ∀ x y, x < w → y < h → l[y * w + x]? = some (BitVec.ofNat 2
          (min (y / (h / (Config.hw.palette f).size)) ((Config.hw.palette f).size - 1)))) ∧
    (∀ (f : Variant) (w h : Nat), h < (Config.hw.palette f).size → stripes Config.hw f w h = none) ∧
    (∀ y, y < 200 → stripeCode 4 200 y = y / 50 ∧ stripeCode 3 200 y = if y < 66 then 0 else if y < 132 then 1 else 2)

/-- 44_host_formats.md R174 and 30_encoding.md R87: a configuration is one write of `CFG`, `DITHER` + 2 * `FORMAT`, with
"bwry" 0 and "bwr" 1 and the defaults true and "bwry". An unrecognised format string is reported by the host before any
access, or written as selector 2 or 3, and then the block raises `InvalidPaletteFormat` at the next command that uses the
palette. -/
def Obligations.ConfigurationSelectsOrIsReported : Prop :=
  (∀ (course : FormatCourse) (d : Bool),
      HostConfig.script course ⟨d, "bwry"⟩ = .ok [.write 0x0000000#28 (BitVec.ofNat 32 (d.toNat + 2 * 0))] ∧
      HostConfig.script course ⟨d, "bwr"⟩ = .ok [.write 0x0000000#28 (BitVec.ofNat 32 (d.toNat + 2 * 1))] ∧
      HostConfig.script course {} = HostConfig.script course ⟨true, "bwry"⟩) ∧
    ∀ (cfg : HostConfig), cfg.format ≠ "bwry" → cfg.format ≠ "bwr" →
      cfg.script .report = .error (.reported .invalidPaletteFormat) ∧
        ∀ (course : FormatCourse) (f : BitVec 2), (course = .passTwo ∧ f = 2#2) ∨ (course = .passThree ∧ f = 3#2) →
          ∃ op : BusOp, cfg.script course = .ok [op] ∧
            ∀ (s : State) (rest : List BusOp), s.Pending op rest →
              ∃ t : State, step s = .next t ∧ t = { s with inbox := rest, dither := cfg.dither, format := f } ∧
                ∀ i : Instr, i = .classify ∨ i = .quant ∨ i = .convert →
                  exec i t = .next { t with err := 1#3, errInfo := BitVec.ofNat 32 f.toNat }

/-- 44_host_formats.md R171: what the host does to produce a "4EI1" file. It resets the block or knows its state; writes
`CFG`, `WIDTH`, `HEIGHT`; loads exactly `W * H` pixels in row-major order, pixel `i` at element `i`; issues `CONVERT`, or
`QUANT` then `PACK`; reads `STATUS`; without a fault it reads the `OPTR` output bytes, and with one it writes no file. That
a grid of another size, or one beyond the 24-bit element index, gives no script is the model's choice (assumption 9). -/
def Obligations.ConversionScriptLoadsRunsAndFetches : Prop :=
  (∀ (start : Start) (course : FormatCourse) (cfg : HostConfig) (configure : List BusOp) (w h : BitVec 16)
      (pixels : List (Byte × Byte × Byte)) (run : Run), cfg.script course = .ok configure →
      (pixels.length = w.toNat * h.toNat → pixels.length ≤ 2 ^ 24 → ∃ load : List BusOp,
        conversionScript start course cfg w h pixels run = .ok
          (start.script ++ configure ++ [hostWr 1#24 (w.setWidth 32), hostWr 2#24 (h.setWidth 32)] ++ load ++
            run.commands.map hostCmd ++ [hostRd 4#24]) ∧
        load.length = w.toNat * h.toNat ∧
        ∀ (i : Nat) (r g b : Byte), pixels[i]? = some (r, g, b) →
          load[i]? = some (busEncode (.pixWrite (BitVec.ofNat 24 i)
            (BitVec.ofNat 32 (65536 * r.toNat + 256 * g.toNat + b.toNat))))) ∧
      (pixels.length ≠ w.toNat * h.toNat →
        conversionScript start course cfg w h pixels run = .error .wrongPixelCount) ∧
      (pixels.length = w.toNat * h.toNat → 2 ^ 24 < pixels.length →
        conversionScript start course cfg w h pixels run = .error .beyondThePort)) ∧
    (Start.reset.script = [.write cmdAddr 1#32] ∧ Start.known.script = [] ∧
      Run.convert.commands.map hostCmd = [.write cmdAddr 5#32] ∧
      Run.quantThenPack.commands.map hostCmd = [.write cmdAddr 3#32, .write cmdAddr 4#32] ∧
      hostRd 4#24 = busEncode (.regRead 4#24)) ∧
    (∀ s : State, s.err = 0#3 → s.optr.toNat ≤ 10000 → ∃ reads : List BusOp, s.fetchScript = .ok reads ∧
      reads.length = s.optr.toNat ∧
      ∀ j, j < s.optr.toNat → reads[j]? = some (busEncode (.outRead (BitVec.ofNat 24 j)))) ∧
    ∀ s : State, s.err ≠ 0#3 → s.fetchScript = .error .conversionFaulted ∧ s.rawFile = none
end

