-- ==== Sys2Proof/Laws/Arith.lean ====
section
/-! SUPPORT. The laws of the number format: the model's powers of two, magnitude and logarithm are the mathematical ones,
and one inversion lemma for the single rounding every primitive makes. -/

namespace Sys2Proof.Machine

/-- `pow2` is the power of two. -/
theorem pow2_eq_zpow (k : Int) : pow2 k = (2 : ℚ) ^ k := by
  cases k with
  | ofNat n => simp [pow2, Rat.mkRat_eq_div]
  | negSucc n => simp [pow2, Rat.mkRat_eq_div, zpow_negSucc]

theorem pow2_pos (k : Int) : 0 < pow2 k := by rw [pow2_eq_zpow]; positivity

theorem pow2_add (a b : Int) : pow2 (a + b) = pow2 a * pow2 b := by
  simp only [pow2_eq_zpow]; exact zpow_add₀ two_ne_zero a b

theorem pow2_le_pow2 {a b : Int} (h : a ≤ b) : pow2 a ≤ pow2 b := by
  simp only [pow2_eq_zpow]; exact zpow_le_zpow_right₀ one_le_two h

theorem pow2_lt_pow2 {a b : Int} (h : a < b) : pow2 a < pow2 b := by
  simp only [pow2_eq_zpow]; exact zpow_lt_zpow_right₀ one_lt_two h

/-- `absQ` is the absolute value. -/
theorem absQ_eq_abs (q : ℚ) : absQ q = |q| := by
  unfold absQ
  split
  · next h => exact (abs_of_neg h).symm
  · next h => exact (abs_of_nonneg (not_lt.1 h)).symm

/-- `floorLog2 q` is the exponent of the binade of `q ≠ 0` (00_scope.md R9). -/
theorem floorLog2_spec {q : ℚ} (hq : q ≠ 0) : pow2 (floorLog2 q) ≤ |q| ∧ |q| < pow2 (floorLog2 q + 1) := by
  have hn0 : q.num.natAbs ≠ 0 := by simpa using hq
  have hd0 : q.den ≠ 0 := q.den_nz
  have hnl : (2 : ℚ) ^ (Nat.log2 q.num.natAbs : ℤ) ≤ q.num.natAbs := by
    exact_mod_cast Nat.log2_self_le hn0
  have hnu : (q.num.natAbs : ℚ) < 2 ^ ((Nat.log2 q.num.natAbs : ℤ) + 1) := by
    exact_mod_cast @Nat.lt_log2_self q.num.natAbs
  have hdl : (2 : ℚ) ^ (Nat.log2 q.den : ℤ) ≤ q.den := by exact_mod_cast Nat.log2_self_le hd0
  have hdu : (q.den : ℚ) < 2 ^ ((Nat.log2 q.den : ℤ) + 1) := by exact_mod_cast @Nat.lt_log2_self q.den
  have hdpos : (0 : ℚ) < q.den := by exact_mod_cast Nat.pos_of_ne_zero hd0
  have habs : |q| = (q.num.natAbs : ℚ) / q.den := by
    conv_lhs => rw [← Rat.num_div_den q]
    rw [abs_div, Nat.abs_cast, Nat.cast_natAbs, Int.cast_abs]
  have hup : |q| < (2 : ℚ) ^ ((Nat.log2 q.num.natAbs : ℤ) - Nat.log2 q.den + 1) := by
    rw [habs, div_lt_iff₀ hdpos]
    calc (q.num.natAbs : ℚ) < 2 ^ ((Nat.log2 q.num.natAbs : ℤ) + 1) := hnu
      _ = 2 ^ ((Nat.log2 q.num.natAbs : ℤ) - Nat.log2 q.den + 1) * 2 ^ (Nat.log2 q.den : ℤ) := by
        rw [← zpow_add₀ two_ne_zero]; congr 1; ring
      _ ≤ _ := by gcongr
  have hlo : (2 : ℚ) ^ ((Nat.log2 q.num.natAbs : ℤ) - Nat.log2 q.den - 1) ≤ |q| := by
    rw [habs, le_div_iff₀ hdpos]
    calc (2 : ℚ) ^ ((Nat.log2 q.num.natAbs : ℤ) - Nat.log2 q.den - 1) * q.den
        ≤ 2 ^ ((Nat.log2 q.num.natAbs : ℤ) - Nat.log2 q.den - 1) * 2 ^ ((Nat.log2 q.den : ℤ) + 1) := by gcongr
      _ = 2 ^ (Nat.log2 q.num.natAbs : ℤ) := by rw [← zpow_add₀ two_ne_zero]; congr 1; ring
      _ ≤ _ := hnl
  unfold floorLog2
  simp only [pow2_eq_zpow, absQ_eq_abs]
  split
  · next h => exact ⟨h, hup⟩
  · next h => exact ⟨hlo, by simpa using not_le.1 h⟩

/-- The binade of a rational is unique. -/
theorem floorLog2_unique {q : ℚ} {l : ℤ} (h1 : pow2 l ≤ |q|) (h2 : |q| < pow2 (l + 1)) : floorLog2 q = l := by
  have hq : q ≠ 0 := by rintro rfl; exact absurd h1 (not_le.2 (by simpa using pow2_pos l))
  obtain ⟨h3, h4⟩ := floorLog2_spec hq
  have a : l < floorLog2 q + 1 := by
    by_contra h; exact absurd (lt_of_lt_of_le h4 (pow2_le_pow2 (not_lt.1 h))) (not_lt.2 h1)
  have b : floorLog2 q < l + 1 := by
    by_contra h; exact absurd (lt_of_lt_of_le h2 (pow2_le_pow2 (not_lt.1 h))) (not_lt.2 h3)
  omega

theorem unitOf_pos (q : ℚ) : 0 < unitOf q := pow2_pos _

@[simp] theorem rnd_zero : rnd 0 = 0 := by simp [rnd]

theorem rnd_of_ne_zero {q : ℚ} (hq : q ≠ 0) : rnd q = unitOf q * (rne (q / unitOf q) : ℚ) := by simp [rnd, hq]

/-- `rne` is within one half of its argument, and even when it is exactly one half away (00_scope.md R9). -/
theorem rne_spec (t : ℚ) : |t - (rne t : ℚ)| ≤ 1 / 2 ∧ (|t - (rne t : ℚ)| = 1 / 2 → Even (rne t)) := by
  have hf : t.floor = ⌊t⌋ := rfl
  have h0 : (0 : ℚ) ≤ t - (t.floor : ℚ) := by rw [hf]; exact sub_nonneg.2 (Int.floor_le t)
  have h1 : t - (t.floor : ℚ) < 1 := by rw [hf]; have := Int.lt_floor_add_one t; linarith
  have hhalf : mkRat 1 2 = (1 : ℚ) / 2 := by norm_num [Rat.mkRat_eq_div]
  unfold rne
  simp only [hhalf]
  split
  · next h => rw [abs_of_nonneg h0]; exact ⟨h.le, fun e => absurd e h.ne⟩
  · split
    · next h =>
      push_cast
      rw [show t - ((t.floor : ℚ) + 1) = -(1 - (t - t.floor)) by ring, abs_neg, abs_of_pos (by linarith)]
      exact ⟨by linarith, fun e => absurd e (by linarith)⟩
    · next h2 h3 =>
      have e : t - (t.floor : ℚ) = 1 / 2 := le_antisymm (not_lt.1 h3) (not_lt.1 h2)
      split
      · next hev => rw [e]; exact ⟨by norm_num [abs_of_pos], fun _ => Int.even_iff.2 hev⟩
      · next hev =>
        push_cast
        rw [show t - ((t.floor : ℚ) + 1) = -(1 / 2) by linarith]
        exact ⟨by norm_num [abs_of_pos], fun _ => by rw [Int.even_add_one, Int.not_even_iff_odd, Int.odd_iff]; omega⟩

/-- The nearest integer of the spec is unique. -/
theorem rne_unique {t : ℚ} {n : ℤ} (h : |t - n| ≤ 1 / 2) (he : |t - n| = 1 / 2 → Even n) : rne t = n := by
  obtain ⟨h1, h2⟩ := rne_spec t
  have hd : |((rne t - n : ℤ) : ℚ)| ≤ 1 := by
    push_cast
    calc |(rne t : ℚ) - n| = |(t - n) - (t - rne t)| := by congr 1; ring
      _ ≤ |t - n| + |t - rne t| := abs_sub _ _
      _ ≤ 1 := by linarith
  have hd' : |rne t - n| ≤ 1 := by exact_mod_cast hd
  have h3 : rne t - n = 0 ∨ rne t - n = 1 ∨ rne t - n = -1 := by have := abs_le.1 hd'; omega
  rcases h3 with e | e | e
  · omega
  · have hn : (rne t : ℚ) = n + 1 := by exact_mod_cast (by omega : rne t = n + 1)
    rw [hn] at h1 h2
    have a := abs_le.1 h; have b := abs_le.1 h1
    have ev : t - n = 1 / 2 := by linarith
    have e1 := he (by rw [ev]; norm_num [abs_of_pos])
    have e2 := h2 (by rw [show t - (n + 1 : ℚ) = -(1 / 2) by linarith]; norm_num [abs_of_pos])
    rw [show rne t = n + 1 by omega] at e2
    exact absurd e1 (Int.even_add_one.1 e2)
  · have hn : (rne t : ℚ) = n - 1 := by exact_mod_cast (by omega : rne t = n - 1)
    rw [hn] at h1 h2
    have a := abs_le.1 h; have b := abs_le.1 h1
    have ev : t - n = -(1 / 2) := by linarith
    have e1 := he (by rw [ev]; norm_num [abs_of_pos])
    have e2 := h2 (by rw [show t - (n - 1 : ℚ) = 1 / 2 by linarith]; norm_num [abs_of_pos])
    rw [show rne t = n - 1 by omega] at e2
    have := Int.even_sub_one.1 e2
    exact absurd e1 this

/-- The one rounding every primitive makes: what it answers, and when (00_scope.md R10, R12). -/
theorem roundTo_ok_iff {num : NumFormat} {q r : ℚ} :
    roundTo num q = .ok r ↔ overflowsIn num (roundIn num q) = false ∧ r = roundIn num q := by
  unfold roundTo
  split
  · next h => simp [h]
  · next h => simp only [Bool.not_eq_true] at h; simp [h, eq_comm]

/-- A primitive stops only because its result lies outside `Q` (00_scope.md R12). -/
theorem roundTo_error {num : NumFormat} {q : ℚ} {e : Stop} (h : roundTo num q = .error e) : e = .refuse .outsideQ := by
  unfold roundTo at h
  split at h
  · simpa using h.symm
  · simp at h

@[simp] theorem overflowsIn_binary64 (q : ℚ) : overflowsIn .binary64 q = false ↔ |q| < pow2 1024 := by
  simp [overflowsIn, absQ_eq_abs]

@[simp] theorem overflowsIn_exact (q : ℚ) : overflowsIn .exact q = false := rfl

@[simp] theorem roundIn_exact (q : ℚ) : roundIn .exact q = q := rfl

@[simp] theorem roundIn_binary64 (q : ℚ) : roundIn .binary64 q = rnd q := rfl

@[simp] theorem roundIn_zero (num : NumFormat) : roundIn num 0 = 0 := by cases num <;> simp

/-- Rounding zero gives zero, in every format. -/
@[simp] theorem roundTo_zero (num : NumFormat) : roundTo num 0 = .ok 0 := by
  rw [roundTo_ok_iff]; cases num <;> simp [pow2_pos]

end Sys2Proof.Machine
end

