-- ==== Sys2Proof/Laws/Config.lean ====
section
/-! SUPPORT. The parameter values of this hardware, field by field, and that they are legal (00_scope.md R6). -/

namespace Sys2Proof

@[simp] theorem hw_maxPix : Config.hw.maxPix = 40000 := rfl
@[simp] theorem hw_outSize : Config.hw.outSize = 10000 := rfl
@[simp] theorem hw_wReset : Config.hw.wReset = 200#16 := rfl
@[simp] theorem hw_hReset : Config.hw.hReset = 200#16 := rfl
@[simp] theorem hw_num : Config.hw.num = .binary64 := rfl
@[simp] theorem hw_codeBits : Config.hw.codeBits = 2 := rfl
@[simp] theorem hw_sampleBits : Config.hw.sampleBits = 8 := rfl
@[simp] theorem hw_dimBits : Config.hw.dimBits = 16 := rfl

/-- This hardware's parameters are a legal configuration. -/
theorem hw_wf : Config.hw.wf = true := by decide

end Sys2Proof
end

