-- ==== Sys2Proof/Laws/Memory.lean ====
section
/-! SUPPORT. The laws of a memory of elements: read after write, the canonical form, equality of canonical memories. -/

namespace Sys2Proof.Machine

variable {α : Type}

@[simp] theorem Memory.read_nil (i : Nat) : Memory.read ([] : Memory α) i = none := rfl

@[simp] theorem Memory.read_cons (k : Nat) (v : α) (m : Memory α) (i : Nat) :
    Memory.read ((k, v) :: m) i = if i = k then some v else Memory.read m i := rfl

/-- A read after a write to the same element gives the value written. -/
@[simp] theorem Memory.read_write_same (m : Memory α) (i : Nat) (v : α) : Memory.read (Memory.write m i v) i = some v := by
  induction m with
  | nil => simp [Memory.write]
  | cons p m ih =>
    obtain ⟨k, u⟩ := p
    simp only [Memory.write]
    split
    · simp
    · split
      · simp
      · next h => simp [h, ih]

/-- A write leaves every other element alone. -/
theorem Memory.read_write_other (m : Memory α) {i j : Nat} (v : α) (h : j ≠ i) :
    Memory.read (Memory.write m i v) j = Memory.read m j := by
  induction m with
  | nil => simp [Memory.write, h]
  | cons p m ih =>
    obtain ⟨k, u⟩ := p
    simp only [Memory.write]
    split
    · simp [h]
    · split
      · next e => subst e; simp [h]
      · simp [ih]

/-- What any element reads after a write. -/
theorem Memory.read_write (m : Memory α) (i j : Nat) (v : α) :
    Memory.read (Memory.write m i v) j = if j = i then some v else Memory.read m j := by
  split
  · next h => subst h; simp
  · next h => exact Memory.read_write_other m v h

/-- The keys of a memory after a write are its keys and the one written. -/
theorem Memory.mem_keys_write (m : Memory α) (i : Nat) (v : α) (k : Nat) :
    k ∈ (Memory.write m i v).map Prod.fst ↔ k = i ∨ k ∈ m.map Prod.fst := by
  induction m with
  | nil => simp [Memory.write]
  | cons p m ih =>
    obtain ⟨l, u⟩ := p
    simp only [Memory.write]
    split
    · simp
    · split
      · next e => subst e; simp
      · simp only [List.map_cons, List.mem_cons, ih]; tauto

/-- A write below the capacity keeps the canonical form. -/
theorem Memory.wf_write {cap : Nat} {m : Memory α} (h : m.wf cap) {i : Nat} (hi : i < cap) (v : α) :
    (m.write i v).wf cap := by
  obtain ⟨hs, hc⟩ := h
  refine ⟨?_, fun k hk => ?_⟩
  · clear hc
    induction m with
    | nil => simp [Memory.write]
    | cons p m ih =>
      obtain ⟨l, u⟩ := p
      simp only [List.map_cons, List.pairwise_cons] at hs
      simp only [Memory.write]
      split
      · next hlt =>
        simp only [List.map_cons, List.pairwise_cons, List.mem_cons, forall_eq_or_imp]
        exact ⟨⟨hlt, fun k hk => lt_trans hlt (hs.1 k hk)⟩, hs.1, hs.2⟩
      · split
        · next e => subst e; simpa using hs
        · simp only [List.map_cons, List.pairwise_cons]
          refine ⟨fun k hk => ?_, ih hs.2⟩
          rcases (Memory.mem_keys_write m i v k).1 hk with rfl | hk
          · omega
          · exact hs.1 k hk
  · rcases (Memory.mem_keys_write m i v k).1 hk with rfl | hk
    · exact hi
    · exact hc k hk

theorem Memory.wf_nil (cap : Nat) : Memory.wf cap ([] : Memory α) := by simp [Memory.wf]

/-- A listed element is a key. -/
theorem Memory.mem_keys_of_read {m : Memory α} {i : Nat} {v : α} (h : m.read i = some v) : i ∈ m.map Prod.fst := by
  induction m with
  | nil => simp at h
  | cons p m ih =>
    obtain ⟨k, u⟩ := p
    simp only [Memory.read_cons] at h
    split at h
    · next e => simp [e]
    · simp [ih h]

/-- An element of a canonical memory lies below the capacity. -/
theorem Memory.lt_of_read {cap : Nat} {m : Memory α} (h : m.wf cap) {i : Nat} {v : α} (hr : m.read i = some v) : i < cap :=
  h.2 i (Memory.mem_keys_of_read hr)

/-- An index below every key reads as never written. -/
theorem Memory.read_none_of_lt {m : Memory α} {i : Nat} (h : ∀ k ∈ m.map Prod.fst, i < k) : m.read i = none := by
  cases hr : m.read i with
  | none => rfl
  | some v => exact absurd (h i (Memory.mem_keys_of_read hr)) (lt_irrefl i)

/-- Two canonical memories with equal elements are the same list. -/
theorem Memory.ext_of_wf {cap cap' : Nat} {m n : Memory α} (hm : m.wf cap) (hn : n.wf cap')
    (h : ∀ i, m.read i = n.read i) : m = n := by
  replace hm := hm.1
  replace hn := hn.1
  induction m generalizing n with
  | nil =>
    cases n with
    | nil => rfl
    | cons p n => have := h p.1; obtain ⟨k, u⟩ := p; simp at this
  | cons p m ih =>
    obtain ⟨k, u⟩ := p
    cases n with
    | nil => have := h k; simp at this
    | cons q n =>
      obtain ⟨l, w⟩ := q
      simp only [List.map_cons, List.pairwise_cons] at hm hn
      have hkl : k = l := by
        rcases lt_trichotomy k l with hlt | heq | hlt
        · have h1 := h k
          rw [Memory.read_cons, if_pos rfl, Memory.read_cons, if_neg (by omega),
            Memory.read_none_of_lt fun j hj => lt_trans hlt (hn.1 j hj)] at h1
          simp at h1
        · exact heq
        · have h1 := h l
          rw [Memory.read_cons, if_neg (by omega), Memory.read_cons, if_pos rfl,
            Memory.read_none_of_lt fun j hj => lt_trans hlt (hm.1 j hj)] at h1
          simp at h1
      subst hkl
      have huw : u = w := by have := h k; simpa using this
      subst huw
      refine congrArg _ (ih (fun i => ?_) hm.2 hn.2)
      by_cases hi : i = k
      · subst hi
        rw [Memory.read_none_of_lt hm.1, Memory.read_none_of_lt hn.1]
      · have := h i; simpa [hi] using this

/-- Writing the value an element already holds changes nothing. -/
theorem Memory.write_read_self {cap : Nat} {m : Memory α} (hm : m.wf cap) {i : Nat} {v : α} (h : m.read i = some v) :
    m.write i v = m := by
  refine Memory.ext_of_wf (Memory.wf_write hm (Memory.lt_of_read hm h) v) hm fun j => ?_
  rw [Memory.read_write]
  split
  · next e => rw [e, h]
  · rfl

end Sys2Proof.Machine
end

