-- ==== Sys2Proof/Laws/State.lean ====
section
/-! SUPPORT. What each shared state update leaves in each field: one lemma per field per update, by `rfl`. -/

namespace Sys2Proof.Machine

/-! ### `raise E(info)` (60_exceptions.md R193) -/

@[simp] theorem raise_dither (k : ErrKind) (info : Word) (s : State) : (raise k info s).dither = s.dither := rfl
@[simp] theorem raise_format (k : ErrKind) (info : Word) (s : State) : (raise k info s).format = s.format := rfl
@[simp] theorem raise_width (k : ErrKind) (info : Word) (s : State) : (raise k info s).width = s.width := rfl
@[simp] theorem raise_height (k : ErrKind) (info : Word) (s : State) : (raise k info s).height = s.height := rfl
@[simp] theorem raise_err (k : ErrKind) (info : Word) (s : State) : (raise k info s).err = k.code := rfl
@[simp] theorem raise_errInfo (k : ErrKind) (info : Word) (s : State) : (raise k info s).errInfo = info := rfl
@[simp] theorem raise_xpos (k : ErrKind) (info : Word) (s : State) : (raise k info s).xpos = s.xpos := rfl
@[simp] theorem raise_ypos (k : ErrKind) (info : Word) (s : State) : (raise k info s).ypos = s.ypos := rfl
@[simp] theorem raise_optr (k : ErrKind) (info : Word) (s : State) : (raise k info s).optr = s.optr := rfl
@[simp] theorem raise_cr (k : ErrKind) (info : Word) (s : State) : (raise k info s).cr = s.cr := rfl
@[simp] theorem raise_cg (k : ErrKind) (info : Word) (s : State) : (raise k info s).cg = s.cg := rfl
@[simp] theorem raise_cb (k : ErrKind) (info : Word) (s : State) : (raise k info s).cb = s.cb := rfl
@[simp] theorem raise_result (k : ErrKind) (info : Word) (s : State) : (raise k info s).result = s.result := rfl
@[simp] theorem raise_pix (k : ErrKind) (info : Word) (s : State) : (raise k info s).pix = s.pix := rfl
@[simp] theorem raise_idx (k : ErrKind) (info : Word) (s : State) : (raise k info s).idx = s.idx := rfl
@[simp] theorem raise_out (k : ErrKind) (info : Word) (s : State) : (raise k info s).out = s.out := rfl
@[simp] theorem raise_inbox (k : ErrKind) (info : Word) (s : State) : (raise k info s).inbox = s.inbox := rfl
@[simp] theorem raise_replies (k : ErrKind) (info : Word) (s : State) : (raise k info s).replies = s.replies := rfl

/-! ### the body of `RESET` (60_exceptions.md R195) -/

@[simp] theorem resetRegisters_dither (c : Config) (s : State) : (resetRegisters c s).dither = true := rfl
@[simp] theorem resetRegisters_format (c : Config) (s : State) : (resetRegisters c s).format = 0#2 := rfl
@[simp] theorem resetRegisters_width (c : Config) (s : State) : (resetRegisters c s).width = c.wReset := rfl
@[simp] theorem resetRegisters_height (c : Config) (s : State) : (resetRegisters c s).height = c.hReset := rfl
@[simp] theorem resetRegisters_err (c : Config) (s : State) : (resetRegisters c s).err = 0#3 := rfl
@[simp] theorem resetRegisters_errInfo (c : Config) (s : State) : (resetRegisters c s).errInfo = 0#32 := rfl
@[simp] theorem resetRegisters_xpos (c : Config) (s : State) : (resetRegisters c s).xpos = 0#16 := rfl
@[simp] theorem resetRegisters_ypos (c : Config) (s : State) : (resetRegisters c s).ypos = 0#16 := rfl
@[simp] theorem resetRegisters_optr (c : Config) (s : State) : (resetRegisters c s).optr = 0#32 := rfl
@[simp] theorem resetRegisters_cr (c : Config) (s : State) : (resetRegisters c s).cr = 0#32 := rfl
@[simp] theorem resetRegisters_cg (c : Config) (s : State) : (resetRegisters c s).cg = 0#32 := rfl
@[simp] theorem resetRegisters_cb (c : Config) (s : State) : (resetRegisters c s).cb = 0#32 := rfl
@[simp] theorem resetRegisters_result (c : Config) (s : State) : (resetRegisters c s).result = 0#2 := rfl
@[simp] theorem resetRegisters_pix (c : Config) (s : State) : (resetRegisters c s).pix = s.pix := rfl
@[simp] theorem resetRegisters_idx (c : Config) (s : State) : (resetRegisters c s).idx = s.idx := rfl
@[simp] theorem resetRegisters_out (c : Config) (s : State) : (resetRegisters c s).out = s.out := rfl
@[simp] theorem resetRegisters_inbox (c : Config) (s : State) : (resetRegisters c s).inbox = s.inbox := rfl
@[simp] theorem resetRegisters_replies (c : Config) (s : State) : (resetRegisters c s).replies = s.replies := rfl

/-! ### `PIX[i] <- v` -/

@[simp] theorem writePix_dither (s : State) (i : Nat) (v : Pixel) : (s.writePix i v).dither = s.dither := rfl
@[simp] theorem writePix_format (s : State) (i : Nat) (v : Pixel) : (s.writePix i v).format = s.format := rfl
@[simp] theorem writePix_width (s : State) (i : Nat) (v : Pixel) : (s.writePix i v).width = s.width := rfl
@[simp] theorem writePix_height (s : State) (i : Nat) (v : Pixel) : (s.writePix i v).height = s.height := rfl
@[simp] theorem writePix_err (s : State) (i : Nat) (v : Pixel) : (s.writePix i v).err = s.err := rfl
@[simp] theorem writePix_errInfo (s : State) (i : Nat) (v : Pixel) : (s.writePix i v).errInfo = s.errInfo := rfl
@[simp] theorem writePix_xpos (s : State) (i : Nat) (v : Pixel) : (s.writePix i v).xpos = s.xpos := rfl
@[simp] theorem writePix_ypos (s : State) (i : Nat) (v : Pixel) : (s.writePix i v).ypos = s.ypos := rfl
@[simp] theorem writePix_optr (s : State) (i : Nat) (v : Pixel) : (s.writePix i v).optr = s.optr := rfl
@[simp] theorem writePix_cr (s : State) (i : Nat) (v : Pixel) : (s.writePix i v).cr = s.cr := rfl
@[simp] theorem writePix_cg (s : State) (i : Nat) (v : Pixel) : (s.writePix i v).cg = s.cg := rfl
@[simp] theorem writePix_cb (s : State) (i : Nat) (v : Pixel) : (s.writePix i v).cb = s.cb := rfl
@[simp] theorem writePix_result (s : State) (i : Nat) (v : Pixel) : (s.writePix i v).result = s.result := rfl
@[simp] theorem writePix_pix (s : State) (i : Nat) (v : Pixel) : (s.writePix i v).pix = s.pix.write i v := rfl
@[simp] theorem writePix_idx (s : State) (i : Nat) (v : Pixel) : (s.writePix i v).idx = s.idx := rfl
@[simp] theorem writePix_out (s : State) (i : Nat) (v : Pixel) : (s.writePix i v).out = s.out := rfl
@[simp] theorem writePix_inbox (s : State) (i : Nat) (v : Pixel) : (s.writePix i v).inbox = s.inbox := rfl
@[simp] theorem writePix_replies (s : State) (i : Nat) (v : Pixel) : (s.writePix i v).replies = s.replies := rfl

/-! ### `IDX[i] <- k` -/

@[simp] theorem writeIdx_dither (s : State) (i : Nat) (k : Code) : (s.writeIdx i k).dither = s.dither := rfl
@[simp] theorem writeIdx_format (s : State) (i : Nat) (k : Code) : (s.writeIdx i k).format = s.format := rfl
@[simp] theorem writeIdx_width (s : State) (i : Nat) (k : Code) : (s.writeIdx i k).width = s.width := rfl
@[simp] theorem writeIdx_height (s : State) (i : Nat) (k : Code) : (s.writeIdx i k).height = s.height := rfl
@[simp] theorem writeIdx_err (s : State) (i : Nat) (k : Code) : (s.writeIdx i k).err = s.err := rfl
@[simp] theorem writeIdx_errInfo (s : State) (i : Nat) (k : Code) : (s.writeIdx i k).errInfo = s.errInfo := rfl
@[simp] theorem writeIdx_xpos (s : State) (i : Nat) (k : Code) : (s.writeIdx i k).xpos = s.xpos := rfl
@[simp] theorem writeIdx_ypos (s : State) (i : Nat) (k : Code) : (s.writeIdx i k).ypos = s.ypos := rfl
@[simp] theorem writeIdx_optr (s : State) (i : Nat) (k : Code) : (s.writeIdx i k).optr = s.optr := rfl
@[simp] theorem writeIdx_cr (s : State) (i : Nat) (k : Code) : (s.writeIdx i k).cr = s.cr := rfl
@[simp] theorem writeIdx_cg (s : State) (i : Nat) (k : Code) : (s.writeIdx i k).cg = s.cg := rfl
@[simp] theorem writeIdx_cb (s : State) (i : Nat) (k : Code) : (s.writeIdx i k).cb = s.cb := rfl
@[simp] theorem writeIdx_result (s : State) (i : Nat) (k : Code) : (s.writeIdx i k).result = s.result := rfl
@[simp] theorem writeIdx_pix (s : State) (i : Nat) (k : Code) : (s.writeIdx i k).pix = s.pix := rfl
@[simp] theorem writeIdx_idx (s : State) (i : Nat) (k : Code) : (s.writeIdx i k).idx = s.idx.write i k := rfl
@[simp] theorem writeIdx_out (s : State) (i : Nat) (k : Code) : (s.writeIdx i k).out = s.out := rfl
@[simp] theorem writeIdx_inbox (s : State) (i : Nat) (k : Code) : (s.writeIdx i k).inbox = s.inbox := rfl
@[simp] theorem writeIdx_replies (s : State) (i : Nat) (k : Code) : (s.writeIdx i k).replies = s.replies := rfl

/-! ### `OUT[j] <- b` -/

@[simp] theorem writeOut_dither (s : State) (j : Nat) (b : Byte) : (s.writeOut j b).dither = s.dither := rfl
@[simp] theorem writeOut_format (s : State) (j : Nat) (b : Byte) : (s.writeOut j b).format = s.format := rfl
@[simp] theorem writeOut_width (s : State) (j : Nat) (b : Byte) : (s.writeOut j b).width = s.width := rfl
@[simp] theorem writeOut_height (s : State) (j : Nat) (b : Byte) : (s.writeOut j b).height = s.height := rfl
@[simp] theorem writeOut_err (s : State) (j : Nat) (b : Byte) : (s.writeOut j b).err = s.err := rfl
@[simp] theorem writeOut_errInfo (s : State) (j : Nat) (b : Byte) : (s.writeOut j b).errInfo = s.errInfo := rfl
@[simp] theorem writeOut_xpos (s : State) (j : Nat) (b : Byte) : (s.writeOut j b).xpos = s.xpos := rfl
@[simp] theorem writeOut_ypos (s : State) (j : Nat) (b : Byte) : (s.writeOut j b).ypos = s.ypos := rfl
@[simp] theorem writeOut_optr (s : State) (j : Nat) (b : Byte) : (s.writeOut j b).optr = s.optr := rfl
@[simp] theorem writeOut_cr (s : State) (j : Nat) (b : Byte) : (s.writeOut j b).cr = s.cr := rfl
@[simp] theorem writeOut_cg (s : State) (j : Nat) (b : Byte) : (s.writeOut j b).cg = s.cg := rfl
@[simp] theorem writeOut_cb (s : State) (j : Nat) (b : Byte) : (s.writeOut j b).cb = s.cb := rfl
@[simp] theorem writeOut_result (s : State) (j : Nat) (b : Byte) : (s.writeOut j b).result = s.result := rfl
@[simp] theorem writeOut_pix (s : State) (j : Nat) (b : Byte) : (s.writeOut j b).pix = s.pix := rfl
@[simp] theorem writeOut_idx (s : State) (j : Nat) (b : Byte) : (s.writeOut j b).idx = s.idx := rfl
@[simp] theorem writeOut_out (s : State) (j : Nat) (b : Byte) : (s.writeOut j b).out = s.out.write j b := rfl
@[simp] theorem writeOut_inbox (s : State) (j : Nat) (b : Byte) : (s.writeOut j b).inbox = s.inbox := rfl
@[simp] theorem writeOut_replies (s : State) (j : Nat) (b : Byte) : (s.writeOut j b).replies = s.replies := rfl

/-! ### the answer to a host read -/

@[simp] theorem reply_dither (v : Word) (s : State) : (reply v s).dither = s.dither := rfl
@[simp] theorem reply_format (v : Word) (s : State) : (reply v s).format = s.format := rfl
@[simp] theorem reply_width (v : Word) (s : State) : (reply v s).width = s.width := rfl
@[simp] theorem reply_height (v : Word) (s : State) : (reply v s).height = s.height := rfl
@[simp] theorem reply_err (v : Word) (s : State) : (reply v s).err = s.err := rfl
@[simp] theorem reply_errInfo (v : Word) (s : State) : (reply v s).errInfo = s.errInfo := rfl
@[simp] theorem reply_xpos (v : Word) (s : State) : (reply v s).xpos = s.xpos := rfl
@[simp] theorem reply_ypos (v : Word) (s : State) : (reply v s).ypos = s.ypos := rfl
@[simp] theorem reply_optr (v : Word) (s : State) : (reply v s).optr = s.optr := rfl
@[simp] theorem reply_cr (v : Word) (s : State) : (reply v s).cr = s.cr := rfl
@[simp] theorem reply_cg (v : Word) (s : State) : (reply v s).cg = s.cg := rfl
@[simp] theorem reply_cb (v : Word) (s : State) : (reply v s).cb = s.cb := rfl
@[simp] theorem reply_result (v : Word) (s : State) : (reply v s).result = s.result := rfl
@[simp] theorem reply_pix (v : Word) (s : State) : (reply v s).pix = s.pix := rfl
@[simp] theorem reply_idx (v : Word) (s : State) : (reply v s).idx = s.idx := rfl
@[simp] theorem reply_out (v : Word) (s : State) : (reply v s).out = s.out := rfl
@[simp] theorem reply_inbox (v : Word) (s : State) : (reply v s).inbox = s.inbox := rfl
@[simp] theorem reply_replies (v : Word) (s : State) : (reply v s).replies = v :: s.replies := rfl

/-! ### `ADVANCE` (41_dither.md R120) -/

@[simp] theorem advance_dither (s : State) : s.advance.dither = s.dither := by unfold State.advance; split <;> rfl
@[simp] theorem advance_format (s : State) : s.advance.format = s.format := by unfold State.advance; split <;> rfl
@[simp] theorem advance_width (s : State) : s.advance.width = s.width := by unfold State.advance; split <;> rfl
@[simp] theorem advance_height (s : State) : s.advance.height = s.height := by unfold State.advance; split <;> rfl
@[simp] theorem advance_err (s : State) : s.advance.err = s.err := by unfold State.advance; split <;> rfl
@[simp] theorem advance_errInfo (s : State) : s.advance.errInfo = s.errInfo := by unfold State.advance; split <;> rfl
@[simp] theorem advance_optr (s : State) : s.advance.optr = s.optr := by unfold State.advance; split <;> rfl
@[simp] theorem advance_cr (s : State) : s.advance.cr = s.cr := by unfold State.advance; split <;> rfl
@[simp] theorem advance_cg (s : State) : s.advance.cg = s.cg := by unfold State.advance; split <;> rfl
@[simp] theorem advance_cb (s : State) : s.advance.cb = s.cb := by unfold State.advance; split <;> rfl
@[simp] theorem advance_result (s : State) : s.advance.result = s.result := by unfold State.advance; split <;> rfl
@[simp] theorem advance_pix (s : State) : s.advance.pix = s.pix := by unfold State.advance; split <;> rfl
@[simp] theorem advance_idx (s : State) : s.advance.idx = s.idx := by unfold State.advance; split <;> rfl
@[simp] theorem advance_out (s : State) : s.advance.out = s.out := by unfold State.advance; split <;> rfl
@[simp] theorem advance_inbox (s : State) : s.advance.inbox = s.inbox := by unfold State.advance; split <;> rfl
@[simp] theorem advance_replies (s : State) : s.advance.replies = s.replies := by unfold State.advance; split <;> rfl

/-- At the end of a row the column goes back to 0. -/
theorem advance_xpos_end {s : State} (h : s.xpos.toNat + 1 = s.W) : s.advance.xpos = 0#16 := by simp [State.advance, h]

/-- At the end of a row the row steps by one. -/
theorem advance_ypos_end {s : State} (h : s.xpos.toNat + 1 = s.W) : s.advance.ypos = s.ypos + 1#16 := by
  simp [State.advance, h]

/-- Inside a row the column steps by one. -/
theorem advance_xpos_inner {s : State} (h : s.xpos.toNat + 1 ≠ s.W) : s.advance.xpos = s.xpos + 1#16 := by
  simp [State.advance, h]

/-- Inside a row the row stays. -/
theorem advance_ypos_inner {s : State} (h : s.xpos.toNat + 1 ≠ s.W) : s.advance.ypos = s.ypos := by
  simp [State.advance, h]

/-! ### The views of the dimensions -/

@[simp] theorem raise_W (k : ErrKind) (info : Word) (s : State) : (raise k info s).W = s.W := rfl
@[simp] theorem raise_H (k : ErrKind) (info : Word) (s : State) : (raise k info s).H = s.H := rfl
@[simp] theorem writePix_W (s : State) (i : Nat) (v : Pixel) : (s.writePix i v).W = s.W := rfl
@[simp] theorem writePix_H (s : State) (i : Nat) (v : Pixel) : (s.writePix i v).H = s.H := rfl
@[simp] theorem writeIdx_W (s : State) (i : Nat) (k : Code) : (s.writeIdx i k).W = s.W := rfl
@[simp] theorem writeIdx_H (s : State) (i : Nat) (k : Code) : (s.writeIdx i k).H = s.H := rfl
@[simp] theorem writeOut_W (s : State) (j : Nat) (b : Byte) : (s.writeOut j b).W = s.W := rfl
@[simp] theorem writeOut_H (s : State) (j : Nat) (b : Byte) : (s.writeOut j b).H = s.H := rfl
@[simp] theorem advance_W (s : State) : s.advance.W = s.W := by simp [State.W]
@[simp] theorem advance_H (s : State) : s.advance.H = s.H := by simp [State.H]

end Sys2Proof.Machine
end

