-- ==== Sys2Proof/Laws/Ops.lean ====
section
/-! SUPPORT. One spec lemma per shared operation: everything it can do when it answers a state. -/

namespace Sys2Proof.Machine

/-! ### The fields of a data word -/

theorem fieldOfWord_lt (width n : Nat) (v : Word) : fieldOfWord width n v < 2 ^ width := Nat.mod_lt _ (Nat.two_pow_pos _)

/-- The samples of a pixel word at this hardware's width (20_memory.md R56). -/
theorem pixelOfWord_hw (v : Word) : pixelOfWord Config.hw v =
    ⟨fromInt (v.toNat / 65536 % 256 : Nat), fromInt (v.toNat / 256 % 256 : Nat), fromInt (v.toNat % 256 : Nat)⟩ := by
  simp [pixelOfWord, fieldOfWord]

/-- The code of an index word at this hardware's width (20_memory.md R57). -/
theorem codeOfWord_hw (v : Word) : codeOfWord Config.hw v = BitVec.ofNat 2 v.toNat := by
  apply BitVec.eq_of_toNat_eq; simp [codeOfWord, fieldOfWord]

/-- The dimension a word carries at this hardware's width (10_state.md R22, R23). -/
theorem dimOfWord_hw (v : Word) : dimOfWord Config.hw v = BitVec.ofNat 16 v.toNat := by
  apply BitVec.eq_of_toNat_eq; simp [dimOfWord, fieldOfWord]

/-! ### Sequencing and the end of a command -/

/-- A sequence answers exactly when its first part does and its second part does from there. -/
theorem bind_ok_iff {ε α β : Type} {x : Except ε α} {f : α → Except ε β} {b : β} :
    x >>= f = .ok b ↔ ∃ a, x = .ok a ∧ f a = .ok b := by
  cases x with
  | error e => simp [bind, Except.bind]
  | ok a => simp [bind, Except.bind]

@[simp] theorem ok_bind {ε α β : Type} (a : α) (f : α → Except ε β) : (Except.ok a : Except ε α) >>= f = f a := rfl

@[simp] theorem error_bind {ε α β : Type} (e : ε) (f : α → Except ε β) :
    (Except.error e : Except ε α) >>= f = .error e := rfl

@[simp] theorem pure_ok {ε α : Type} (a : α) : (pure a : Except ε α) = .ok a := rfl

@[simp] theorem finish_ok (s : State) : finish (.ok s) = .next s := rfl

@[simp] theorem finish_fault (f : Fault) : finish (.error (.fault f)) = .fault f := rfl

@[simp] theorem finish_refuse (r : Refusal) : finish (.error (.refuse r)) = .refused r := rfl

/-- A command goes on exactly when its shared operation answers a state. -/
theorem finish_next_iff {x : Except Stop State} {t : State} : finish x = .next t ↔ x = .ok t := by
  cases x with
  | ok s => simp
  | error e => cases e <;> simp

/-! ### The two checks -/

theorem variantOf_eq_none {f : BitVec 2} : variantOf f = none ↔ 2 ≤ f.toNat := by revert f; decide

theorem variantOf_eq_some {f : BitVec 2} {v : Variant} :
    variantOf f = some v ↔ (f = 0#2 ∧ v = .bwry) ∨ (f = 1#2 ∧ v = .bwr) := by revert f; cases v <;> decide

theorem withFormat_some {s : State} {f : Variant} (h : variantOf s.format = some f) (body : Variant → Except Stop State) :
    withFormat s body = body f := by simp [withFormat, h]

theorem withFormat_none {s : State} (h : variantOf s.format = none) (body : Variant → Except Stop State) :
    withFormat s body = .ok (raise .invalidPaletteFormat s.formatInfo s) := by simp [withFormat, h]

/-- `CHECK_FORMAT` either raises or goes on with the variant it found. -/
theorem withFormat_ok {s t : State} {body : Variant → Except Stop State} (h : withFormat s body = .ok t) :
    (variantOf s.format = none ∧ t = raise .invalidPaletteFormat s.formatInfo s) ∨
      ∃ f, variantOf s.format = some f ∧ body f = .ok t := by
  cases hv : variantOf s.format with
  | none => rw [withFormat_none hv] at h; simp at h; exact .inl ⟨rfl, h.symm⟩
  | some f => rw [withFormat_some hv] at h; exact .inr ⟨f, rfl, h⟩

theorem badDims_eq_false {c : Config} {m : Bool} {s : State} :
    s.badDims c m = false ↔ 0 < s.W ∧ 0 < s.H ∧ s.W * s.H ≤ c.maxPix ∧ (m = true → s.W % 4 = 0) := by
  cases m <;> simp [State.badDims, Nat.pos_iff_ne_zero, and_assoc]

theorem badDims_eq_true {c : Config} {m : Bool} {s : State} :
    s.badDims c m = true ↔ s.W = 0 ∨ s.H = 0 ∨ c.maxPix < s.W * s.H ∨ (m = true ∧ s.W % 4 ≠ 0) := by
  cases m <;> simp [State.badDims, or_assoc]

theorem withDims_good {c : Config} {m : Bool} {s : State} (h : s.badDims c m = false) (body : Except Stop State) :
    withDims c m s body = body := by simp [withDims, h]

theorem withDims_bad {c : Config} {m : Bool} {s : State} (h : s.badDims c m = true) (body : Except Stop State) :
    withDims c m s body = .ok (raise .unsupportedGridDimensions s.dimsInfo s) := by simp [withDims, h]

/-- `CHECK_DIMS` either raises or goes on. -/
theorem withDims_ok {c : Config} {m : Bool} {s t : State} {body : Except Stop State} (h : withDims c m s body = .ok t) :
    (s.badDims c m = true ∧ t = raise .unsupportedGridDimensions s.dimsInfo s) ∨
      (s.badDims c m = false ∧ body = .ok t) := by
  cases hb : s.badDims c m with
  | true => rw [withDims_bad hb] at h; simp at h; exact .inl ⟨rfl, h.symm⟩
  | false => rw [withDims_good hb] at h; exact .inr ⟨rfl, h⟩

/-- The value `UnsupportedGridDimensions` records, as a number. -/
theorem dimsInfo_eq (s : State) : s.dimsInfo = BitVec.ofNat 32 (s.H * 65536 + s.W) := by
  apply BitVec.eq_of_toNat_eq
  have h1 := s.height.isLt
  have h2 := s.width.isLt
  simp only [State.dimsInfo, State.H, State.W, BitVec.toNat_append, BitVec.toNat_ofNat]
  rw [Nat.mod_eq_of_lt (by omega), ← Nat.shiftLeft_add_eq_or_of_lt h2, Nat.shiftLeft_eq]

theorem formatInfo_eq (s : State) : s.formatInfo = BitVec.ofNat 32 s.format.toNat := by
  simp [State.formatInfo, BitVec.setWidth_eq_append, BitVec.ofNat_toNat]

/-! ### Element access -/

theorem readPix_ok_iff {s : State} {i : Nat} {v : Pixel} : s.readPix i = .ok v ↔ s.pix.read i = some v := by
  unfold State.readPix; cases s.pix.read i <;> simp

theorem readIdx_ok_iff {s : State} {i : Nat} {k : Code} : s.readIdx i = .ok k ↔ s.idx.read i = some k := by
  unfold State.readIdx; cases s.idx.read i <;> simp

theorem readOut_ok_iff {s : State} {j : Nat} {b : Byte} : s.readOut j = .ok b ↔ s.out.read j = some b := by
  unfold State.readOut; cases s.out.read j <;> simp

theorem readPix_none {s : State} {i : Nat} (h : s.pix.read i = none) :
    s.readPix i = .error (.fault (.unwrittenPix i)) := by simp [State.readPix, h]

theorem readIdx_none {s : State} {i : Nat} (h : s.idx.read i = none) :
    s.readIdx i = .error (.fault (.unwrittenIdx i)) := by simp [State.readIdx, h]

theorem readOut_none {s : State} {j : Nat} (h : s.out.read j = none) :
    s.readOut j = .error (.fault (.unwrittenOut j)) := by simp [State.readOut, h]

/-! ### The scan -/

theorem scan_zero (micro : State → Except Stop State) (s : State) : scan micro 0 s = .ok s := rfl

theorem scan_succ (micro : State → Except Stop State) (n : Nat) (s : State) :
    scan micro (n + 1) s = if s.ypos.toNat < s.H then micro s >>= scan micro n else .ok s := rfl

/-- The rule of the quantising loop: what one turn keeps, the whole scan keeps. -/
theorem scan_keeps {micro : State → Except Stop State} {I : State → Prop}
    (turn : ∀ s t, I s → s.ypos.toNat < s.H → micro s = .ok t → I t) :
    ∀ {n : Nat} {s t : State}, I s → scan micro n s = .ok t → I t := by
  intro n
  induction n with
  | zero => intro s t hs h; simp only [scan_zero, Except.ok.injEq] at h; exact h ▸ hs
  | succ n ih =>
    intro s t hs h
    rw [scan_succ] at h
    split at h
    · next hy =>
      obtain ⟨u, hu, ht⟩ := bind_ok_iff.1 h
      exact ih (turn s u hs hy hu) ht
    · simp only [Except.ok.injEq] at h; exact h ▸ hs

end Sys2Proof.Machine
end

