-- ==== Sys2Proof/Laws/Classify.lean ====
section
/-! SUPPORT. Spec lemmas of the Color Classifier: what `subPixel`, `dist`, `nearest` and `CLASSIFY` answer. -/

namespace Sys2Proof.Machine

/-- A per-channel difference is three single roundings. -/
theorem subPixel_ok_iff {num : NumFormat} {v w e : Pixel} :
    subPixel num v w = .ok e ↔
      fsub num v.r w.r = .ok e.r ∧ fsub num v.g w.g = .ok e.g ∧ fsub num v.b w.b = .ok e.b := by
  obtain ⟨er, eg, eb⟩ := e
  simp only [subPixel, bind_ok_iff, pure_ok, Except.ok.injEq, Pixel.mk.injEq]
  constructor
  · rintro ⟨r, hr, g, hg, b, hb, rfl, rfl, rfl⟩; exact ⟨hr, hg, hb⟩
  · rintro ⟨hr, hg, hb⟩; exact ⟨_, hr, _, hg, _, hb, rfl, rfl, rfl⟩

/-- The squared distance is three squares of the rounded differences, added red, green, blue (40_classify.md R100). -/
theorem dist_ok_iff {num : NumFormat} {v : Pixel} {p : PaletteEntry} {d : ℚ} :
    dist num v p = .ok d ↔ ∃ e rr gg bb rg, subPixel num v (entryPixel p) = .ok e ∧ fmul num e.r e.r = .ok rr ∧
      fmul num e.g e.g = .ok gg ∧ fmul num e.b e.b = .ok bb ∧ fadd num rr gg = .ok rg ∧ fadd num rg bb = .ok d := by
  simp only [dist, bind_ok_iff]
  constructor
  · rintro ⟨e, he, rr, hrr, gg, hgg, bb, hbb, rg, hrg, hd⟩; exact ⟨e, rr, gg, bb, rg, he, hrr, hgg, hbb, hrg, hd⟩
  · rintro ⟨e, rr, gg, bb, rg, he, hrr, hgg, hbb, hrg, hd⟩; exact ⟨e, he, rr, hrr, gg, hgg, bb, hbb, rg, hrg, hd⟩

theorem nearestFrom_nil (num : NumFormat) (v : Pixel) (k best : Nat) (bestd : ℚ) :
    nearestFrom num v [] k best bestd = .ok best := rfl

theorem nearestFrom_cons (num : NumFormat) (v : Pixel) (p : PaletteEntry) (ps : List PaletteEntry) (k best : Nat)
    (bestd : ℚ) :
    nearestFrom num v (p :: ps) k best bestd = dist num v p >>= fun d =>
      if flt d bestd then nearestFrom num v ps (k + 1) k d else nearestFrom num v ps (k + 1) best bestd := rfl

theorem flt_iff {a b : ℚ} : flt a b = true ↔ a < b := by simp [flt]

/-- What the loop of `nearest` answers: the position it was given, with no strictly nearer entry left, or the first of the
strictly nearest entries left (40_classify.md R101). -/
theorem nearestFrom_spec {num : NumFormat} {v : Pixel} :
    ∀ {ps : List PaletteEntry} {k best n : Nat} {bestd : ℚ}, nearestFrom num v ps k best bestd = .ok n →
      (n = best ∧ ∀ (j : Nat) (p : PaletteEntry), ps[j]? = some p → ∃ d, dist num v p = .ok d ∧ bestd ≤ d) ∨
        ∃ (j : Nat) (p : PaletteEntry) (d : ℚ), n = k + j ∧ ps[j]? = some p ∧ dist num v p = .ok d ∧ d < bestd ∧
          ∀ (j' : Nat) (p' : PaletteEntry), ps[j']? = some p' → ∃ d', dist num v p' = .ok d' ∧ d ≤ d' ∧ (j' < j → d < d') := by
  intro ps
  induction ps with
  | nil => intro k best n bestd h; simp only [nearestFrom_nil, Except.ok.injEq] at h; left; exact ⟨h.symm, by simp⟩
  | cons q ps ih =>
    intro k best n bestd h
    rw [nearestFrom_cons] at h
    obtain ⟨d, hd, h⟩ := bind_ok_iff.1 h
    split at h
    · next hlt =>
      rw [flt_iff] at hlt
      right
      rcases ih h with ⟨rfl, hall⟩ | ⟨j, p, dj, rfl, hp, hdj, hlt', hall⟩
      · refine ⟨0, q, d, rfl, by simp, hd, hlt, fun j' p' hp' => ?_⟩
        cases j' with
        | zero => simp at hp'; subst hp'; exact ⟨d, hd, le_refl _, fun h0 => absurd h0 (lt_irrefl 0)⟩
        | succ j' =>
          obtain ⟨d', hd', hle⟩ := hall j' p' (by simpa using hp')
          exact ⟨d', hd', hle, fun h0 => absurd h0 (Nat.not_lt_zero _)⟩
      · refine ⟨j + 1, p, dj, by omega, by simpa using hp, hdj, lt_trans hlt' hlt, fun j' p' hp' => ?_⟩
        cases j' with
        | zero => simp at hp'; subst hp'; exact ⟨d, hd, hlt'.le, fun _ => hlt'⟩
        | succ j' =>
          obtain ⟨d', hd', hle, hst⟩ := hall j' p' (by simpa using hp')
          exact ⟨d', hd', hle, fun h0 => hst (by omega)⟩
    · next hlt =>
      rw [flt_iff, not_lt] at hlt
      rcases ih h with ⟨rfl, hall⟩ | ⟨j, p, dj, rfl, hp, hdj, hlt', hall⟩
      · left
        refine ⟨rfl, fun j p hp => ?_⟩
        cases j with
        | zero => simp at hp; subst hp; exact ⟨d, hd, hlt⟩
        | succ j => exact hall j p (by simpa using hp)
      · right
        refine ⟨j + 1, p, dj, by omega, by simpa using hp, hdj, hlt', fun j' p' hp' => ?_⟩
        cases j' with
        | zero =>
          simp at hp'; subst hp'
          exact ⟨d, hd, (lt_of_lt_of_le hlt' hlt).le, fun _ => lt_of_lt_of_le hlt' hlt⟩
        | succ j' =>
          obtain ⟨d', hd', hle, hst⟩ := hall j' p' (by simpa using hp')
          exact ⟨d', hd', hle, fun h0 => hst (by omega)⟩

/-- The loop answers as soon as every distance does. -/
theorem nearestFrom_completes {num : NumFormat} {v : Pixel} :
    ∀ {ps : List PaletteEntry}, (∀ p ∈ ps, ∃ d, dist num v p = .ok d) → ∀ (k best : Nat) (bestd : ℚ),
      ∃ n, nearestFrom num v ps k best bestd = .ok n := by
  intro ps
  induction ps with
  | nil => intro _ k best bestd; exact ⟨best, rfl⟩
  | cons q ps ih =>
    intro h k best bestd
    obtain ⟨d, hd⟩ := h q (by simp)
    have h' := fun p hp => h p (List.mem_cons_of_mem q hp)
    rw [nearestFrom_cons, hd, ok_bind]
    split
    · exact ih h' _ _ _
    · exact ih h' _ _ _

/-- What `nearest` answers, as a position: a palette entry at the least distance, every earlier entry strictly farther
(40_classify.md R101). -/
theorem nearestPos_spec {c : Config} {v : Pixel} {f : Variant} {n : Nat} (h : nearestPos c v f = .ok n) :
    ∃ (p : PaletteEntry) (d : ℚ), (c.palette f).entries[n]? = some p ∧ dist c.num v p = .ok d ∧
      ∀ (j : Nat) (p' : PaletteEntry), (c.palette f).entries[j]? = some p' → ∃ d', dist c.num v p' = .ok d' ∧ d ≤ d' ∧ (j < n → d < d') := by
  obtain ⟨d0, hd0, h⟩ := bind_ok_iff.1 h
  rcases nearestFrom_spec h with ⟨rfl, hall⟩ | ⟨j, p, d, rfl, hp, hd, hlt, hall⟩
  · refine ⟨(c.palette f).entry0, d0, rfl, hd0, fun j p' hp' => ?_⟩
    cases j with
    | zero =>
      simp [Palette.entries] at hp'; subst hp'
      exact ⟨d0, hd0, le_refl _, fun h0 => absurd h0 (lt_irrefl 0)⟩
    | succ j =>
      obtain ⟨d', hd', hle⟩ := hall j p' (by simpa [Palette.entries] using hp')
      exact ⟨d', hd', hle, fun h0 => absurd h0 (Nat.not_lt_zero _)⟩
  · refine ⟨p, d, by simpa [Palette.entries, add_comm 1 j] using hp, hd, fun j' p' hp' => ?_⟩
    cases j' with
    | zero => simp [Palette.entries] at hp'; subst hp'; exact ⟨d0, hd0, hlt.le, fun _ => hlt⟩
    | succ j' =>
      obtain ⟨d', hd', hle, hst⟩ := hall j' p' (by simpa [Palette.entries] using hp')
      exact ⟨d', hd', hle, fun h0 => hst (by omega)⟩

/-- `nearest` answers as soon as every distance does. -/
theorem nearest_completes {c : Config} {v : Pixel} {f : Variant}
    (h : ∀ p ∈ (c.palette f).entries, ∃ d, dist c.num v p = .ok d) : ∃ k, nearest c v f = .ok k := by
  obtain ⟨d0, hd0⟩ := h (c.palette f).entry0 (by simp [Palette.entries])
  obtain ⟨n, hn⟩ := nearestFrom_completes (ps := (c.palette f).others) (fun p hp => h p (by simp [Palette.entries, hp])) 1 0 d0
  exact ⟨BitVec.ofNat 2 n, by simp [nearest, nearestPos, hd0, hn]⟩

theorem nearest_ok_iff {c : Config} {v : Pixel} {f : Variant} {k : Code} :
    nearest c v f = .ok k ↔ ∃ n, nearestPos c v f = .ok n ∧ BitVec.ofNat 2 n = k := by
  simp [nearest, bind_ok_iff]

/-- Everything `CLASSIFY` can answer (40_classify.md R104). -/
theorem classify_ok {c : Config} {s t : State} (h : classify c s = .ok t) :
    (variantOf s.format = none ∧ t = raise .invalidPaletteFormat s.formatInfo s) ∨
      ∃ f k, variantOf s.format = some f ∧ nearest c s.operandTriple f = .ok k ∧ t = { s with result := k } := by
  rcases withFormat_ok h with h | ⟨f, hf, hb⟩
  · exact .inl h
  · obtain ⟨k, hk, ht⟩ := bind_ok_iff.1 hb
    simp only [pure_ok, Except.ok.injEq] at ht
    exact .inr ⟨f, k, hf, hk, ht.symm⟩

end Sys2Proof.Machine
end

