-- ==== Sys2Proof/Laws/Decode.lean ====
section
/-! SUPPORT. The decoder as one chain of comparisons (30_encoding.md R84's order of the five words). -/

namespace Sys2Proof

/-- Every row's mask is all ones, so a row selects its own word only (30_encoding.md R82). -/
theorem selects_iff (v p : Word) (i : Instr) : (OpcodeRow.mk 0xFFFFFFFF#32 p i).selects v = (v == p) := by
  have h : (0xFFFFFFFF#32 : Word) = BitVec.allOnes 32 := by decide
  simp only [OpcodeRow.selects, h, BitVec.and_allOnes]

/-- The decoder, word by word. -/
theorem decode_eq (v : Word) : decode v =
    if v = 1#32 then .ok .reset else if v = 2#32 then .ok .classify else if v = 3#32 then .ok .quant
    else if v = 4#32 then .ok .pack else if v = 5#32 then .ok .convert
    else if mbzField v = 0#24 then .error (.unknownOpcode (opField v)) else .error (.nonZeroMbz (mbzField v)) := by
  simp only [decode, opcodeTable, List.find?, selects_iff]
  by_cases h1 : v = 1#32
  · subst h1; rfl
  by_cases h2 : v = 2#32
  · subst h2; rfl
  by_cases h3 : v = 3#32
  · subst h3; rfl
  by_cases h4 : v = 4#32
  · subst h4; rfl
  by_cases h5 : v = 5#32
  · subst h5; rfl
  simp only [beq_eq_false_iff_ne.2 h1, beq_eq_false_iff_ne.2 h2, beq_eq_false_iff_ne.2 h3, beq_eq_false_iff_ne.2 h4,
    beq_eq_false_iff_ne.2 h5, h1, h2, h3, h4, h5, if_false]

end Sys2Proof
end

