-- ==== Sys2Proof/Laws/Scan.lean ====
section
/-! SUPPORT. The row-major scan (41_dither.md R120, R121): where the scan position stands after `i` turns, and the two rules
of a scan that visits every pixel once. -/

namespace Sys2Proof.Machine

/-- At the last column the next index starts a row. -/
theorem succ_divMod_end {i w : Nat} (e : i % w + 1 = w) : (i + 1) % w = 0 ∧ (i + 1) / w = i / w + 1 := by
  have h1 : i + 1 = w * (i / w + 1) := by
    have := Nat.div_add_mod i w
    rw [mul_add]; omega
  have h2 : (i + 1) % w = 0 := by rw [h1]; simp
  exact ⟨h2, by rw [Nat.succ_div, if_pos (Nat.dvd_of_mod_eq_zero h2)]⟩

/-- Inside a row the next index is the next column. -/
theorem succ_divMod_inner {i w : Nat} (hw : 0 < w) (e : i % w + 1 ≠ w) :
    (i + 1) % w = i % w + 1 ∧ (i + 1) / w = i / w := by
  have h1 := Nat.mod_lt i hw
  have h2 := Nat.div_add_mod i w
  have h3 : i + 1 = (i % w + 1) + w * (i / w) := by omega
  constructor
  · rw [h3, Nat.add_mul_mod_self_left, Nat.mod_eq_of_lt (by omega)]
  · rw [h3, Nat.add_mul_div_left _ _ hw, Nat.div_eq_of_lt (by omega)]; omega

/-- The scan position of `s` is pixel `i` in row-major order of a `w` by `h` grid. -/
structure State.AtPixel (w h i : Nat) (s : State) : Prop where
  width : s.W = w
  height : s.H = h
  column : s.xpos.toNat = i % w
  row : s.ypos.toNat = i / w

/-- A scan starts at pixel 0. -/
theorem atPixel_start (s : State) : State.AtPixel s.W s.H 0 { s with xpos := 0#16, ypos := 0#16 } :=
  ⟨rfl, rfl, by simp, by simp⟩

/-- The scan index is the position in row-major order. -/
theorem State.AtPixel.scanIndex {w h i : Nat} {s : State} (p : s.AtPixel w h i) : s.scanIndex = i := by
  rw [State.scanIndex, pixelIndex, p.width, p.column, p.row, mul_comm]; exact Nat.div_add_mod i w

theorem State.AtPixel.pos {w h i : Nat} {s : State} (p : s.AtPixel w h i) (hi : i < w * h) : 0 < w := by
  rcases Nat.eq_zero_or_pos w with rfl | hw
  · simp at hi
  · exact hw

/-- The loop guard `YPOS.Y < H` holds exactly while a pixel is left. -/
theorem State.AtPixel.guard {w h i : Nat} {s : State} (p : s.AtPixel w h i) (hw : 0 < w) :
    s.ypos.toNat < s.H ↔ i < w * h := by
  rw [p.row, p.height, Nat.div_lt_iff_lt_mul hw, mul_comm]

/-- `ADVANCE` moves to the next pixel. -/
theorem State.AtPixel.advance {w h i : Nat} {s : State} (p : s.AtPixel w h i) (hi : i < w * h) :
    s.advance.AtPixel w h (i + 1) := by
  have hw := p.pos hi
  have hW : w < 65536 := p.width ▸ s.width.isLt
  have hH : h < 65536 := p.height ▸ s.height.isLt
  have hrow : i / w < h := (Nat.div_lt_iff_lt_mul hw).2 (by rwa [mul_comm] at hi)
  by_cases e : s.xpos.toNat + 1 = s.W
  · have e' : i % w + 1 = w := by rw [← p.column, ← p.width]; exact e
    obtain ⟨h1, h2⟩ := succ_divMod_end e'
    refine ⟨by simp [p.width], by simp [p.height], by simp [advance_xpos_end e, h1], ?_⟩
    rw [advance_ypos_end e, BitVec.toNat_add, p.row, h2]
    exact Nat.mod_eq_of_lt (by change i / w + 1 < 65536; omega)
  · have e' : i % w + 1 ≠ w := by rw [← p.column, ← p.width]; exact e
    obtain ⟨h1, h2⟩ := succ_divMod_inner hw e'
    have hcol := Nat.mod_lt i hw
    refine ⟨by simp [p.width], by simp [p.height], ?_, by rw [advance_ypos_inner e, p.row, h2]⟩
    rw [advance_xpos_inner e, BitVec.toNat_add, p.column, h1]
    exact Nat.mod_eq_of_lt (by change i % w + 1 < 65536; omega)

/-- The scan position depends on the registers it names only. -/
theorem State.AtPixel.congr {w h i : Nat} {s t : State} (p : s.AtPixel w h i) (h1 : t.width = s.width)
    (h2 : t.height = s.height) (h3 : t.xpos = s.xpos) (h4 : t.ypos = s.ypos) : t.AtPixel w h i :=
  ⟨by rw [← p.width, State.W, State.W, h1], by rw [← p.height, State.H, State.H, h2], by rw [h3, p.column],
    by rw [h4, p.row]⟩

/-- After the last pixel the position is (0, H). -/
theorem State.AtPixel.finished {w h : Nat} {s : State} (p : s.AtPixel w h (w * h)) (hw : 0 < w) :
    s.xpos = 0#16 ∧ s.ypos = s.height := by
  constructor
  · apply BitVec.eq_of_toNat_eq; rw [p.column]; simp
  · apply BitVec.eq_of_toNat_eq
    have := p.height
    rw [p.row, Nat.mul_div_cancel_left h hw]
    exact this.symm

/-- A micro-operation that, at pixel `i` with `J i`, answers only states at pixel `i + 1` with `J (i + 1)`: then a whole
scan answers only states past the last pixel with `J (w * h)`. -/
theorem scan_counted {micro : State → Except Stop State} {w h : Nat} {J : Nat → State → Prop}
    (turn : ∀ i s t, i < w * h → s.AtPixel w h i → J i s → micro s = .ok t → t.AtPixel w h (i + 1) ∧ J (i + 1) t) :
    ∀ {n i : Nat} {s t : State}, 0 < w → i + n = w * h → s.AtPixel w h i → J i s → scan micro n s = .ok t →
      t.AtPixel w h (w * h) ∧ J (w * h) t := by
  intro n
  induction n with
  | zero =>
    intro i s t _ hn p hJ hs
    simp only [scan_zero, Except.ok.injEq] at hs
    rw [← hs, ← hn]; exact ⟨p, hJ⟩
  | succ n ih =>
    intro i s t hw hn p hJ hs
    have hi : i < w * h := by omega
    rw [scan_succ, if_pos ((p.guard hw).2 hi)] at hs
    obtain ⟨u, hu, ht⟩ := bind_ok_iff.1 hs
    obtain ⟨pu, hJu⟩ := turn i s u hi p hJ hu
    exact ih hw (by omega) pu hJu ht

/-- The same where every turn completes: then the whole scan completes. -/
theorem scan_completes {micro : State → Except Stop State} {w h : Nat} {J : Nat → State → Prop}
    (turn : ∀ i s, i < w * h → s.AtPixel w h i → J i s → ∃ t, micro s = .ok t ∧ t.AtPixel w h (i + 1) ∧ J (i + 1) t) :
    ∀ {n i : Nat} {s : State}, 0 < w → i + n = w * h → s.AtPixel w h i → J i s →
      ∃ t, scan micro n s = .ok t ∧ t.AtPixel w h (w * h) ∧ J (w * h) t := by
  intro n
  induction n with
  | zero => intro i s _ hn p hJ; exact ⟨s, rfl, by rw [← hn]; exact p, by rw [← hn]; exact hJ⟩
  | succ n ih =>
    intro i s hw hn p hJ
    have hi : i < w * h := by omega
    obtain ⟨u, hu, pu, hJu⟩ := turn i s hi p hJ
    obtain ⟨t, ht, pt, hJt⟩ := ih hw (by omega) pu hJu
    refine ⟨t, ?_, pt, hJt⟩
    rw [scan_succ, if_pos ((p.guard hw).2 hi), hu, ok_bind, ht]

end Sys2Proof.Machine
end

