-- ==== Sys2Proof/Laws/Quant.lean ====
section
/-! SUPPORT. Spec lemmas of the two quantisers: what one share of the error, one micro-operation and `QUANT` answer, and the
frame each keeps. -/

namespace Sys2Proof.Machine

/-- A share of the error is one rounded product and one rounded sum per channel (41_dither.md R122 (f)). -/
theorem addShare_ok_iff {num : NumFormat} {p e p' : Pixel} {k : ℚ} :
    addShare num p e k = .ok p' ↔
      (∃ m, fmul num e.r k = .ok m ∧ fadd num p.r m = .ok p'.r) ∧
      (∃ m, fmul num e.g k = .ok m ∧ fadd num p.g m = .ok p'.g) ∧
      (∃ m, fmul num e.b k = .ok m ∧ fadd num p.b m = .ok p'.b) := by
  obtain ⟨r', g', b'⟩ := p'
  simp only [addShare, bind_ok_iff, pure_ok, Except.ok.injEq, Pixel.mk.injEq]
  constructor
  · rintro ⟨r, hr, g, hg, b, hb, rfl, rfl, rfl⟩; exact ⟨hr, hg, hb⟩
  · rintro ⟨hr, hg, hb⟩; exact ⟨_, hr, _, hg, _, hb, rfl, rfl, rfl⟩

/-- Adding a share into an element reads it, adds, and writes it back. -/
theorem diffuse_ok_iff {num : NumFormat} {t : Nat} {e : Pixel} {k : ℚ} {s s' : State} :
    diffuse num t e k s = .ok s' ↔
      ∃ p p', s.pix.read t = some p ∧ addShare num p e k = .ok p' ∧ s' = s.writePix t p' := by
  simp only [diffuse, bind_ok_iff, readPix_ok_iff, pure_ok, Except.ok.injEq]
  constructor
  · rintro ⟨p, hp, p', hp', rfl⟩; exact ⟨p, p', hp, hp', rfl⟩
  · rintro ⟨p, p', hp, hp', rfl⟩; exact ⟨p, hp, p', hp', rfl⟩

/-- A neighbour inside the grid gets its share, one outside gets nothing (41_dither.md R123). -/
theorem diffuseIf_ok_iff {inside : Prop} [Decidable inside] {num : NumFormat} {t : Nat} {e : Pixel} {k : ℚ} {s s' : State} :
    diffuseIf inside num t e k s = .ok s' ↔ (inside ∧ diffuse num t e k s = .ok s') ∨ (¬inside ∧ s' = s) := by
  unfold diffuseIf
  split
  · next h => simp [h]
  · next h => simp [h, eq_comm]

/-- A share changes `PIX` only. -/
theorem diffuseIf_frame {inside : Prop} [Decidable inside] {num : NumFormat} {t : Nat} {e : Pixel} {k : ℚ} {s s' : State}
    (h : diffuseIf inside num t e k s = .ok s') : s' = { s with pix := s'.pix } := by
  rcases diffuseIf_ok_iff.1 h with ⟨_, h⟩ | ⟨_, rfl⟩
  · obtain ⟨p, p', _, _, rfl⟩ := diffuse_ok_iff.1 h; rfl
  · rfl

/-- What one possible share leaves in every element of `PIX`. -/
theorem diffuseIf_read {inside : Prop} [Decidable inside] {num : NumFormat} {t : Nat} {e : Pixel} {k : ℚ} {s s' : State}
    (h : diffuseIf inside num t e k s = .ok s') :
    (inside → ∃ p p', s.pix.read t = some p ∧ addShare num p e k = .ok p' ∧ s'.pix.read t = some p') ∧
      ∀ j, ¬(inside ∧ j = t) → s'.pix.read j = s.pix.read j := by
  rcases diffuseIf_ok_iff.1 h with ⟨hi, h⟩ | ⟨hi, rfl⟩
  · obtain ⟨p, p', hp, hp', rfl⟩ := diffuse_ok_iff.1 h
    exact ⟨fun _ => ⟨p, p', hp, hp', by simp⟩, fun j hj => Memory.read_write_other _ _ fun e => hj ⟨hi, e⟩⟩
  · exact ⟨fun h' => absurd h' hi, fun _ _ => rfl⟩

/-- The four possible shares of a step, one after another, each from the state the one before left. The guards and targets
are those of the first state, since no share changes the dimensions. -/
theorem propagate_ok {num : NumFormat} {x y i : Nat} {e : Pixel} {s s' : State} (h : propagate num x y i e s = .ok s') :
    ∃ s1 s2 s3, diffuseIf (x + 1 < s.W) num (i + 1) e K7 s = .ok s1 ∧
      diffuseIf (y + 1 < s.H ∧ 1 ≤ x) num (i + s.W - 1) e K3 s1 = .ok s2 ∧
      diffuseIf (y + 1 < s.H) num (i + s.W) e K5 s2 = .ok s3 ∧
      diffuseIf (y + 1 < s.H ∧ x + 1 < s.W) num (i + s.W + 1) e K1 s3 = .ok s' := by
  obtain ⟨s1, h1, h⟩ := bind_ok_iff.1 h
  obtain ⟨s2, h2, h⟩ := bind_ok_iff.1 h
  obtain ⟨s3, h3, h4⟩ := bind_ok_iff.1 h
  have e1 := diffuseIf_frame h1
  have e2 := diffuseIf_frame h2
  have e3 := diffuseIf_frame h3
  have hW1 : s1.W = s.W := by rw [e1]; rfl
  have hH1 : s1.H = s.H := by rw [e1]; rfl
  have hW2 : s2.W = s.W := by rw [e2]; exact hW1
  have hH2 : s2.H = s.H := by rw [e2]; exact hH1
  have hW3 : s3.W = s.W := by rw [e3]; exact hW2
  have hH3 : s3.H = s.H := by rw [e3]; exact hH2
  simp only [hW1, hH1] at h2
  simp only [hW2, hH2] at h3
  simp only [hW3, hH3] at h4
  exact ⟨s1, s2, s3, h1, h2, h3, h4⟩

/-- Step 4 of `DSTEP` changes `PIX` only. -/
theorem propagate_frame {num : NumFormat} {x y i : Nat} {e : Pixel} {s s' : State} (h : propagate num x y i e s = .ok s') :
    s' = { s with pix := s'.pix } := by
  obtain ⟨s1, s2, s3, h1, h2, h3, h4⟩ := propagate_ok h
  rw [diffuseIf_frame h4, diffuseIf_frame h3, diffuseIf_frame h2, diffuseIf_frame h1]

/-- Everything one `DSTEP` can answer (41_dither.md R122). -/
theorem dstep_ok {c : Config} {f : Variant} {s t : State} (h : dstep c f s = .ok t) :
    ∃ v k e u, s.pix.read s.scanIndex = some v ∧ nearest c v f = .ok k ∧
      subPixel c.num v (entryPixel (paletteAt (c.palette f) k)) = .ok e ∧
      propagate c.num s.xpos.toNat s.ypos.toNat s.scanIndex e (s.writeIdx s.scanIndex k) = .ok u ∧ t = u.advance := by
  obtain ⟨v, hv, h⟩ := bind_ok_iff.1 h
  obtain ⟨k, hk, h⟩ := bind_ok_iff.1 h
  obtain ⟨e, he, h⟩ := bind_ok_iff.1 h
  obtain ⟨u, hu, h⟩ := bind_ok_iff.1 h
  simp only [pure_ok, Except.ok.injEq] at h
  exact ⟨v, k, e, u, readPix_ok_iff.1 hv, hk, he, hu, h.symm⟩

/-- Everything one `QSTEP` can answer (42_quantize.md R140). -/
theorem qstep_ok_iff {c : Config} {f : Variant} {s t : State} :
    qstep c f s = .ok t ↔
      ∃ v k, s.pix.read s.scanIndex = some v ∧ nearest c v f = .ok k ∧ t = (s.writeIdx s.scanIndex k).advance := by
  simp only [qstep, bind_ok_iff, readPix_ok_iff, pure_ok, Except.ok.injEq]
  constructor
  · rintro ⟨v, hv, k, hk, rfl⟩; exact ⟨v, k, hv, hk, rfl⟩
  · rintro ⟨v, k, hv, hk, rfl⟩; exact ⟨v, hv, k, hk, rfl⟩

/-- `ADVANCE` is a function of the dimensions and the scan position. -/
theorem advance_eq (s : State) : s.advance = { s with xpos := s.advance.xpos, ypos := s.advance.ypos } := by
  unfold State.advance; split <;> rfl

theorem advance_congr {s t : State} (h1 : t.width = s.width) (h3 : t.xpos = s.xpos) (h4 : t.ypos = s.ypos) :
    t.advance.xpos = s.advance.xpos ∧ t.advance.ypos = s.advance.ypos := by
  unfold State.advance State.W
  rw [h1, h3]
  split <;> simp [h4]

/-- The frame of `DSTEP`: `PIX`, `IDX` and the scan position, which advances. -/
theorem dstep_frame {c : Config} {f : Variant} {s t : State} (h : dstep c f s = .ok t) :
    t = { s with pix := t.pix, idx := t.idx, xpos := s.advance.xpos, ypos := s.advance.ypos } := by
  obtain ⟨v, k, e, u, _, _, _, hu, rfl⟩ := dstep_ok h
  have hf := propagate_frame hu
  have ha : u.advance.xpos = s.advance.xpos ∧ u.advance.ypos = s.advance.ypos :=
    advance_congr (by rw [hf]; rfl) (by rw [hf]; rfl) (by rw [hf]; rfl)
  conv_lhs => rw [advance_eq, ha.1, ha.2]
  simp only [advance_pix, advance_idx]
  conv_lhs => rw [hf]
  rw [hf]; rfl

/-- The frame of `QSTEP`: `IDX` and the scan position, which advances. -/
theorem qstep_frame {c : Config} {f : Variant} {s t : State} (h : qstep c f s = .ok t) :
    t = { s with idx := t.idx, xpos := s.advance.xpos, ypos := s.advance.ypos } := by
  obtain ⟨v, k, _, _, rfl⟩ := qstep_ok_iff.1 h
  have ha : (s.writeIdx s.scanIndex k).advance.xpos = s.advance.xpos ∧
      (s.writeIdx s.scanIndex k).advance.ypos = s.advance.ypos := advance_congr rfl rfl rfl
  conv_lhs => rw [advance_eq, ha.1, ha.2]
  simp only [advance_idx]
  rfl

/-- Either micro-operation moves the scan to the next pixel. -/
theorem quantStep_atPixel {c : Config} {f : Variant} {d : Bool} {w h i : Nat} {s t : State} (hi : i < w * h)
    (p : s.AtPixel w h i) (ht : quantStep c f d s = .ok t) : t.AtPixel w h (i + 1) := by
  unfold quantStep at ht
  split at ht
  · rw [dstep_frame ht]; exact (p.advance hi).congr (by simp) (by simp) rfl rfl
  · rw [qstep_frame ht]; exact (p.advance hi).congr (by simp) (by simp) rfl rfl

/-- The frame of a whole scan: `PIX` (only when dithering), `IDX` and the scan position. -/
theorem quantBody_frame {c : Config} {f : Variant} {s t : State} (h : quantBody c f s = .ok t) :
    t = { s with pix := t.pix, idx := t.idx, xpos := t.xpos, ypos := t.ypos } ∧ (s.dither = false → t.pix = s.pix) := by
  refine scan_keeps (I := fun u => u = { s with pix := u.pix, idx := u.idx, xpos := u.xpos, ypos := u.ypos } ∧
    (s.dither = false → u.pix = s.pix)) ?_ (s := { s with xpos := 0#16, ypos := 0#16 }) ⟨rfl, fun _ => rfl⟩ h
  rintro u v ⟨hu, hp⟩ _ hv
  unfold quantStep at hv
  split at hv
  · next hd =>
    have := dstep_frame hv
    refine ⟨?_, fun h0 => by simp [hd] at h0⟩
    rw [this, hu]
  · have := qstep_frame hv
    refine ⟨?_, fun h0 => ?_⟩
    · rw [this, hu]
    · rw [this]; exact hp h0

/-- A scan over a grid that is not empty ends at (0, H). -/
theorem quantBody_position {c : Config} {f : Variant} {s t : State} (hw : 0 < s.W) (h : quantBody c f s = .ok t) :
    t.xpos = 0#16 ∧ t.ypos = s.height := by
  obtain ⟨p, _⟩ := scan_counted (J := fun _ _ => True)
    (fun i u v hi p _ hv => ⟨quantStep_atPixel hi p hv, trivial⟩) hw (Nat.zero_add _) (atPixel_start s) trivial h
  have := (quantBody_frame h).1
  exact ⟨(p.finished hw).1, by rw [(p.finished hw).2, this]⟩

/-- Everything `QUANT` can answer (41_dither.md R121). -/
theorem quant_ok {c : Config} {s t : State} (h : quant c s = .ok t) :
    (∃ k info, t = raise k info s ∧ (k = .invalidPaletteFormat ∨ k = .unsupportedGridDimensions)) ∨
      ∃ f, variantOf s.format = some f ∧ s.badDims c false = false ∧ quantBody c f s = .ok t := by
  rcases withFormat_ok h with ⟨_, rfl⟩ | ⟨f, hf, h⟩
  · exact .inl ⟨_, _, rfl, .inl rfl⟩
  · rcases withDims_ok h with ⟨_, rfl⟩ | ⟨hb, h⟩
    · exact .inl ⟨_, _, rfl, .inr rfl⟩
    · exact .inr ⟨f, hf, hb, h⟩

end Sys2Proof.Machine
end

