-- ==== Sys2Proof/Laws/Pack.lean ====
section
/-! SUPPORT. Spec lemmas of the Bit Packer: what `PACKB`, the packing loop, `PACK` and `CONVERT` answer. -/

namespace Sys2Proof.Machine

/-- The packed byte as a number (43_pack.md R151): the four shifted codes do not overlap. -/
theorem toNat_append2 (n m : Nat) (a : BitVec n) (b : BitVec m) : (a ++ b).toNat = a.toNat * 2 ^ m + b.toNat := by
  rw [BitVec.toNat_append, ← Nat.shiftLeft_add_eq_or_of_lt b.isLt, Nat.shiftLeft_eq]

/-- Everything one `PACKB` can answer (43_pack.md R151). -/
theorem packb_ok_iff {s t : State} :
    packb s = .ok t ↔ ∃ k0 k1 k2 k3, s.idx.read (4 * s.optr.toNat) = some k0 ∧
      s.idx.read (4 * s.optr.toNat + 1) = some k1 ∧ s.idx.read (4 * s.optr.toNat + 2) = some k2 ∧
      s.idx.read (4 * s.optr.toNat + 3) = some k3 ∧
      t = { s with out := s.out.write s.optr.toNat (packByte k0 k1 k2 k3), optr := s.optr + 1#32 } := by
  simp only [packb, bind_ok_iff, readIdx_ok_iff, pure_ok, Except.ok.injEq]
  constructor
  · rintro ⟨k0, h0, k1, h1, k2, h2, k3, h3, rfl⟩; exact ⟨k0, k1, k2, k3, h0, h1, h2, h3, rfl⟩
  · rintro ⟨k0, k1, k2, k3, h0, h1, h2, h3, rfl⟩; exact ⟨k0, h0, k1, h1, k2, h2, k3, h3, rfl⟩

theorem packLoop_succ (n : Nat) (s : State) :
    packLoop (n + 1) s = if s.optr.toNat < s.W * s.H / 4 then packb s >>= packLoop n else .ok s := rfl

/-- The rule of the packing loop: what one turn keeps, the loop keeps. -/
theorem packLoop_keeps {I : State → Prop}
    (turn : ∀ s t, I s → s.optr.toNat < s.W * s.H / 4 → packb s = .ok t → I t) :
    ∀ {n : Nat} {s t : State}, I s → packLoop n s = .ok t → I t := by
  intro n
  induction n with
  | zero => intro s t hs h; simp only [packLoop, Except.ok.injEq] at h; exact h ▸ hs
  | succ n ih =>
    intro s t hs h
    rw [packLoop_succ] at h
    split at h
    · next hj =>
      obtain ⟨u, hu, ht⟩ := bind_ok_iff.1 h
      exact ih (turn s u hs hj hu) ht
    · simp only [Except.ok.injEq] at h; exact h ▸ hs

/-- The frame of the packing loop: `OUT` and `OPTR` only. -/
theorem packBody_frame {s t : State} (h : packBody s = .ok t) : t = { s with out := t.out, optr := t.optr } := by
  refine packLoop_keeps (I := fun u => u = { s with out := u.out, optr := u.optr }) ?_ (s := { s with optr := 0#32 }) rfl h
  rintro u v hu _ hv
  obtain ⟨k0, k1, k2, k3, _, _, _, _, rfl⟩ := packb_ok_iff.1 hv
  rw [hu]

/-- Everything `PACK` can answer (43_pack.md R150). -/
theorem pack_ok {c : Config} {s t : State} (h : pack c s = .ok t) :
    (s.badDims c true = true ∧ t = raise .unsupportedGridDimensions s.dimsInfo s) ∨
      (s.badDims c true = false ∧ packBody s = .ok t) := withDims_ok h

/-- Everything `CONVERT` can answer (43_pack.md R154). -/
theorem convert_ok {c : Config} {s t : State} (h : convert c s = .ok t) :
    (∃ k info, t = raise k info s ∧ (k = .invalidPaletteFormat ∨ k = .unsupportedGridDimensions)) ∨
      ∃ f u, variantOf s.format = some f ∧ s.badDims c true = false ∧ quantBody c f s = .ok u ∧ packBody u = .ok t := by
  rcases withFormat_ok h with ⟨_, rfl⟩ | ⟨f, hf, h⟩
  · exact .inl ⟨_, _, rfl, .inl rfl⟩
  · rcases withDims_ok h with ⟨_, rfl⟩ | ⟨hb, h⟩
    · exact .inl ⟨_, _, rfl, .inr rfl⟩
    · obtain ⟨u, hu, ht⟩ := bind_ok_iff.1 h
      exact .inr ⟨f, u, hf, hb, hu, ht⟩

end Sys2Proof.Machine
end

