-- ==== Sys2Proof/Laws/Step.lean ====
section
/-! SUPPORT. What a step can do: the cases of a command write, of a transaction and of a host access, each said once. -/

namespace Sys2Proof.Machine

theorem step_idle {s : State} (h : s.inbox = []) : step s = .next s := by simp [step, takeAccess, h]

/-- A step with an access pending takes it. -/
theorem step_pending {s : State} {op : BusOp} {rest : List BusOp} (h : s.inbox = op :: rest) :
    step s = busAccess Config.hw op { s with inbox := rest } := by simp [step, takeAccess, h]

theorem busAddr_port (p : BitVec 4) (i : Index) : portOf (busAddr p i) = p := by
  apply BitVec.eq_of_toNat_eq
  have h1 := p.isLt
  have h2 := i.isLt
  rw [portOf, busAddr, BitVec.extractLsb'_toNat, toNat_append2, Nat.shiftRight_eq_div_pow]
  omega

theorem busAddr_index (p : BitVec 4) (i : Index) : indexOf (busAddr p i) = i := by
  apply BitVec.eq_of_toNat_eq
  have h2 := i.isLt
  rw [indexOf, busAddr, BitVec.extractLsb'_toNat, toNat_append2, Nat.shiftRight_eq_div_pow]
  omega

/-- Every word address is the address of its port and index. -/
theorem busAddr_portOf_indexOf (a : BusAddr) : busAddr (portOf a) (indexOf a) = a := by
  unfold portOf indexOf busAddr
  apply BitVec.eq_of_toNat_eq
  have := a.isLt
  rw [toNat_append2, BitVec.extractLsb'_toNat, BitVec.extractLsb'_toNat, Nat.shiftRight_eq_div_pow]
  simp; omega

/-- The access that carries a transaction decodes to it. -/
@[simp] theorem busDecode_busEncode (t : Txn) : busDecode (busEncode t) = some t := by
  cases t <;> simp [busEncode, busDecode, busAddr_port, busAddr_index]

/-- An access that decodes to a transaction is the one that carries it. -/
theorem eq_busEncode {op : BusOp} {t : Txn} (h : busDecode op = some t) : op = busEncode t := by
  have key : ∀ (a : BusAddr) (n : Nat), (portOf a).toNat = n → a = busAddr (BitVec.ofNat 4 n) (indexOf a) := by
    intro a n hn
    conv_lhs => rw [← busAddr_portOf_indexOf a]
    rw [← hn, BitVec.ofNat_toNat, BitVec.setWidth_eq]
  cases op <;> simp only [busDecode] at h <;> split at h <;> simp only [Option.some.injEq, reduceCtorEq] at h <;> subst h <;>
    simp only [busEncode] <;> next e => conv_lhs => rw [key _ _ e]

/-- A step that takes the access of a transaction performs the transaction. -/
theorem step_txn {s : State} {t : Txn} {rest : List BusOp} (h : s.inbox = busEncode t :: rest) :
    step s = transact Config.hw t { s with inbox := rest } := by simp [step_pending h, busAccess]

/-- The write of a word to `CMD`. -/
theorem step_command {s : State} {v : Word} {rest : List BusOp} (h : s.inbox = .write cmdAddr v :: rest) :
    step s = runCommand v { s with inbox := rest } := step_txn (t := .regWrite 3#24 v) h

/-- A word that decodes is executed unless the block is faulted and the command is not `RESET` (30_encoding.md R84). -/
theorem runCommand_decoded {v : Word} {i : Instr} (h : decode v = .ok i) (s : State) :
    runCommand v s = if i = .reset ∨ s.faulted = false then exec i s else .next s := by simp [runCommand, h]

/-- A word that does not decode raises `IllegalCommand` unless the block is faulted (30_encoding.md R83). -/
theorem runCommand_illegal {v : Word} {e : DecodeReject} (h : decode v = .error e) (s : State) :
    runCommand v s = if s.faulted then .next s else .next (raise .illegalCommand v s) := by simp [runCommand, h]

theorem faulted_eq_false {s : State} : s.faulted = false ↔ s.err = 0#3 := by simp [State.faulted]

theorem faulted_eq_true {s : State} : s.faulted = true ↔ s.err ≠ 0#3 := by simp [State.faulted]

/-- Everything a write to `CMD` can answer. -/
theorem runCommand_next {v : Word} {s t : State} (h : runCommand v s = .next t) :
    (∃ i, decode v = .ok i ∧ (i = .reset ∨ s.err = 0#3) ∧ exec i s = .next t) ∨
      t = s ∨ (s.err = 0#3 ∧ t = raise .illegalCommand v s) := by
  cases hd : decode v with
  | ok i =>
    rw [runCommand_decoded hd] at h
    split at h
    · next hc => exact .inl ⟨i, rfl, hc.imp id faulted_eq_false.1, h⟩
    · simp only [Host.Outcome.next.injEq] at h; exact .inr (.inl h.symm)
  | error e =>
    rw [runCommand_illegal hd] at h
    split at h
    · simp only [Host.Outcome.next.injEq] at h; exact .inr (.inl h.symm)
    · next hc =>
      simp only [Host.Outcome.next.injEq] at h
      exact .inr (.inr ⟨faulted_eq_false.1 (by simpa using hc), h.symm⟩)

/-- Everything a read access can answer: one data word for the host, and nothing else changes (20_memory.md R64). -/
theorem busAccess_read_next {c : Config} {a : BusAddr} {s t : State} (h : busAccess c (.read a) s = .next t) :
    ∃ v, t = reply v s := by
  cases hd : busDecode (.read a) with
  | none => simp only [busAccess, hd, Host.Outcome.next.injEq] at h; exact ⟨_, h.symm⟩
  | some x =>
    simp only [busAccess, hd] at h
    have he := eq_busEncode hd
    cases x with
    | regRead n => simp only [transact, Host.Outcome.next.injEq] at h; exact ⟨_, h.symm⟩
    | pixRead i => simp only [transact, Host.Outcome.next.injEq] at h; exact ⟨_, h.symm⟩
    | idxRead i =>
      simp only [transact] at h
      split at h
      · obtain ⟨k, _, ht⟩ := bind_ok_iff.1 (finish_next_iff.1 h)
        simp only [Except.ok.injEq] at ht; exact ⟨_, ht.symm⟩
      · simp only [Host.Outcome.next.injEq] at h; exact ⟨_, h.symm⟩
    | outRead j =>
      simp only [transact] at h
      split at h
      · obtain ⟨b, _, ht⟩ := bind_ok_iff.1 (finish_next_iff.1 h)
        simp only [Except.ok.injEq] at ht; exact ⟨_, ht.symm⟩
      · simp only [Host.Outcome.next.injEq] at h; exact ⟨_, h.symm⟩
    | regWrite n w => simp [busEncode] at he
    | pixWrite i w => simp [busEncode] at he
    | idxWrite i w => simp [busEncode] at he
    | outWrite j w => simp [busEncode] at he

/-- A write to a configuration or operand register: the fields it may change (20_memory.md R54). -/
inductive RegisterStore (c : Config) (v : Word) (s : State) : State → Prop
  | ignored : RegisterStore c v s s
  | cfg : RegisterStore c v s { s with dither := v.getLsbD 0, format := v.extractLsb' 1 2 }
  | width : RegisterStore c v s { s with width := dimOfWord c v }
  | height : RegisterStore c v s { s with height := dimOfWord c v }
  | cr : RegisterStore c v s { s with cr := v }
  | cg : RegisterStore c v s { s with cg := v }
  | cb : RegisterStore c v s { s with cb := v }

/-- Everything a write access can answer: a command, one element of `PIX` or `IDX`, or a register (20_memory.md R54 to
R59). -/
theorem busAccess_write_next {c : Config} {a : BusAddr} {v : Word} {s t : State}
    (h : busAccess c (.write a v) s = .next t) :
    (a = cmdAddr ∧ runCommand v s = .next t) ∨
      (∃ i, BusOp.write a v = busEncode (.pixWrite i v) ∧ i.toNat < c.maxPix ∧ t = s.writePix i.toNat (pixelOfWord c v)) ∨
      (∃ i, BusOp.write a v = busEncode (.idxWrite i v) ∧ i.toNat < c.maxPix ∧
        t = s.writeIdx i.toNat (codeOfWord c v)) ∨
      RegisterStore c v s t := by
  cases hd : busDecode (.write a v) with
  | none =>
    simp only [busAccess, hd, Host.Outcome.next.injEq] at h
    exact .inr (.inr (.inr (h ▸ .ignored)))
  | some x =>
    simp only [busAccess, hd] at h
    have he := eq_busEncode hd
    cases x with
    | regWrite n w =>
      simp only [busEncode, BusOp.write.injEq] at he
      obtain ⟨ha, rfl⟩ := he
      simp only [transact, writeReg] at h
      split at h
      · simp only [Host.Outcome.next.injEq] at h; exact .inr (.inr (.inr (h ▸ .cfg)))
      · simp only [Host.Outcome.next.injEq] at h; exact .inr (.inr (.inr (h ▸ .width)))
      · simp only [Host.Outcome.next.injEq] at h; exact .inr (.inr (.inr (h ▸ .height)))
      · next e => exact .inl ⟨by rw [ha, cmdAddr]; congr 1; exact BitVec.eq_of_toNat_eq e, h⟩
      · simp only [Host.Outcome.next.injEq] at h; exact .inr (.inr (.inr (h ▸ .cr)))
      · simp only [Host.Outcome.next.injEq] at h; exact .inr (.inr (.inr (h ▸ .cg)))
      · simp only [Host.Outcome.next.injEq] at h; exact .inr (.inr (.inr (h ▸ .cb)))
      · simp only [Host.Outcome.next.injEq] at h; exact .inr (.inr (.inr (h ▸ .ignored)))
    | pixWrite i w =>
      obtain rfl : v = w := by simp only [busEncode, BusOp.write.injEq] at he; exact he.2
      simp only [transact, Host.Outcome.next.injEq] at h
      split at h
      · next hi => exact .inr (.inl ⟨i, he, hi, h.symm⟩)
      · exact .inr (.inr (.inr (h ▸ .ignored)))
    | idxWrite i w =>
      obtain rfl : v = w := by simp only [busEncode, BusOp.write.injEq] at he; exact he.2
      simp only [transact, Host.Outcome.next.injEq] at h
      split at h
      · next hi => exact .inr (.inr (.inl ⟨i, he, hi, h.symm⟩))
      · exact .inr (.inr (.inr (h ▸ .ignored)))
    | outWrite j w =>
      simp only [transact, Host.Outcome.next.injEq] at h
      exact .inr (.inr (.inr (h ▸ .ignored)))
    | regRead n => simp [busEncode] at he
    | pixRead i => simp [busEncode] at he
    | idxRead i => simp [busEncode] at he
    | outRead j => simp [busEncode] at he

/-- Everything a command can answer: `RESET`'s registers, a fault raised and nothing else, or the command's own effect within
its frame. -/
theorem exec_next {i : Instr} {s t : State} (h : exec i s = .next t) :
    (i = .reset ∧ t = resetRegisters Config.hw s) ∨
      (∃ k info, t = raise k info s ∧ (k = .invalidPaletteFormat ∨ k = .unsupportedGridDimensions)) ∨
      (i = .classify ∧ t = { s with result := t.result }) ∨
      (i = .quant ∧ t = { s with pix := t.pix, idx := t.idx, xpos := t.xpos, ypos := t.ypos } ∧
        (s.dither = false → t.pix = s.pix)) ∨
      (i = .pack ∧ t = { s with out := t.out, optr := t.optr }) ∨
      (i = .convert ∧
        t = { s with pix := t.pix, idx := t.idx, xpos := t.xpos, ypos := t.ypos, out := t.out, optr := t.optr } ∧
        (s.dither = false → t.pix = s.pix)) := by
  cases i with
  | reset => simp only [exec, execReset, Host.Outcome.next.injEq] at h; exact .inl ⟨rfl, h.symm⟩
  | classify =>
    rcases classify_ok (finish_next_iff.1 h) with ⟨_, h⟩ | ⟨f, k, _, _, rfl⟩
    · exact .inr (.inl ⟨_, _, h, .inl rfl⟩)
    · exact .inr (.inr (.inl ⟨rfl, rfl⟩))
  | quant =>
    rcases quant_ok (finish_next_iff.1 h) with h | ⟨f, _, _, h⟩
    · exact .inr (.inl h)
    · exact .inr (.inr (.inr (.inl ⟨rfl, quantBody_frame h⟩)))
  | pack =>
    rcases pack_ok (finish_next_iff.1 h) with ⟨_, h⟩ | ⟨_, h⟩
    · exact .inr (.inl ⟨_, _, h, .inr rfl⟩)
    · exact .inr (.inr (.inr (.inr (.inl ⟨rfl, packBody_frame h⟩))))
  | convert =>
    rcases convert_ok (finish_next_iff.1 h) with h | ⟨f, u, _, _, hu, ht⟩
    · exact .inr (.inl h)
    · refine .inr (.inr (.inr (.inr (.inr ⟨rfl, ?_⟩))))
      have h1 := packBody_frame ht
      obtain ⟨h2, h3⟩ := quantBody_frame hu
      rw [h2] at h1
      exact ⟨by rw [h1], fun hd => by rw [h1]; exact h3 hd⟩

end Sys2Proof.Machine
end

