-- ==== Sys2Proof/Laws/HostFormats.lean ====
section
/-! SUPPORT. Spec lemmas of the host's scripts: one access per element, the configuration's write, and the whole script of a
conversion (44_host_formats.md R171, R174). -/

namespace Sys2Proof.Machine

/-! ### One access per element -/

theorem perElement_far {α : Type} {access : Index → α → BusOp} {l : List α} (h : 2 ^ 24 < l.length) :
    perElement access l = .error .beyondThePort := if_neg (by omega)

/-- Element `i` of the list is carried by access `i`, at index `i`. -/
theorem perElement_near {α : Type} (access : Index → α → BusOp) {l : List α} (h : l.length ≤ 2 ^ 24) :
    ∃ ops, perElement access l = .ok ops ∧ ops.length = l.length ∧
      ∀ (i : Nat) (a : α), l[i]? = some a → ops[i]? = some (access (BitVec.ofNat 24 i) a) :=
  ⟨_, if_pos h, by simp, fun i a ha => by simp [List.getElem?_zipIdx, ha]⟩

theorem perIndex_near (access : Index → BusOp) {n : Nat} (h : n ≤ 2 ^ 24) :
    ∃ ops, perIndex access n = .ok ops ∧ ops.length = n ∧
      ∀ i, i < n → ops[i]? = some (access (BitVec.ofNat 24 i)) := by
  obtain ⟨ops, h1, h2, h3⟩ := perElement_near (fun i (_ : Unit) => access i) (l := List.replicate n ()) (by simpa using h)
  exact ⟨ops, h1, by simpa using h2, fun i hi => h3 i () (by simp [hi])⟩

/-! ### The host's configuration -/

@[simp] theorem variantOfName_bwry : variantOfName "bwry" = some .bwry := by simp [variantOfName]

@[simp] theorem variantOfName_bwr : variantOfName "bwr" = some .bwr := by simp [variantOfName]

theorem variantOfName_other {name : String} (h1 : name ≠ "bwry") (h2 : name ≠ "bwr") : variantOfName name = none := by
  simp [variantOfName, h1, h2]

/-- The configuration's script is one write of `CFG`, or the host's own report. -/
theorem HostConfig.script_ok_iff {course : FormatCourse} {cfg : HostConfig} {ops : List BusOp} :
    cfg.script course = .ok ops ↔
      ∃ f, selectorOfName course cfg.format = .ok f ∧ ops = [hostWr 0#24 (selectorWord cfg.dither f)] := by
  rw [HostConfig.script, bind_ok_iff]
  simp only [pure_ok, Except.ok.injEq, eq_comm]

/-! ### The scripts of a conversion -/

theorem conversionScript_wrong {start : Start} {course : FormatCourse} {cfg : HostConfig} {configure : List BusOp}
    {w h : BitVec 16} {pixels : List (Byte × Byte × Byte)} {run : Run} (hc : cfg.script course = .ok configure)
    (hl : pixels.length ≠ w.toNat * h.toNat) :
    conversionScript start course cfg w h pixels run = .error .wrongPixelCount := by
  simp [conversionScript, hc, hl]

/-- With exactly `W * H` pixels the script is the loader's hand-over between the registers and the commands. -/
theorem conversionScript_right {start : Start} {course : FormatCourse} {cfg : HostConfig} {configure : List BusOp}
    {w h : BitVec 16} {pixels : List (Byte × Byte × Byte)} {run : Run} (hc : cfg.script course = .ok configure)
    (hl : pixels.length = w.toNat * h.toNat) :
    conversionScript start course cfg w h pixels run =
      (hostLoad pixels).map fun load =>
        start.script ++ configure ++ hostDims w h ++ load ++ run.commands.map hostCmd ++ [hostRd 4#24] := by
  simp only [conversionScript, hc, hl, if_true, ok_bind]
  cases hostLoad pixels <;> rfl

theorem fetchScript_faulted {s : State} (h : s.err ≠ 0#3) : s.fetchScript = .error .conversionFaulted :=
  if_pos (faulted_eq_true.2 h)

theorem fetchScript_clear {s : State} (h : s.err = 0#3) : s.fetchScript = perIndex hostOut s.optr.toNat :=
  if_neg (by simp [faulted_eq_false.2 h])

theorem rawFile_faulted {s : State} (h : s.err ≠ 0#3) : s.rawFile = none := if_pos (faulted_eq_true.2 h)

theorem indexFetchScript_faulted {s : State} (h : s.err ≠ 0#3) : s.indexFetchScript = .error .conversionFaulted :=
  if_pos (faulted_eq_true.2 h)

theorem indexFetchScript_clear {s : State} (h : s.err = 0#3) : s.indexFetchScript = perIndex hostIdxr (s.W * s.H) :=
  if_neg (by simp [faulted_eq_false.2 h])

theorem indexGrid_faulted {s : State} (h : s.err ≠ 0#3) : s.indexGrid = none := if_pos (faulted_eq_true.2 h)

theorem indexGrid_clear {s : State} (h : s.err = 0#3) :
    s.indexGrid = (List.range (s.W * s.H)).mapM fun i => s.idx.read i := if_neg (by simp [faulted_eq_false.2 h])

end Sys2Proof.Machine
end

