-- ==== Sys2Proof/Laws/PerInstr.lean ====
section
/-! SUPPORT. The family `RoundTrip` of statements made per command: the decoder reads back each command from the word the
encoder writes (30_encoding.md R80, R82), one lemma per constructor. -/

namespace Sys2Proof.Laws.RoundTrip

/-- Decoding the encoding of a well-formed command gives the command back. -/
def Statement (i : Instr) : Prop := i.wf = true → decode (encode i) = .ok i

theorem reset : Statement .reset := fun _ => rfl

theorem classify : Statement .classify := fun _ => rfl

theorem quant : Statement .quant := fun _ => rfl

theorem pack : Statement .pack := fun _ => rfl

theorem convert : Statement .convert := fun _ => rfl

end Sys2Proof.Laws.RoundTrip
end

