-- ==== Sys2Proof/Tests/Slice0.lean ====
section
/-! SUPPORT. The model's own tests: ill-formed configurations that the check refuses, command words written out bit by bit
from 30_encoding.md R80 and R82, one-step tests whose expected results are the vectors of 95_test_vectors.md, and for every
statement with hypotheses a witness that meets them, at the boundary of each of its clauses. -/

namespace Sys2Proof.Tests

open Sys2Proof.Machine

/-! ### Well-formedness: one ill-formed configuration per check -/

theorem test_hw_config_is_legal : Config.hw.wf = true := by decide

theorem test_commands_are_well_formed :
    Instr.wf .reset && Instr.wf .classify && Instr.wf .quant && Instr.wf .pack && Instr.wf .convert = true := rfl

/-- R6: `1 <= MAXPIX`. -/
theorem test_capacity_zero_refused : { Config.hw with maxPix := 0 }.wf = false := by decide

/-- R6: `MAXPIX <= 2^24`. -/
theorem test_capacity_above_address_map_refused : { Config.hw with maxPix := 16777217 }.wf = false := by decide

/-- Open parameters of 92_eei_decisions.md: the reset dimensions are fixed. -/
theorem test_reset_dims_refused : { Config.hw with wReset := 201#16 }.wf = false := by decide

/-- R6: index codes have 2 bits. -/
theorem test_code_width_refused : { Config.hw with codeBits := 3 }.wf = false := by decide

/-- R6: samples have 8 bits. -/
theorem test_sample_width_refused : { Config.hw with sampleBits := 7 }.wf = false := by decide

/-- R6: the dimension registers have 16 bits. -/
theorem test_dimension_width_refused : { Config.hw with dimBits := 17 }.wf = false := by decide

/-- R30: "bwry" has four entries. -/
theorem test_palette_size_refused : { Config.hw with bwry := Config.hw.bwr }.wf = false := by decide

/-- R30: code 0 is black. -/
theorem test_palette_black_first_refused :
    { Config.hw with bwr := ⟨⟨.black, 0, 0, 1⟩, Config.hw.bwr.others⟩ }.wf = false := by decide

/-- R30: a channel is a byte. -/
theorem test_palette_channel_refused :
    { Config.hw with bwr := ⟨⟨.black, 0, 0, 0⟩, [⟨.white, 256, 255, 255⟩, ⟨.red, 255, 0, 0⟩]⟩ }.wf = false := by decide

/-- R30: a name stands once in a palette. -/
theorem test_palette_names_refused :
    { Config.hw with bwr := ⟨⟨.black, 0, 0, 0⟩, [⟨.white, 255, 255, 255⟩, ⟨.white, 255, 0, 0⟩]⟩ }.wf = false := by decide

/-! ### Decoding: words written out from the format `MBZ[31:8] || OP[7:0]` -/

theorem test_decode_reset : decode (0b000000000000000000000000#24 ++ 0b00000001#8) = .ok .reset := rfl
theorem test_decode_classify : decode (0b000000000000000000000000#24 ++ 0b00000010#8) = .ok .classify := rfl
theorem test_decode_quant : decode (0b000000000000000000000000#24 ++ 0b00000011#8) = .ok .quant := rfl
theorem test_decode_pack : decode (0b000000000000000000000000#24 ++ 0b00000100#8) = .ok .pack := rfl
theorem test_decode_convert : decode (0b000000000000000000000000#24 ++ 0b00000101#8) = .ok .convert := rfl

/-- V69: words that are no command, each rejected with its reason. -/
theorem test_decode_rejects :
    decode 0x00000000#32 = .error (.unknownOpcode 0x00#8) ∧ decode 0x00000006#32 = .error (.unknownOpcode 0x06#8) ∧
      decode 0x00000103#32 = .error (.nonZeroMbz 0x000001#24) ∧ decode 0x80000001#32 = .error (.nonZeroMbz 0x800000#24) ∧
      decode 0xFFFFFFFF#32 = .error (.nonZeroMbz 0xFFFFFF#24) := by decide

/-- The table test of R82: no word selects two rows, because the patterns differ under a full mask. -/
theorem test_rows_do_not_overlap : opcodeTable.Pairwise fun a b => a.pattern &&& b.mask ≠ b.pattern := by decide

theorem test_table_word : decodeTableWord 32 3 = some .quant ∧ decodeTableWord 32 0x103 = none ∧
    decodeTableWord 8 0x105 = some .convert := by decide

/-! ### States for the tests -/

/-- The reset state with one host access pending. -/
abbrev hostDoes (op : BusOp) : State := { State.reset with inbox := [op] }

/-- A loaded grid: dimensions, pixels and index codes in memory order. -/
def grid (w h : BitVec 16) (ps : List Pixel) (ks : List Code) : State :=
  { State.reset with
    width := w, height := h
    pix := (List.range ps.length).zip ps, idx := (List.range ks.length).zip ks }

/-- A pixel whose three channels are equal. -/
def grey (q : Rat) : Pixel := ⟨q, q, q⟩

/-- The state after a step or a command that went on. -/
def nextOf : Host.Outcome State Fault Refusal → Option State
  | .next t => some t
  | .fault _ => none
  | .refused _ => none

theorem eq_next_of {o : Host.Outcome State Fault Refusal} {t : State} (h : nextOf o = some t) : o = .next t := by
  cases o <;> simp_all [nextOf]

/-- A computed check on the next state is a fact about it. -/
theorem exists_next {o : Host.Outcome State Fault Refusal} {p : State → Prop} [DecidablePred p]
    (h : (nextOf o).any (fun t => decide (p t)) = true) : ∃ t, o = .next t ∧ p t := by
  cases o with
  | next t => exact ⟨t, rfl, by simpa [nextOf] using h⟩
  | fault f => simp [nextOf] at h
  | refused r => simp [nextOf] at h

/-! ### One-step tests: the vectors of 95_test_vectors.md -/

/-- V71: `RESET` clears the fault and restores the registers; the memories stay. -/
theorem test_reset_returns_from_fault :
    exec .reset { grid 8#16 1#16 [] [2#2] with err := 2#3, errInfo := 0x00010006#32, result := 3#2 } =
      .next { State.reset with idx := [(0, 2#2)] } := rfl

/-- The first worked example of 40_classify.md R104. -/
theorem test_classify_example :
    ∃ t, exec .classify { State.reset with cr := 200#32, cg := 100#32, cb := 50#32 } = .next t ∧ t.result = 3#2 :=
  exists_next (by decide +kernel)

/-- 40_classify.md R102's example: a negative operand is not clamped. -/
theorem test_classify_negative_operand :
    ∃ t, exec .classify { State.reset with cr := 0xFFFFFFF6#32, cg := 300#32, cb := 0#32 } = .next t ∧ t.result = 2#2 :=
  exists_next (by decide +kernel)

/-- V20: the grey 2 by 2 grid with dithering; the end position and every value. -/
theorem test_quant_grey_two_by_two :
    ∃ t, exec .quant (grid 2#16 2#16 (List.replicate 4 (grey 128)) []) = .next t ∧
      t.idx = [(0, 1#2), (1, 0#2), (2, 0#2), (3, 1#2)] ∧
      t.pix = [(0, grey 128), (1, grey (1159 / 16)), (2, grey (26085 / 256)), (3, grey (767091 / 4096))] ∧
      t.xpos = 0#16 ∧ t.ypos = 2#16 :=
  exists_next (by decide +kernel)

/-- V32: the same grid without dithering; the pixels stay. -/
theorem test_quant_without_dithering :
    ∃ t, exec .quant { grid 2#16 2#16 (List.replicate 4 (grey 128)) [] with dither := false } = .next t ∧
      t.idx = [(0, 1#2), (1, 1#2), (2, 1#2), (3, 1#2)] ∧ t.pix = [(0, grey 128), (1, grey 128), (2, grey 128), (3, grey 128)] :=
  exists_next (by decide +kernel)

/-- V42: four packed bytes, first pixel in the top bits. -/
theorem test_pack_eight_by_two :
    ∃ t, exec .pack (grid 8#16 2#16 [] [0, 1, 2, 3, 3, 2, 1, 0, 1, 1, 2, 2, 3, 3, 0, 0]) = .next t ∧
      t.out = [(0, 0x1B#8), (1, 0xE4#8), (2, 0x5A#8), (3, 0xF0#8)] ∧ t.optr = 4#32 :=
  exists_next (by decide +kernel)

/-- V60: a width that is no multiple of 4 is a fault of `PACK`. -/
theorem test_pack_bad_width : exec .pack (grid 6#16 1#16 [] []) =
    .next { grid 6#16 1#16 [] [] with err := 2#3, errInfo := 0x00010006#32 } := rfl

/-- V50: the orange 4 by 2 grid, converted in one command. -/
theorem test_convert_orange :
    ∃ t, exec .convert (grid 4#16 2#16 (List.replicate 8 ⟨255, 128, 0⟩) []) = .next t ∧
      t.out = [(0, 0xBB#8), (1, 0xEE#8)] ∧ t.optr = 2#32 ∧ t.xpos = 0#16 ∧ t.ypos = 2#16 :=
  exists_next (by decide +kernel)

/-- V68: the format is checked before the dimensions. -/
theorem test_convert_priority : exec .convert { grid 0#16 0#16 [] [] with format := 3#2 } =
    .next { grid 0#16 0#16 [] [] with format := 3#2, err := 1#3, errInfo := 3#32 } := rfl

/-- V31, its first rounding: the product and the sum of the red and blue channels of pixel 12. -/
theorem test_rounding_of_vector_31 :
    rnd (mkRat (-1720040272032225) (2 ^ 44) * K7) = mkRat (-1505035238028197) (2 ^ 45) ∧
      rnd (mkRat 5472855411011625 (2 ^ 47) + 50) = mkRat 1563716228597253 (2 ^ 44) := by decide +kernel

/-- Script lines of program P1 in their bus form (30_encoding.md R89, R90). -/
theorem test_script_lines :
    hostCmd .reset = .write 0x0000003#28 0x00000001#32 ∧
      hostDims 4#16 1#16 = [.write 0x0000001#28 0x00000004#32, .write 0x0000002#28 0x00000001#32] ∧
      hostIdxw 3#24 3#2 = .write 0x2000003#28 0x00000003#32 ∧ hostPix 5#24 255#8 128#8 0#8 = .write 0x1000005#28 0x00FF8000#32 ∧
      hostOut 0#24 = .read 0x3000000#28 ∧ hostCfg true .bwry = [.write 0x0000000#28 1#32] := by decide

/-- R171: a grid of one pixel, by both courses and from both starts. -/
theorem test_conversion_scripts :
    conversionScript .reset .report {} 1#16 1#16 [(255, 128, 0)] .convert =
        .ok [.write 0x0000003#28 1#32, .write 0x0000000#28 1#32, .write 0x0000001#28 1#32, .write 0x0000002#28 1#32,
          .write 0x1000000#28 0x00FF8000#32, .write 0x0000003#28 5#32, .read 0x0000004#28] ∧
      conversionScript .known .passTwo { format := "mono" } 1#16 1#16 [(0, 0, 0)] .quantThenPack =
        .ok [.write 0x0000000#28 5#32, .write 0x0000001#28 1#32, .write 0x0000002#28 1#32, .write 0x1000000#28 0#32,
          .write 0x0000003#28 3#32, .write 0x0000003#28 4#32, .read 0x0000004#28] := by decide

/-- R175 with R172: three one-row bands of the 3-colour pattern, through `PACK` and as an indexed image. -/
theorem test_stripe_scripts :
    stripePackScript .known Config.hw .bwr 1#16 3#16 =
        .ok [.write 0x0000001#28 1#32, .write 0x0000002#28 3#32, .write 0x2000000#28 0#32, .write 0x2000001#28 1#32,
          .write 0x2000002#28 2#32, .write 0x0000003#28 4#32, .read 0x0000004#28] ∧
      (stripeImage Config.hw .bwr 1 3).map (·.bytes) = some [0, 1, 2] ∧
      stripePackScript .known Config.hw .bwry 1#16 3#16 = .error .noPattern := by decide

/-! ### Witnesses: for every statement with hypotheses, states and operands that meet them, clause by clause -/

/-- A block with the fault of V60. -/
abbrev faultedBlock : State := { State.reset with err := 2#3, errInfo := 0x00010006#32 }

theorem witness_DecodeAndEncodeAgree : ∀ i : Instr, i.wf = true := by intro i; cases i <;> rfl

/-- The words beside the five, the least and the greatest among them, in a block without a fault and in a faulted one. -/
theorem witness_EveryOtherWordIsIllegal :
    (∀ v ∈ [0#32, 6#32, 0x103#32, 0xFFFFFFFF#32], v ≠ 1#32 ∧ v ≠ 2#32 ∧ v ≠ 3#32 ∧ v ≠ 4#32 ∧ v ≠ 5#32) ∧
      State.reset.err = 0#3 ∧ faultedBlock.err ≠ 0#3 := ⟨by simp, rfl, by decide⟩

theorem witness_CommandWriteDecodingOrder :
    (∀ v : Word, (hostDoes (.write cmdAddr v)).Pending (.write cmdAddr v) []) ∧
      State.Pending { faultedBlock with inbox := [.write cmdAddr 6#32] } (.write cmdAddr 6#32) [] := ⟨fun _ => rfl, rfl⟩

theorem witness_StepRunsTheDecodedCommand :
    ((hostDoes (.write cmdAddr 4#32)).Pending (.write cmdAddr 4#32) [] ∧ decode 4#32 = .ok .pack ∧ Instr.wf .pack = true ∧
        (hostDoes (.write cmdAddr 4#32)).err = 0#3) ∧
      (State.Pending { faultedBlock with inbox := [.write cmdAddr 1#32] } (.write cmdAddr 1#32) [] ∧
        decode 1#32 = .ok .reset) ∧
      decodeTableWord 32 5 = some .convert ∧ decodeTableWord 32 1 = some .reset := by
  refine ⟨⟨rfl, rfl, rfl, rfl⟩, ⟨rfl, rfl⟩, rfl, rfl⟩

/-- The first and the last address beyond port 3. -/
theorem witness_WordAddressMap : 0x4000000 ≤ (0x4000000#28).toNat ∧ 0x4000000 ≤ (0xFFFFFFF#28).toNat := by decide

/-- Every register number can be asked for, among them the last register, the first number beyond and the greatest. -/
theorem witness_RegisterReadReturnsTheRegister :
    (∀ n : Index, (hostDoes (busEncode (.regRead n))).Pending (busEncode (.regRead n)) []) ∧
      (12#24).toNat = 12 ∧ 13 ≤ (13#24).toNat ∧ 13 ≤ (0xFFFFFF#24).toNat := ⟨fun _ => rfl, by decide⟩

theorem witness_RegisterWriteStoresTheField :
    (∀ (n : Index) (v : Word), (hostDoes (busEncode (.regWrite n v))).Pending (busEncode (.regWrite n v)) []) ∧
      (4 ≤ (4#24).toNat ∧ (4#24).toNat ≤ 8) ∧ (4 ≤ (8#24).toNat ∧ (8#24).toNat ≤ 8) ∧ 12 ≤ (12#24).toNat ∧
      12 ≤ (0xFFFFFF#24).toNat := ⟨fun _ _ => rfl, by decide⟩

theorem witness_PixelPortLoadsSamples :
    (∀ i : Index, (hostDoes (busEncode (.pixRead i))).Pending (busEncode (.pixRead i)) []) ∧
      (∀ (i : Index) (v : Word), (hostDoes (busEncode (.pixWrite i v))).Pending (busEncode (.pixWrite i v)) []) ∧
      (39999#24).toNat < 40000 ∧ 40000 ≤ (40000#24).toNat := ⟨fun _ => rfl, fun _ _ => rfl, by decide⟩

theorem witness_IndexPortReadsAndWritesCodes :
    (State.Pending { hostDoes (busEncode (.idxRead 39999#24)) with idx := [(39999, 3#2)] } (busEncode (.idxRead 39999#24)) [] ∧
        (39999#24).toNat < 40000 ∧ Memory.read [(39999, 3#2)] (39999#24).toNat = some 3#2) ∧
      ((hostDoes (busEncode (.idxRead 40000#24))).Pending (busEncode (.idxRead 40000#24)) [] ∧ 40000 ≤ (40000#24).toNat) ∧
      ∀ (i : Index) (v : Word), (hostDoes (busEncode (.idxWrite i v))).Pending (busEncode (.idxWrite i v)) [] :=
  ⟨⟨rfl, by decide, by decide⟩, ⟨rfl, by decide⟩, fun _ _ => rfl⟩

theorem witness_OutputPortIsReadOnly :
    (State.Pending { hostDoes (busEncode (.outRead 9999#24)) with out := [(9999, 0x1B#8)] } (busEncode (.outRead 9999#24)) [] ∧
        (9999#24).toNat < 10000 ∧ Memory.read [(9999, 0x1B#8)] (9999#24).toNat = some 0x1B#8) ∧
      ((hostDoes (busEncode (.outRead 10000#24))).Pending (busEncode (.outRead 10000#24)) [] ∧ 10000 ≤ (10000#24).toNat) ∧
      ∀ (j : Index) (v : Word), (hostDoes (busEncode (.outWrite j v))).Pending (busEncode (.outWrite j v)) [] :=
  ⟨⟨rfl, by decide, by decide⟩, ⟨rfl, by decide⟩, fun _ _ => rfl⟩

theorem witness_MissingPortReadsZero :
    0x4000000 ≤ (0x4000000#28).toNat ∧ (hostDoes (.read 0x4000000#28)).Pending (.read 0x4000000#28) [] ∧
      (hostDoes (.write 0x4000000#28 1#32)).Pending (.write 0x4000000#28 1#32) [] := ⟨by decide, rfl, rfl⟩

theorem witness_HostReadOfUnwrittenElementStops :
    ((hostDoes (busEncode (.idxRead 39999#24))).Pending (busEncode (.idxRead 39999#24)) [] ∧ (39999#24).toNat < 40000 ∧
        State.reset.idx.read (39999#24).toNat = none) ∧
      (hostDoes (busEncode (.outRead 9999#24))).Pending (busEncode (.outRead 9999#24)) [] ∧ (9999#24).toNat < 10000 ∧
        State.reset.out.read (9999#24).toNat = none := ⟨⟨rfl, by decide, rfl⟩, rfl, by decide, rfl⟩

theorem witness_NoReadHasASideEffect :
    ∃ t, (hostDoes (.read 1#28)).Pending (.read 1#28) [] ∧ step (hostDoes (.read 1#28)) = .next t := ⟨_, rfl, rfl⟩

/-- A step that changes `OUT`, one that changes `IDX` by a command, one by the port, and the same for `PIX`. -/
theorem witness_MemoriesChangeOnlyByTheirWriters :
    (∃ t, step { grid 4#16 1#16 [] [0, 1, 2, 3] with inbox := [.write cmdAddr 4#32] } = .next t ∧ t.out ≠ []) ∧
      (∃ t, step { grid 1#16 1#16 [grey 0] [] with inbox := [.write cmdAddr 3#32] } = .next t ∧ t.idx ≠ []) ∧
      (∃ t, step (hostDoes (busEncode (.idxWrite 0#24 1#32))) = .next t ∧ t.idx ≠ []) ∧
      (∃ t, step { grid 2#16 1#16 [grey 1, grey 0] [] with inbox := [.write cmdAddr 3#32] } = .next t ∧
        t.pix ≠ [(0, grey 1), (1, grey 0)]) ∧
      ∃ t, step (hostDoes (busEncode (.pixWrite 0#24 1#32))) = .next t ∧ t.pix ≠ [] :=
  ⟨exists_next (by decide +kernel), exists_next (by decide +kernel), exists_next (by decide +kernel),
    exists_next (by decide +kernel), exists_next (by decide +kernel)⟩

theorem witness_AccessesDoNotDependOnTheFaultCode :
    ∃ t, (hostDoes (busEncode (.regWrite 1#24 8#32))).Pending (busEncode (.regWrite 1#24 8#32)) [] ∧
      (∀ v, busEncode (.regWrite 1#24 8#32) ≠ .write cmdAddr v) ∧
      busEncode (.regWrite 1#24 8#32) ≠ busEncode (.regRead 4#24) ∧
      busEncode (.regWrite 1#24 8#32) ≠ busEncode (.regRead 5#24) ∧
      step (hostDoes (busEncode (.regWrite 1#24 8#32))) = .next t :=
  ⟨_, rfl, fun v h => by simp [busEncode, busAddr, cmdAddr] at h, by decide, by decide, rfl⟩

/-- The conditions at their boundaries: words 0 and 6, selectors 2 and 3, a zero side, 40 004 pixels, a width of 6. -/
theorem witness_FaultConditionsAndPriority :
    State.reset.err = 0#3 ∧ (0#32).toNat < 1 ∧ 5 < (6#32).toNat ∧ 2 ≤ (2#2).toNat ∧ 2 ≤ (3#2).toNat ∧
      State.reset.format.toNat < 2 ∧ (grid 0#16 5#16 [] []).W = 0 ∧ (grid 4#16 0#16 [] []).H = 0 ∧
      40000 < (grid 40004#16 1#16 [] []).W * (grid 40004#16 1#16 [] []).H ∧ (grid 6#16 1#16 [] []).W % 4 ≠ 0 := by decide

/-- The last clause: a command that raised 1 and one that raised 2. -/
theorem witness_FaultConditionsAndPriority_raised :
    (∃ t, exec .classify { State.reset with format := 2#2 } = .next t ∧ t.err = 1#3) ∧
      ∃ t, exec .quant (grid 0#16 5#16 [] []) = .next t ∧ t.err = 2#3 := ⟨⟨_, rfl, rfl⟩, _, rfl, rfl⟩

theorem witness_FaultsArePrecise :
    (∃ t, (grid 6#16 1#16 [] []).err = 0#3 ∧ runCommand 4#32 (grid 6#16 1#16 [] []) = .next t ∧ t.err ≠ 0#3) ∧
      ∃ t, runCommand 6#32 State.reset = .next t ∧ t.err = 3#3 :=
  ⟨⟨_, rfl, rfl, by decide⟩, _, rfl, rfl⟩

theorem witness_StatusIsWrittenOnlyByRaise :
    ∃ t, Instr.pack ≠ .reset ∧ exec .pack (grid 6#16 1#16 [] []) = .next t := ⟨_, by decide, rfl⟩

theorem witness_FaultedBlockRefusesCommands :
    State.Pending { faultedBlock with inbox := [.write cmdAddr 3#32] } (.write cmdAddr 3#32) [] ∧
      faultedBlock.err ≠ 0#3 ∧ (3#32 : Word) ≠ 1#32 ∧ (0x99#32 : Word) ≠ 1#32 := ⟨rfl, by decide⟩

theorem witness_FirstFaultIsKeptUntilReset :
    (∃ t, faultedBlock.err ≠ 0#3 ∧ step { faultedBlock with inbox := [.write cmdAddr 0#32] } = .next t) ∧
      ∃ t, step { faultedBlock with inbox := [.write cmdAddr 1#32] } = .next t := ⟨⟨_, by decide, rfl⟩, _, rfl⟩

/-- The binade of 3, the carrier value 3, and an ordered pair. -/
theorem witness_RoundingFunctionOfTheSpec :
    ((2 : ℚ) ^ (1 : ℤ) ≤ |3| ∧ |(3 : ℚ)| < (2 : ℚ) ^ (1 + 1 : ℤ)) ∧ InBinary64 3 ∧ (1 : ℚ) ≤ 3 := by
  refine ⟨by norm_num, .inr ⟨3, 0, by norm_num, by norm_num, by norm_num, by norm_num, .inl ?_⟩, by norm_num⟩
  simp [pow2_eq_zpow]

theorem witness_PrimitivesRoundOnceIntoTheCarrier :
    |rnd (0 + 0)| < (2 : ℚ) ^ (1024 : ℤ) ∧ |rnd (0 - 0)| < (2 : ℚ) ^ (1024 : ℤ) ∧ |rnd (0 * 0)| < (2 : ℚ) ^ (1024 : ℤ) ∧
      |(2 : ℤ) ^ 53| ≤ 2 ^ 53 := by
  have h : (0 : ℚ) < (2 : ℚ) ^ (1024 : ℤ) := by positivity
  refine ⟨?_, ?_, ?_, by norm_num⟩ <;> simpa only [add_zero, sub_zero, mul_zero, rnd_zero, abs_zero] using h

theorem witness_ResultOutsideQIsRefused :
    ∃ a : ℚ, (2 : ℚ) ^ (1024 : ℤ) ≤ |rnd (a + a)| ∧ (2 : ℚ) ^ (1024 : ℤ) ≤ |rnd (a - -a)| ∧
      (2 : ℚ) ^ (1024 : ℤ) ≤ |rnd (a * 2)| := by
  have h : pow2 1024 ≤ absQ (rnd (pow2 1023 + pow2 1023)) ∧ pow2 1024 ≤ absQ (rnd (pow2 1023 - -pow2 1023)) ∧
      pow2 1024 ≤ absQ (rnd (pow2 1023 * 2)) := by decide +kernel
  rw [absQ_eq_abs, absQ_eq_abs, absQ_eq_abs, pow2_eq_zpow 1024] at h
  exact ⟨pow2 1023, h⟩

theorem witness_DiffusionCoefficients : (2 : ℚ) ^ (-1022 : ℤ) ≤ |16 * K7| := by
  have h : (2 : ℚ) ^ (-1022 : ℤ) ≤ 1 := zpow_le_one_of_nonpos₀ (by norm_num) (by norm_num)
  refine h.trans ?_
  norm_num [K7, Rat.mkRat_eq_div]

theorem witness_SquaredDistance :
    dist .binary64 (grey 0) ⟨.black, 0, 0, 0⟩ = .ok 0 ∧ grey 0 = ⟨(0 : Nat), (0 : Nat), (0 : Nat)⟩ := by decide +kernel

theorem witness_LawsOfNearest :
    Config.hw.wf = true ∧ (Config.hw.palette .bwry).entries[3]? = some ⟨.red, 255, 0, 0⟩ ∧
      (∀ j' < 3, ∀ p ∈ (Config.hw.palette .bwry).entries[j']?, entryPixel p ≠ entryPixel ⟨.red, 255, 0, 0⟩) ∧
      nearest Config.hw ⟨-10, 300, 0⟩ .bwry = .ok 2#2 := by decide +kernel

/-- Both formats, and the two selectors that are no format. -/
theorem witness_ClassifyWritesTheNearestCode :
    State.reset.Selects .bwry ∧ State.Selects { State.reset with format := 1#2 } .bwr ∧ 2 ≤ (2#2).toNat ∧
      2 ≤ (3#2).toNat := ⟨.inl ⟨rfl, rfl⟩, .inr ⟨rfl, rfl⟩, by decide⟩

/-- A position inside a row and one at its end; a scan of a whole grid. -/
theorem witness_AdvanceIsRowMajor :
    (State.reset.xpos.toNat < State.reset.W ∧ State.reset.ypos.toNat < State.reset.H ∧
        State.reset.xpos.toNat + 1 ≠ State.reset.W) ∧
      ((grid 1#16 3#16 [] []).xpos.toNat + 1 = (grid 1#16 3#16 [] []).W) ∧
      State.reset.xpos = 0#16 ∧ State.reset.ypos = 0#16 ∧ 0 < State.reset.W ∧
      State.reset.W * State.reset.H ≤ State.reset.W * State.reset.H := by decide

/-- A step with all four neighbours inside the grid, at (1, 0) of a 3 by 2 grid; and a 1 by 1 grid, with none. -/
theorem witness_DitherStepDiffusesTheError :
    (∃ t, dstep Config.hw .bwry { grid 3#16 2#16 (List.replicate 6 (grey 100)) [] with xpos := 1#16 } = .ok t) ∧
      1 < (grid 3#16 2#16 [] []).W ∧ 0 < (grid 3#16 2#16 [] []).H ∧
      ∃ t, dstep Config.hw .bwry (grid 1#16 1#16 [grey 100] []) = .ok t := by
  refine ⟨?_, by decide, by decide, ?_⟩
  · have h : (dstep Config.hw .bwry { grid 3#16 2#16 (List.replicate 6 (grey 100)) [] with xpos := 1#16 }).isOk = true := by
      decide +kernel
    revert h; cases dstep _ _ _ <;> simp [Except.isOk, Except.toBool]
  · have h : (dstep Config.hw .bwry (grid 1#16 1#16 [grey 100] [])).isOk = true := by decide +kernel
    revert h; cases dstep _ _ _ <;> simp [Except.isOk, Except.toBool]

theorem witness_SimpleStepClassifiesOnePixel :
    ∃ t, qstep Config.hw .bwry (grid 1#16 1#16 [grey 100] []) = .ok t := by
  have h : (qstep Config.hw .bwry (grid 1#16 1#16 [grey 100] [])).isOk = true := by decide +kernel
  revert h; cases qstep _ _ _ <;> simp [Except.isOk, Except.toBool]

/-- The dimensions at their boundary: 200 by 200 is exactly the capacity, and 1 by 1 the least grid. -/
theorem witness_QuantRunsOneMicroOperationPerPixel :
    State.reset.Selects .bwry ∧ State.reset.DimsOk Config.hw ∧ State.reset.W * State.reset.H = 40000 ∧
      (grid 1#16 1#16 [] []).DimsOk Config.hw :=
  ⟨.inl ⟨rfl, rfl⟩, by unfold State.DimsOk; decide, by decide, by unfold State.DimsOk; decide⟩

/-- The orange 4 by 1 row, loaded. -/
abbrev orangeRow : State := grid 4#16 1#16 (List.replicate 4 ⟨255, 128, 0⟩) []

theorem orangeRow_loaded : orangeRow.GridLoaded := by
  intro i hi
  have h : i < 4 := hi
  refine ⟨⟨255, 128, 0⟩, ?_, ?_⟩
  · interval_cases i <;> rfl
  · unfold Pixel.Within; decide +kernel

theorem witness_QuantWithoutDitheringClassifiesEveryPixel :
    State.Selects { orangeRow with dither := false } .bwry ∧ State.DimsOk Config.hw { orangeRow with dither := false } ∧
      State.GridLoaded { orangeRow with dither := false } :=
  ⟨.inl ⟨rfl, rfl⟩, by unfold State.DimsOk; decide, orangeRow_loaded⟩

theorem witness_QuantWithDitheringCompletes :
    orangeRow.Selects .bwry ∧ orangeRow.DimsOk Config.hw ∧ orangeRow.dither = true ∧ orangeRow.GridLoaded :=
  ⟨.inl ⟨rfl, rfl⟩, by unfold State.DimsOk; decide, rfl, orangeRow_loaded⟩

/-- V27: the four palette colours in a row. -/
abbrev paletteRow : State := grid 4#16 1#16 [grey 0, grey 255, ⟨255, 255, 0⟩, ⟨255, 0, 0⟩] []

theorem inBinary64_zero : InBinary64 0 := .inl rfl

theorem inBinary64_255 : InBinary64 255 :=
  .inr ⟨255, 0, by norm_num, by norm_num, by norm_num, by norm_num, .inl (by simp [pow2_eq_zpow])⟩

theorem paletteRow_inv : paletteRow.Inv Config.hw where
  pixWf := by unfold Memory.wf; decide
  idxWf := by unfold Memory.wf; decide
  outWf := by unfold Memory.wf; decide
  pixInCarrier := by
    intro i v h
    have hi : i < 4 := by
      by_contra hn
      have e : paletteRow.pix = [(0, grey 0), (1, grey 255), (2, ⟨255, 255, 0⟩), (3, ⟨255, 0, 0⟩)] := rfl
      rw [e] at h
      simp [show i ≠ 0 by omega, show i ≠ 1 by omega, show i ≠ 2 by omega, show i ≠ 3 by omega] at h
    have a := inBinary64_zero
    have b := inBinary64_255
    interval_cases i <;> (cases h; exact ⟨by first | exact a | exact b, by first | exact a | exact b, by first | exact a | exact b⟩)
  errLegal := by decide
  errInfoClear := fun _ => rfl
  atRowStart := rfl
  rowBound := by decide
  optrBound := by decide

theorem paletteRow_exact : paletteRow.GridExact Config.hw .bwry := by
  intro i hi
  have h : i < 4 := hi
  interval_cases i
  · exact ⟨⟨.black, 0, 0, 0⟩, by decide, by decide +kernel⟩
  · exact ⟨⟨.white, 255, 255, 255⟩, by decide, by decide +kernel⟩
  · exact ⟨⟨.yellow, 255, 255, 0⟩, by decide, by decide +kernel⟩
  · exact ⟨⟨.red, 255, 0, 0⟩, by decide, by decide +kernel⟩

theorem witness_ExactColoursQuantiseTheSameWithAndWithoutDithering :
    paletteRow.Inv Config.hw ∧ paletteRow.Selects .bwry ∧ paletteRow.DimsOk Config.hw ∧
      paletteRow.GridExact Config.hw .bwry :=
  ⟨paletteRow_inv, .inl ⟨rfl, rfl⟩, by unfold State.DimsOk; decide, paletteRow_exact⟩

/-- The last clause: an all-black grid. -/
theorem witness_solid_black : ∀ i, i < 1 * 1 → (grid 1#16 1#16 [grey 0] []).pix.read i = some ⟨0, 0, 0⟩ := by
  intro i hi; interval_cases i; rfl

theorem witness_ZeroErrorLeavesThePixelGrid :
    paletteRow.pix.wf 40000 ∧ (∀ i v, paletteRow.pix.read i = some v → v.InCarrier .binary64) ∧
      (⟨.black, 0, 0, 0⟩ : PaletteEntry) ∈ (Config.hw.palette .bwry).entries ∧
      paletteRow.pix.read (paletteRow.ypos.toNat * paletteRow.W + paletteRow.xpos.toNat) =
        some (entryPixel ⟨.black, 0, 0, 0⟩) ∧
      ∃ t, dstep Config.hw .bwry paletteRow = .ok t := by
  refine ⟨paletteRow_inv.pixWf, paletteRow_inv.pixInCarrier, by decide, by decide +kernel, ?_⟩
  have h : (dstep Config.hw .bwry paletteRow).isOk = true := by decide +kernel
  revert h; cases dstep _ _ _ <;> simp [Except.isOk, Except.toBool]

theorem witness_OnlyPaletteCodesAreEmitted :
    orangeRow.Selects .bwry ∧ orangeRow.DimsOk Config.hw ∧ (∃ t, exec .quant orangeRow = .next t ∧ t.err = 0#3) ∧
      orangeRow.W % 4 = 0 ∧ ∃ t, exec .convert orangeRow = .next t ∧ t.err = 0#3 :=
  ⟨.inl ⟨rfl, rfl⟩, by unfold State.DimsOk; decide, exists_next (by decide +kernel), by decide,
    exists_next (by decide +kernel)⟩

/-- V40: the codes 0, 1, 2, 3 in a 4 by 1 grid. -/
abbrev codeRow : State := grid 4#16 1#16 [] [0, 1, 2, 3]

theorem witness_PackWritesTheGridsBytes :
    codeRow.DimsOk Config.hw ∧ codeRow.W % 4 = 0 ∧ codeRow.CodesWritten ∧ (grid 6#16 1#16 [] []).W % 4 ≠ 0 := by
  refine ⟨by unfold State.DimsOk; decide, by decide, fun i hi => ?_, by decide⟩
  have h : i < 4 := hi
  interval_cases i <;> exact ⟨_, rfl⟩

theorem witness_PackThenUnpackIsTheIndexGrid :
    ∃ t, exec .pack codeRow = .next t ∧ (0 < codeRow.W * codeRow.H / 4 ∧ t.err = 0#3) :=
  exists_next (by decide +kernel)

theorem witness_PackDoesNotReadCfg : ∃ t, exec .pack codeRow = .next t ∧ t.err = 0#3 := exists_next (by decide +kernel)

theorem witness_ConvertIsQuantThenPack :
    orangeRow.FormatOk ∧ orangeRow.DimsOk Config.hw ∧ orangeRow.W % 4 = 0 ∧
      ∃ t, exec .quant orangeRow = .next t ∧ t.err = 0#3 :=
  ⟨by unfold State.FormatOk; decide, by unfold State.DimsOk; decide, by decide, exists_next (by decide +kernel)⟩

theorem witness_ConvertCompletes :
    orangeRow.Selects .bwry ∧ orangeRow.DimsOk Config.hw ∧ orangeRow.W % 4 = 0 ∧ orangeRow.GridLoaded :=
  ⟨.inl ⟨rfl, rfl⟩, by unfold State.DimsOk; decide, by decide, orangeRow_loaded⟩

theorem witness_RunOverUnwrittenGridStops :
    State.reset.FormatOk ∧ State.reset.DimsOk Config.hw ∧ State.reset.W % 4 = 0 ∧ State.reset.pix.read 0 = none ∧
      State.reset.idx.read 0 = none :=
  ⟨by unfold State.FormatOk; decide, by unfold State.DimsOk; decide, by decide, rfl, rfl⟩

/-- A grid whose last element is missing, the first written. -/
theorem witness_NoRunCompletesOverAnUnwrittenElement :
    3 < (grid 4#16 1#16 [grey 0, grey 0, grey 0] [0, 1, 2]).W * (grid 4#16 1#16 [grey 0, grey 0, grey 0] [0, 1, 2]).H ∧
      (grid 4#16 1#16 [grey 0, grey 0, grey 0] [0, 1, 2]).FormatOk ∧
      (grid 4#16 1#16 [grey 0, grey 0, grey 0] [0, 1, 2]).DimsOk Config.hw ∧
      (grid 4#16 1#16 [grey 0, grey 0, grey 0] [0, 1, 2]).W % 4 = 0 ∧
      (grid 4#16 1#16 [grey 0, grey 0, grey 0] [0, 1, 2]).pix.read 3 = none ∧
      (grid 4#16 1#16 [grey 0, grey 0, grey 0] [0, 1, 2]).idx.read 3 = none :=
  ⟨by decide, by unfold State.FormatOk; decide, by unfold State.DimsOk; decide, by decide, rfl, rfl⟩

/-- Every command but `RESET` goes on somewhere without a fault. -/
theorem witness_RegistersEachCommandLeavesAlone :
    (∃ t, exec .classify State.reset = .next t ∧ t.err = 0#3) ∧ (∃ t, exec .quant orangeRow = .next t ∧ t.err = 0#3) ∧
      (∃ t, exec .pack codeRow = .next t ∧ t.err = 0#3) ∧ ∃ t, exec .convert orangeRow = .next t ∧ t.err = 0#3 :=
  ⟨exists_next (by decide +kernel), exists_next (by decide +kernel), exists_next (by decide +kernel),
    exists_next (by decide +kernel)⟩

theorem witness_ElementsEachCommandLeavesAlone :
    (∃ t, exec .reset orangeRow = .next t) ∧ (∃ t, exec .classify State.reset = .next t ∧ t.err = 0#3) ∧
      (∃ t, exec .quant { orangeRow with dither := false } = .next t ∧ t.err = 0#3) ∧
      (∃ t, exec .pack codeRow = .next t ∧ t.err = 0#3) ∧
      ∃ t, exec .convert { orangeRow with dither := false } = .next t ∧ t.err = 0#3 :=
  ⟨⟨_, rfl⟩, exists_next (by decide +kernel), exists_next (by decide +kernel), exists_next (by decide +kernel),
    exists_next (by decide +kernel)⟩

theorem witness_EveryStepKeepsTheInvariant :
    State.Inv Config.hw { paletteRow with inbox := [.write cmdAddr 5#32] } ∧ ∃ t, step { paletteRow with inbox := [.write cmdAddr 5#32] } = .next t ∧ t.err = 0#3 :=
  ⟨{ paletteRow_inv with }, exists_next (by decide +kernel)⟩

theorem witness_AccessesAreTakenInOrder :
    State.reset.inbox = [] ∧
      ∃ t, (hostDoes (.read 1#28)).Pending (.read 1#28) [] ∧ step (hostDoes (.read 1#28)) = .next t := ⟨rfl, _, rfl, rfl⟩

theorem witness_ConfigurationWordSelects :
    ∀ (d : Bool) (f : Variant), (hostDoes (hostWr 0#24 (cfgWordOf d f))).Pending (hostWr 0#24 (cfgWordOf d f)) [] :=
  fun _ _ => rfl

/-- The state of V40 after `PACK`. -/
theorem witness_RawFileLayout :
    State.err { codeRow with optr := 1#32, out := [(0, 0x1B#8)] } = 0#3 ∧
      State.optr { codeRow with optr := 1#32, out := [(0, 0x1B#8)] } = 1#32 ∧ codeRow.W * codeRow.H / 4 = 1 ∧
      ∀ j, j < 1 → ∃ b, Memory.read [(0, 0x1B#8)] j = some b :=
  ⟨rfl, rfl, by decide, fun j hj => by interval_cases j; exact ⟨_, rfl⟩⟩

/-- A written grid without a fault, the largest grid for the reads, and a faulted block. -/
theorem witness_IndexedFormatTableAndBytes :
    Config.hw.wf = true ∧ (Config.hw.palette .bwr).entries[2]? = some ⟨.red, 255, 0, 0⟩ ∧
      (Config.hw.palette .bwr).size ≤ 3 ∧ [0#2, 3#2][1]? = some (3#2 : Code) ∧ codeRow.err = 0#3 ∧ codeRow.CodesWritten ∧
      State.reset.err = 0#3 ∧ State.reset.W * State.reset.H = 40000 ∧ faultedBlock.err ≠ 0#3 := by
  refine ⟨by decide, by decide, by decide, rfl, rfl, fun i hi => ?_, rfl, rfl, by decide⟩
  have h : i < 4 := hi
  interval_cases i <;> exact ⟨_, rfl⟩

/-- The heights at the boundary: as many rows as bands, and one fewer. -/
theorem witness_StripePatternBands :
    (Config.hw.palette .bwry).size ≤ 4 ∧ (Config.hw.palette .bwr).size ≤ 3 ∧ 3 < (Config.hw.palette .bwry).size := by decide

/-- An unrecognised name, and the write each passing course makes for it. -/
theorem witness_ConfigurationSelectsOrIsReported :
    (HostConfig.mk true "4color").format ≠ "bwry" ∧ (HostConfig.mk true "4color").format ≠ "bwr" ∧
      (hostDoes (hostWr 0#24 5#32)).Pending (hostWr 0#24 5#32) [] ∧
      (hostDoes (hostWr 0#24 7#32)).Pending (hostWr 0#24 7#32) [] := ⟨by decide, by decide, rfl, rfl⟩

/-- A grid of the right size and one of a wrong size; a block with output bytes to fetch, the most there are, and a faulted
one. -/
theorem witness_ConversionScriptLoadsRunsAndFetches :
    HostConfig.script .report {} = .ok [hostWr 0#24 1#32] ∧
      [((255, 128, 0) : Byte × Byte × Byte)].length = (1#16).toNat * (1#16).toNat ∧
      ([] : List (Byte × Byte × Byte)).length ≠ (1#16).toNat * (1#16).toNat ∧
      State.err { codeRow with optr := 10000#32 } = 0#3 ∧ State.optr { codeRow with optr := 10000#32 } = 10000#32 ∧
      faultedBlock.err ≠ 0#3 := ⟨rfl, rfl, by decide, rfl, rfl, by decide⟩

/-- There is a grid of any number of pixels, so of 4096 by 4097, which is beyond the element index. -/
theorem witness_grid_beyond_the_port :
    (∀ n, ∃ pixels : List (Byte × Byte × Byte), pixels.length = n) ∧
      2 ^ 24 < (4096#16).toNat * (4097#16).toNat := ⟨fun n => ⟨_, List.length_replicate (n := n) (a := (0, 0, 0))⟩, by decide⟩

end Sys2Proof.Tests
end

section
/-! PROOFS of the statements about 00_scope.md R9 to R13: the rounding function, the primitives, the coefficients.
`rnd q` is `unitOf q` times a rounded integer, so each law of `rnd` comes from one law of `rne` and one of the exponent
`max (floorLog2 q) (-1022)`. -/

namespace Sys2Proof.Machine

/-! ### The nearest integer `rne` -/

@[simp] theorem rne_intCast (n : ℤ) : rne (n : ℚ) = n := rne_unique (by simp) (by norm_num)

theorem rne_neg (t : ℚ) : rne (-t) = -rne t := by
  obtain ⟨hnear, htie⟩ := rne_spec t
  have habs : |-t - ((-rne t : ℤ) : ℚ)| = |t - rne t| := by
    rw [← abs_neg]; congr 1; push_cast; ring
  exact rne_unique (habs ▸ hnear) fun e => (htie (habs ▸ e)).neg

/-- If a smaller argument were rounded to a greater integer, both would lie on the midpoint, so they would be equal. -/
theorem rne_mono {s t : ℚ} (h : s ≤ t) : rne s ≤ rne t := by
  by_contra hlt
  have hgap : (rne t : ℚ) + 1 ≤ rne s := by exact_mod_cast not_le.1 hlt
  have hs := abs_le.1 (rne_spec s).1
  have ht := abs_le.1 (rne_spec t).1
  have hst : s = t := by linarith
  exact hlt (hst ▸ le_rfl)

theorem abs_rne_le {t : ℚ} {n : ℤ} (h : |t| ≤ n) : |rne t| ≤ n := by
  obtain ⟨hlo, hhi⟩ := abs_le.1 h
  have hlo' := rne_mono hlo
  have hhi' := rne_mono hhi
  rw [rne_neg] at hlo'
  rw [rne_intCast] at hlo' hhi'
  exact abs_le.2 ⟨hlo', hhi'⟩

/-! ### The binade and its unit -/

theorem floorLog2_neg (q : ℚ) : floorLog2 (-q) = floorLog2 q := by
  rcases eq_or_ne q 0 with rfl | hq
  · simp
  · obtain ⟨hlo, hhi⟩ := floorLog2_spec hq
    exact floorLog2_unique (by rwa [abs_neg]) (by rwa [abs_neg])

theorem unitOf_neg (q : ℚ) : unitOf (-q) = unitOf q := by rw [unitOf, floorLog2_neg, unitOf]

theorem le_of_pow2_lt_pow2_succ {a b : ℤ} (h : pow2 a < pow2 (b + 1)) : a ≤ b := by
  by_contra hab
  exact absurd (pow2_le_pow2 (by omega : b + 1 ≤ a)) (not_le.2 h)

theorem le_floorLog2 {q : ℚ} {l : ℤ} (hq : q ≠ 0) (h : pow2 l ≤ |q|) : l ≤ floorLog2 q :=
  le_of_pow2_lt_pow2_succ (h.trans_lt (floorLog2_spec hq).2)

theorem floorLog2_le {q : ℚ} {l : ℤ} (hq : q ≠ 0) (h : |q| < pow2 (l + 1)) : floorLog2 q ≤ l :=
  le_of_pow2_lt_pow2_succ ((floorLog2_spec hq).1.trans_lt h)

theorem floorLog2_mul_pow2 {q : ℚ} (hq : q ≠ 0) (k : ℤ) : floorLog2 (q * pow2 k) = floorLog2 q + k := by
  obtain ⟨hlo, hhi⟩ := floorLog2_spec hq
  have hk := pow2_pos k
  have habs : |q * pow2 k| = |q| * pow2 k := by rw [abs_mul, abs_of_pos hk]
  apply floorLog2_unique
  · rw [habs, pow2_add]
    exact mul_le_mul_of_nonneg_right hlo hk.le
  · rw [habs, add_right_comm, pow2_add]
    exact mul_lt_mul_of_pos_right hhi hk

theorem unitOf_mul_two_pow (q : ℚ) (k : ℕ) :
    unitOf q * (2 ^ k : ℤ) = pow2 (max (floorLog2 q) (-1022) - 52 + k) := by
  rw [pow2_add, unitOf, pow2_eq_zpow k, zpow_natCast, Int.cast_pow, Int.cast_ofNat]

/-- The magnitude of `q` is at most `2^53` units. -/
theorem abs_le_unitOf_mul (q : ℚ) : |q| ≤ unitOf q * (2 ^ 53 : ℤ) := by
  rcases eq_or_ne q 0 with rfl | hq
  · simpa using (unitOf_pos 0).le
  · rw [unitOf_mul_two_pow]
    exact (floorLog2_spec hq).2.le.trans (pow2_le_pow2 (by omega))

/-! ### The rounding function `rnd` -/

/-- The second branch of `rnd` covers zero too. -/
theorem rnd_eq (q : ℚ) : rnd q = unitOf q * (rne (q / unitOf q) : ℚ) := by
  rcases eq_or_ne q 0 with rfl | hq
  · have h0 : rne 0 = 0 := rne_intCast 0
    simp [h0]
  · exact rnd_of_ne_zero hq

theorem rnd_neg (q : ℚ) : rnd (-q) = -rnd q := by
  rw [rnd_eq, rnd_eq q, unitOf_neg, neg_div, rne_neg]
  push_cast
  ring

/-- Rounding does not pass a multiple of the unit from below. -/
theorem rnd_le_of_le_unitOf_mul {q : ℚ} {n : ℤ} (h : q ≤ unitOf q * n) : rnd q ≤ unitOf q * n := by
  have hu := unitOf_pos q
  have hn : rne (q / unitOf q) ≤ n := by
    simpa using rne_mono ((div_le_iff₀' hu).2 h)
  rw [rnd_eq]
  exact mul_le_mul_of_nonneg_left (by exact_mod_cast hn) hu.le

/-- Rounding does not pass a multiple of the unit from above. -/
theorem unitOf_mul_le_rnd {q : ℚ} {n : ℤ} (h : unitOf q * n ≤ q) : unitOf q * n ≤ rnd q := by
  have hneg := @rnd_le_of_le_unitOf_mul (-q) (-n) (by rw [unitOf_neg]; push_cast; linarith)
  rw [unitOf_neg, rnd_neg] at hneg
  push_cast at hneg
  linarith

/-- A multiple of its own unit is not rounded. -/
theorem rnd_eq_self_of_eq_unitOf_mul {q : ℚ} {n : ℤ} (h : q = unitOf q * n) : rnd q = q :=
  le_antisymm ((rnd_le_of_le_unitOf_mul h.le).trans h.ge) (h.le.trans (unitOf_mul_le_rnd h.ge))

theorem rnd_nonneg {q : ℚ} (h : 0 ≤ q) : 0 ≤ rnd q := by
  simpa using @unitOf_mul_le_rnd q 0 (by simpa using h)

/-- Of two positive rationals in one binade the integers are compared; in two binades the greater one's `2^E` lies
between the results. -/
theorem rnd_le_rnd_of_pos {p q : ℚ} (hp : 0 < p) (hpq : p ≤ q) : rnd p ≤ rnd q := by
  have hq : 0 < q := hp.trans_le hpq
  obtain ⟨hplo, -⟩ := floorLog2_spec hp.ne'
  obtain ⟨hqlo, -⟩ := floorLog2_spec hq.ne'
  rw [abs_of_pos hp] at hplo
  rw [abs_of_pos hq] at hqlo
  have hl : floorLog2 p ≤ floorLog2 q := le_floorLog2 hq.ne' (by rw [abs_of_pos hq]; exact hplo.trans hpq)
  rcases (max_le_max_right (-1022) hl).eq_or_lt with hE | hE
  · have hu : unitOf p = unitOf q := by rw [unitOf, unitOf, hE]
    have hn : rne (p / unitOf q) ≤ rne (q / unitOf q) := rne_mono ((div_le_div_iff_of_pos_right (unitOf_pos q)).2 hpq)
    rw [rnd_eq, rnd_eq q, hu]
    exact mul_le_mul_of_nonneg_left (by exact_mod_cast hn) (unitOf_pos q).le
  · have h52 : unitOf q * (2 ^ 52 : ℤ) = pow2 (floorLog2 q) := by
      rw [unitOf_mul_two_pow]; congr 1; omega
    calc rnd p ≤ unitOf p * (2 ^ 53 : ℤ) := rnd_le_of_le_unitOf_mul ((le_abs_self p).trans (abs_le_unitOf_mul p))
      _ ≤ unitOf q * (2 ^ 52 : ℤ) := by simp only [unitOf_mul_two_pow]; exact pow2_le_pow2 (by omega)
      _ ≤ rnd q := unitOf_mul_le_rnd (h52 ▸ hqlo)

theorem rnd_nonpos {q : ℚ} (h : q ≤ 0) : rnd q ≤ 0 := by
  simpa using @rnd_le_of_le_unitOf_mul q 0 (by simpa using h)

/-- By the signs: two positive arguments, then zero between the two, then two negative ones by oddness. -/
theorem rnd_mono {p q : ℚ} (h : p ≤ q) : rnd p ≤ rnd q := by
  rcases lt_or_ge 0 p with hp | hp
  · exact rnd_le_rnd_of_pos hp h
  · rcases le_or_gt 0 q with hq | hq
    · exact (rnd_nonpos hp).trans (rnd_nonneg hq)
    · have hneg := rnd_le_rnd_of_pos (neg_pos.2 hq) (neg_le_neg h)
      rw [rnd_neg, rnd_neg] at hneg
      exact neg_le_neg_iff.1 hneg

/-- Away from the subnormals a power of two passes through the rounding (00_scope.md R11). -/
theorem rnd_mul_pow2 {q : ℚ} {k : ℤ} (hq : pow2 (-1022) ≤ |q|) (hk : 0 ≤ k) :
    rnd (q * pow2 k) = rnd q * pow2 k := by
  have hq0 : q ≠ 0 := abs_pos.1 ((pow2_pos _).trans_le hq)
  have hl : -1022 ≤ floorLog2 q := le_floorLog2 hq0 hq
  have hu : unitOf (q * pow2 k) = unitOf q * pow2 k := by
    rw [unitOf, unitOf, floorLog2_mul_pow2 hq0, ← pow2_add]; congr 1; omega
  rw [rnd_eq, rnd_eq q, hu, mul_div_mul_right _ _ (pow2_pos k).ne']
  ring

/-! ### The carrier `Q` -/

/-- Every value of `Q` is below `2^1024`: its coefficient is below `2^53` and its exponent at most 971. -/
theorem InBinary64.abs_lt {q : ℚ} (h : InBinary64 q) : |q| < pow2 1024 := by
  obtain rfl | ⟨m, e, -, hm, -, he, hq⟩ := h
  · simpa using pow2_pos 1024
  have habs : |q| = m * pow2 e := by
    have : 0 ≤ (m : ℚ) * pow2 e := mul_nonneg (Nat.cast_nonneg m) (pow2_pos e).le
    rcases hq with rfl | rfl <;> simp [abs_of_nonneg this]
  have hm' : (m : ℚ) < pow2 53 := by rw [pow2_eq_zpow]; exact_mod_cast hm
  calc |q| = m * pow2 e := habs
    _ < pow2 53 * pow2 e := mul_lt_mul_of_pos_right hm' (pow2_pos e)
    _ = pow2 (53 + e) := (pow2_add 53 e).symm
    _ ≤ pow2 1024 := pow2_le_pow2 (by omega)

theorem inBinary64_of_abs {q : ℚ} {m : ℕ} {e : ℤ} (hq : |q| = m * pow2 e) (hm : m < 2 ^ 53) (he : -1074 ≤ e)
    (he' : e ≤ 971) : InBinary64 q := by
  rcases Nat.eq_zero_or_pos m with rfl | hpos
  · exact .inl (by simpa using hq)
  · refine .inr ⟨m, e, hpos, hm, he, he', ?_⟩
    rcases abs_cases q with ⟨h, -⟩ | ⟨h, -⟩
    · exact .inl (by rw [← hq, h])
    · exact .inr (by rw [← hq, h, neg_neg])

/-- An integer of magnitude at most `2^53` times a power of two from `2^-1074` on is in `Q` unless it reaches `2^1024`.
The coefficient and exponent given need not be legal: `2^53` is halved, an exponent above 971 is moved into the
coefficient. -/
theorem inBinary64_int_mul_pow2 {n e : ℤ} (hn : |n| ≤ 2 ^ 53) (he : -1074 ≤ e) (hlt : |(n : ℚ) * pow2 e| < pow2 1024) :
    InBinary64 (n * pow2 e) := by
  have habs : |(n : ℚ) * pow2 e| = n.natAbs * pow2 e := by
    rw [abs_mul, abs_of_pos (pow2_pos e), Nat.cast_natAbs, Int.cast_abs]
  rcases le_or_gt 971 e with hbig | hsmall
  · obtain ⟨k, rfl⟩ := Int.eq_ofNat_of_zero_le (sub_nonneg.2 hbig) |>.imp fun k hk => eq_add_of_sub_eq hk
    have hshift : |(n : ℚ) * pow2 (k + 971)| = (n.natAbs * 2 ^ k : ℕ) * pow2 971 := by
      rw [habs, pow2_add, pow2_eq_zpow k, zpow_natCast]; push_cast; ring
    refine inBinary64_of_abs hshift ?_ (by norm_num) le_rfl
    have h1024 : pow2 1024 = (2 ^ 53 : ℕ) * pow2 971 := by
      rw [show (1024 : ℤ) = 53 + 971 by norm_num, pow2_add, pow2_eq_zpow 53]; norm_num
    rw [hshift, h1024] at hlt
    exact_mod_cast lt_of_mul_lt_mul_right hlt (pow2_pos 971).le
  · have hnat : n.natAbs ≤ 2 ^ 53 := by rw [Int.abs_eq_natAbs] at hn; exact_mod_cast hn
    rcases hnat.lt_or_eq with hm | hm
    · exact inBinary64_of_abs habs hm he hsmall.le
    · refine inBinary64_of_abs (m := 2 ^ 52) (e := e + 1) ?_ (by norm_num) (by omega) (by omega)
      rw [habs, hm, pow2_add, pow2_eq_zpow 1]; push_cast; ring

/-- A value of `Q` is a multiple of its own unit, so `rnd` keeps it. -/
theorem rnd_of_inBinary64 {q : ℚ} (h : InBinary64 q) : rnd q = q := by
  obtain rfl | ⟨m, e, hm1, hm, he, -, hq⟩ := h
  · exact rnd_zero
  suffices hpos : rnd (m * pow2 e) = m * pow2 e by
    rcases hq with rfl | rfl
    · exact hpos
    · rw [rnd_neg, hpos]
  have h0 : (0 : ℚ) < m * pow2 e := mul_pos (by exact_mod_cast hm1) (pow2_pos e)
  have hl : floorLog2 (m * pow2 e) ≤ 52 + e := floorLog2_le h0.ne' <| by
    rw [abs_of_pos h0, add_right_comm, pow2_add, pow2_eq_zpow (52 + 1)]
    exact mul_lt_mul_of_pos_right (by exact_mod_cast hm) (pow2_pos e)
  have hE : max (floorLog2 (m * pow2 e)) (-1022) - 52 ≤ e := by omega
  obtain ⟨k, hk⟩ := Int.eq_ofNat_of_zero_le (sub_nonneg.2 hE)
  refine rnd_eq_self_of_eq_unitOf_mul (n := m * 2 ^ k) ?_
  have he : pow2 e = unitOf (m * pow2 e) * 2 ^ k := by
    rw [unitOf, ← zpow_natCast, ← pow2_eq_zpow, ← pow2_add]; congr 1; omega
  push_cast
  rw [mul_left_comm, ← he]

/-- `rnd q` is an integer of magnitude at most `2^53` times a unit of `2^-1074` or more. -/
theorem inBinary64_rnd_iff (q : ℚ) : InBinary64 (rnd q) ↔ |rnd q| < pow2 1024 := by
  refine ⟨InBinary64.abs_lt, fun hlt => ?_⟩
  have hu := unitOf_pos q
  have hn : |rne (q / unitOf q)| ≤ 2 ^ 53 := abs_rne_le <| by
    rw [abs_div, abs_of_pos hu]
    exact (div_le_iff₀' hu).2 (abs_le_unitOf_mul q)
  rw [rnd_eq, mul_comm] at hlt ⊢
  exact inBinary64_int_mul_pow2 hn (by omega) hlt

/-! ### The primitives and the coefficients -/

theorem roundTo_binary64_of_lt {q : ℚ} (h : |rnd q| < pow2 1024) :
    roundTo .binary64 q = .ok (rnd q) ∧ InBinary64 (rnd q) :=
  ⟨roundTo_ok_iff.2 ⟨(overflowsIn_binary64 _).2 h, rfl⟩, (inBinary64_rnd_iff q).2 h⟩

theorem roundTo_binary64_of_le {q : ℚ} (h : pow2 1024 ≤ |rnd q|) :
    roundTo .binary64 q = .error (.refuse .outsideQ) ∧ ¬InBinary64 (rnd q) := by
  refine ⟨?_, fun hq => absurd hq.abs_lt (not_lt.2 h)⟩
  rcases hr : roundTo .binary64 q with e | r
  · rw [roundTo_error hr]
  · exact absurd ((overflowsIn_binary64 _).1 (roundTo_ok_iff.1 hr).1) (not_lt.2 h)

theorem roundTo_exact (q : ℚ) : roundTo .exact q = .ok q := roundTo_ok_iff.2 ⟨rfl, rfl⟩

theorem inBinary64_fromInt {n : ℤ} (hn : |n| ≤ 2 ^ 53) : InBinary64 (fromInt n) := by
  have hlt : |(n : ℚ) * pow2 0| < pow2 1024 := by
    have hn' : |(n : ℚ)| ≤ pow2 53 := by rw [pow2_eq_zpow]; exact_mod_cast hn
    simpa [pow2_eq_zpow 0] using hn'.trans_lt (pow2_lt_pow2 (by norm_num))
  simpa [fromInt, pow2_eq_zpow 0] using inBinary64_int_mul_pow2 hn (by norm_num) hlt

/-- Sixteenths with a small numerator are in `Q`. -/
theorem inBinary64_mkRat_16 {n : ℕ} (hn : n < 2 ^ 53) : InBinary64 (mkRat n 16) := by
  refine inBinary64_of_abs (m := n) (e := -4) ?_ hn (by norm_num) (by norm_num)
  have h16 : pow2 (-4) = 1 / 16 := by rw [pow2_eq_zpow]; norm_num
  rw [h16, Rat.mkRat_eq_div, Int.cast_natCast, abs_of_nonneg (by positivity)]
  push_cast
  ring

/-- Settles O24, part by part: the binade's unit is the model's `unitOf` because the binade is unique. -/
theorem roundingFunctionOfTheSpec : Obligations.RoundingFunctionOfTheSpec := by
  unfold Obligations.RoundingFunctionOfTheSpec
  simp only [← pow2_eq_zpow]
  refine ⟨rnd_zero, fun q l hlo hhi => ?_, fun q => rnd_of_inBinary64, fun p q => rnd_mono, rnd_neg, inBinary64_rnd_iff⟩
  rw [← floorLog2_unique hlo hhi]
  exact ⟨rne (q / unitOf q), rnd_eq q, rne_spec (q / unitOf q)⟩

/-- Settles O25: each primitive is the one rounding `roundTo` of its exact result. -/
theorem primitivesRoundOnceIntoTheCarrier : Obligations.PrimitivesRoundOnceIntoTheCarrier := by
  unfold Obligations.PrimitivesRoundOnceIntoTheCarrier
  simp only [← pow2_eq_zpow]
  exact ⟨fun a b => ⟨roundTo_binary64_of_lt, roundTo_binary64_of_lt, roundTo_binary64_of_lt, flt_iff⟩,
    fun n hn => ⟨inBinary64_fromInt hn, rfl⟩⟩

/-- Settles O27: `7 * e` is `e * K7` times `2^4`, which passes through the rounding. -/
theorem diffusionCoefficients : Obligations.DiffusionCoefficients := by
  unfold Obligations.DiffusionCoefficients
  simp only [← pow2_eq_zpow]
  have h7 : K7 = 7 / 16 := Rat.mkRat_eq_div 7 16
  refine ⟨⟨h7, Rat.mkRat_eq_div 3 16, Rat.mkRat_eq_div 5 16, Rat.mkRat_eq_div 1 16⟩,
    ⟨inBinary64_mkRat_16 (n := 7) (by norm_num), inBinary64_mkRat_16 (n := 3) (by norm_num),
      inBinary64_mkRat_16 (n := 5) (by norm_num), inBinary64_mkRat_16 (n := 1) (by norm_num)⟩, fun e he => ?_⟩
  have h16 : pow2 4 = 16 := by rw [pow2_eq_zpow]; norm_num
  have hscale : rnd (e * K7 * 16) = rnd (e * K7) * 16 := h16 ▸ rnd_mul_pow2 he (by norm_num : (0 : ℤ) ≤ 4)
  have harg : 7 * e = e * K7 * 16 := by rw [h7]; ring
  rw [harg, hscale, mul_div_cancel_right₀ _ (by norm_num : (16 : ℚ) ≠ 0)]

/-- Settles O26: the rounded result is at or above the bound of `Q`, so `roundTo` takes its refusing branch. -/
theorem resultOutsideQIsRefused : Obligations.ResultOutsideQIsRefused := by
  unfold Obligations.ResultOutsideQIsRefused
  simp only [← pow2_eq_zpow]
  exact fun a b => ⟨roundTo_binary64_of_le, roundTo_binary64_of_le, roundTo_binary64_of_le⟩

/-- Settles O28: the companion's rounding is the identity and has no bound. -/
theorem exactCompanionDoesNotRound : Obligations.ExactCompanionDoesNotRound := by
  unfold Obligations.ExactCompanionDoesNotRound
  exact fun a b => ⟨roundTo_exact (a + b), roundTo_exact (a - b), roundTo_exact (a * b), trivial⟩

end Sys2Proof.Machine
end

section
/-! PROOFS of the statements about 10_state.md R21 to R37: the state after hardware reset, and the registers a command other
than `RESET` leaves alone. The frames come from `exec_next`, whose frame equations `t = { s with … }` are read field by
field. -/

namespace Sys2Proof.Machine

/-! ### Hardware reset -/

theorem read_reset_eq_none (i : Nat) :
    State.reset.pix.read i = none ∧ State.reset.idx.read i = none ∧ State.reset.out.read i = none :=
  ⟨Memory.read_nil i, Memory.read_nil i, Memory.read_nil i⟩

/-- Settles O17: the registers are those `State.reset` lists, and its memories are empty. -/
theorem hardwareResetValues : Obligations.HardwareResetValues := by
  unfold Obligations.HardwareResetValues
  exact ⟨rfl, rfl, hw_wReset, hw_hReset, rfl, rfl, rfl, rfl, rfl, rfl, rfl, rfl, rfl, read_reset_eq_none⟩

/-- Settles O52: an empty memory is canonical and holds no channel, and the other registers of the invariant are 0. -/
theorem resetStateMeetsTheInvariant : Obligations.ResetStateMeetsTheInvariant where
  pixWf := Memory.wf_nil _
  idxWf := Memory.wf_nil _
  outWf := Memory.wf_nil _
  pixInCarrier i v h := by simp [(read_reset_eq_none i).1] at h
  errLegal := Nat.zero_le _
  errInfoClear _ := rfl
  atRowStart := rfl
  rowBound := Nat.zero_le _
  optrBound := Nat.zero_le _

/-! ### The registers a command leaves alone -/

/-- Settles O21: a command that does not raise has neither `ERR` nor `ERRINFO` in its frame. -/
theorem statusIsWrittenOnlyByRaise : Obligations.StatusIsWrittenOnlyByRaise := by
  unfold Obligations.StatusIsWrittenOnlyByRaise
  intro i s t hi h
  rcases exec_next h with ⟨hr, -⟩ | ⟨k, info, ht, -⟩ | ⟨-, ht⟩ | ⟨-, ht, -⟩ | ⟨-, ht⟩ | ⟨-, ht, -⟩
  case inl => exact absurd hr hi
  case inr.inl => exact .inr ⟨k, info, ht⟩
  all_goals left; rw [ht]; exact ⟨rfl, rfl⟩

/-- Settles O50: none of the registers named is in the raise's frame or, for the commands it is claimed for, in the
command's. -/
theorem registersEachCommandLeavesAlone : Obligations.RegistersEachCommandLeavesAlone := by
  unfold Obligations.RegistersEachCommandLeavesAlone
  intro i s t hi h
  rcases exec_next h with ⟨hr, -⟩ | ⟨k, info, ht, -⟩ | ⟨hc, ht⟩ | ⟨hc, ht, -⟩ | ⟨hc, ht⟩ | ⟨hc, ht, -⟩
  case inl => exact absurd hr hi
  case inr.inl => simp [ht]
  all_goals rw [hc, ht]; simp

end Sys2Proof.Machine
end

section
/-! PROOFS of the statement about the invariant of the whole machine (20_memory.md R61; 10_state.md R25 to R34): every access
keeps it. An element a command writes lies below the capacity because the command has read an element there, of `PIX` or of
`IDX`, and a canonical memory lists none beyond. -/

namespace Sys2Proof.Machine

/-! ### The channels of a pixel stay in the carrier `Q` -/

theorem roundTo_inCarrier {num : NumFormat} {q r : ℚ} (h : roundTo num q = .ok r) : InCarrier num r := by
  cases num with
  | exact => trivial
  | binary64 =>
    obtain ⟨hlt, rfl⟩ := roundTo_ok_iff.1 h
    exact (inBinary64_rnd_iff q).2 ((overflowsIn_binary64 _).1 hlt)

theorem addShare_inCarrier {num : NumFormat} {p e p' : Pixel} {k : ℚ} (h : addShare num p e k = .ok p') :
    p'.InCarrier num := by
  obtain ⟨⟨_, _, hr⟩, ⟨_, _, hg⟩, ⟨_, _, hb⟩⟩ := addShare_ok_iff.1 h
  exact ⟨roundTo_inCarrier hr, roundTo_inCarrier hg, roundTo_inCarrier hb⟩

/-- A loaded sample is an integer below 256. -/
theorem pixelOfWord_inCarrier (v : Word) : (pixelOfWord Config.hw v).InCarrier .binary64 := by
  have hsample : ∀ n : ℕ, InBinary64 (fromInt (n % 256 : ℕ)) := fun n => inBinary64_fromInt (by
    rw [Nat.abs_cast]; norm_cast; omega)
  rw [pixelOfWord_hw]
  exact ⟨hsample _, hsample _, hsample _⟩

/-! ### What a scan in progress keeps -/

/-- The part of the invariant that `DSTEP` and `QSTEP` can touch beside the scan position, which is not at a row's start
inside a scan. -/
structure State.GridsWf (c : Config) (s : State) : Prop where
  pixWf : s.pix.wf c.maxPix
  idxWf : s.idx.wf c.maxPix
  pixInCarrier : ∀ i v, s.pix.read i = some v → v.InCarrier c.num

variable {c : Config} {s t : State}

theorem State.Inv.gridsWf (hs : s.Inv c) : s.GridsWf c := ⟨hs.pixWf, hs.idxWf, hs.pixInCarrier⟩

theorem State.GridsWf.writePix (hs : s.GridsWf c) {i : Nat} (hi : i < c.maxPix) {v : Pixel} (hv : v.InCarrier c.num) :
    (s.writePix i v).GridsWf c where
  pixWf := Memory.wf_write hs.pixWf hi v
  idxWf := hs.idxWf
  pixInCarrier j w hw := by
    rw [writePix_pix, Memory.read_write] at hw
    split at hw
    · obtain rfl := Option.some.inj hw; exact hv
    · exact hs.pixInCarrier j w hw

theorem State.GridsWf.writeIdx (hs : s.GridsWf c) {i : Nat} (hi : i < c.maxPix) (k : Code) : (s.writeIdx i k).GridsWf c :=
  { hs with idxWf := Memory.wf_write hs.idxWf hi k }

theorem State.GridsWf.advance (hs : s.GridsWf c) : s.advance.GridsWf c := by
  rw [advance_eq]; exact { hs with }

/-- A share of the error goes to an element that has been read. -/
theorem State.GridsWf.diffuseIf {inside : Prop} [Decidable inside] {i : Nat} {e : Pixel} {k : ℚ} (hs : s.GridsWf c)
    (h : diffuseIf inside c.num i e k s = .ok t) : t.GridsWf c := by
  rcases diffuseIf_ok_iff.1 h with ⟨-, h⟩ | ⟨-, rfl⟩
  · obtain ⟨p, p', hp, hp', rfl⟩ := diffuse_ok_iff.1 h
    exact hs.writePix (Memory.lt_of_read hs.pixWf hp) (addShare_inCarrier hp')
  · exact hs

theorem State.GridsWf.propagate {x y i : Nat} {e : Pixel} (hs : s.GridsWf c) (h : propagate c.num x y i e s = .ok t) :
    t.GridsWf c := by
  obtain ⟨s1, s2, s3, h1, h2, h3, h4⟩ := propagate_ok h
  exact (((hs.diffuseIf h1).diffuseIf h2).diffuseIf h3).diffuseIf h4

/-- Either micro-operation writes the code of a pixel that it has read. -/
theorem State.GridsWf.quantStep {f : Variant} {d : Bool} (hs : s.GridsWf c) (h : quantStep c f d s = .ok t) :
    t.GridsWf c := by
  unfold Machine.quantStep at h
  split at h
  · obtain ⟨v, k, e, u, hv, -, -, hu, rfl⟩ := dstep_ok h
    exact ((hs.writeIdx (Memory.lt_of_read hs.pixWf hv) k).propagate hu).advance
  · obtain ⟨v, k, hv, -, rfl⟩ := qstep_ok_iff.1 h
    exact (hs.writeIdx (Memory.lt_of_read hs.pixWf hv) k).advance

theorem State.GridsWf.quantBody {f : Variant} (hs : s.GridsWf c) (h : quantBody c f s = .ok t) : t.GridsWf c :=
  scan_keeps (fun _ _ hu _ hv => hu.quantStep hv) (s := { s with xpos := 0#16, ypos := 0#16 }) { hs with } h

/-! ### The commands -/

theorem ErrKind.code_toNat_le (k : ErrKind) : k.code.toNat ≤ 3 := by cases k <;> decide

theorem ErrKind.code_ne_zero (k : ErrKind) : k.code ≠ 0#3 := by cases k <;> decide

theorem State.Inv.raise (hs : s.Inv c) (k : ErrKind) (info : Word) : (raise k info s).Inv c :=
  { hs with
    errLegal := k.code_toNat_le
    errInfoClear := fun h => absurd h k.code_ne_zero }

theorem State.Inv.resetRegisters (hs : s.Inv c) : (resetRegisters c s).Inv c :=
  { hs with
    errLegal := Nat.zero_le _
    errInfoClear := fun _ => rfl
    atRowStart := rfl
    rowBound := Nat.zero_le _
    optrBound := Nat.zero_le _ }

/-- A completed scan stands at (0, H), and `H` is at most the number of pixels, since no side of the grid is zero. -/
theorem State.Inv.quantBody {f : Variant} {m : Bool} (hs : s.Inv c) (hb : s.badDims c m = false)
    (h : quantBody c f s = .ok t) : t.Inv c := by
  obtain ⟨hW, -, hcap, -⟩ := badDims_eq_false.1 hb
  obtain ⟨hx, hy⟩ := quantBody_position hW h
  have hrow : s.height.toNat ≤ c.maxPix := (Nat.le_mul_of_pos_left _ hW).trans hcap
  obtain ⟨hpix, hidx, hcar⟩ := hs.gridsWf.quantBody h
  rw [(quantBody_frame h).1, hx, hy]
  exact { hs with pixWf := hpix, idxWf := hidx, pixInCarrier := hcar, atRowStart := rfl, rowBound := hrow }

/-- The fourth code of byte `j` is element `4 * j + 3` of `IDX`, so the byte lies inside `OUT`. -/
theorem State.Inv.packb (hs : s.Inv c) (h : packb s = .ok t) : t.Inv c := by
  obtain ⟨k0, k1, k2, k3, -, -, -, hk3, rfl⟩ := packb_ok_iff.1 h
  have hidx : 4 * s.optr.toNat + 3 < c.maxPix := Memory.lt_of_read hs.idxWf hk3
  have hj : s.optr.toNat < c.outSize := by unfold Config.outSize; omega
  have hnext : (s.optr + 1#32).toNat ≤ c.outSize := by
    rw [BitVec.toNat_add]; exact (Nat.mod_le _ _).trans hj
  exact { hs with outWf := Memory.wf_write hs.outWf hj _, optrBound := hnext }

theorem State.Inv.packBody (hs : s.Inv c) (h : packBody s = .ok t) : t.Inv c :=
  packLoop_keeps (fun _ _ hu _ hv => hu.packb hv) (s := { s with optr := 0#32 })
    { hs with optrBound := Nat.zero_le _ } h

theorem State.Inv.exec {i : Instr} (hs : s.Inv Config.hw) (h : exec i s = .next t) : t.Inv Config.hw := by
  cases i with
  | reset => obtain rfl := Host.Outcome.next.inj h; exact hs.resetRegisters
  | classify =>
    rcases classify_ok (finish_next_iff.1 h) with ⟨-, rfl⟩ | ⟨f, k, -, -, rfl⟩
    · exact hs.raise _ _
    · exact { hs with }
  | quant =>
    rcases quant_ok (finish_next_iff.1 h) with ⟨k, info, rfl, -⟩ | ⟨f, -, hb, hq⟩
    · exact hs.raise k info
    · exact hs.quantBody hb hq
  | pack =>
    rcases pack_ok (finish_next_iff.1 h) with ⟨-, rfl⟩ | ⟨-, hp⟩
    · exact hs.raise _ _
    · exact hs.packBody hp
  | convert =>
    rcases convert_ok (finish_next_iff.1 h) with ⟨k, info, rfl, -⟩ | ⟨f, u, -, hb, hq, hp⟩
    · exact hs.raise k info
    · exact (hs.quantBody hb hq).packBody hp

theorem State.Inv.runCommand {v : Word} (hs : s.Inv Config.hw) (h : runCommand v s = .next t) : t.Inv Config.hw := by
  rcases runCommand_next h with ⟨i, -, -, hi⟩ | rfl | ⟨-, rfl⟩
  · exact hs.exec hi
  · exact hs
  · exact hs.raise .illegalCommand v

/-! ### The other accesses -/

theorem State.Inv.writePix (hs : s.Inv c) {i : Nat} (hi : i < c.maxPix) {v : Pixel} (hv : v.InCarrier c.num) :
    (s.writePix i v).Inv c :=
  { hs.gridsWf.writePix hi hv, hs with }

theorem State.Inv.writeIdx (hs : s.Inv c) {i : Nat} (hi : i < c.maxPix) (k : Code) : (s.writeIdx i k).Inv c :=
  { hs with idxWf := Memory.wf_write hs.idxWf hi k }

theorem RegisterStore.keeps_inv {v : Word} (h : RegisterStore c v s t) (hs : s.Inv c) : t.Inv c := by
  cases h <;> exact { hs with }

theorem State.Inv.busAccess {op : BusOp} (hs : s.Inv Config.hw) (h : busAccess Config.hw op s = .next t) :
    t.Inv Config.hw := by
  cases op with
  | read a => obtain ⟨v, rfl⟩ := busAccess_read_next h; exact { hs with }
  | write a v =>
    rcases busAccess_write_next h with ⟨-, h⟩ | ⟨i, -, hi, rfl⟩ | ⟨i, -, hi, rfl⟩ | h
    · exact hs.runCommand h
    · exact hs.writePix hi (pixelOfWord_inCarrier v)
    · exact hs.writeIdx hi _
    · exact h.keeps_inv hs

/-- Settles O53: taking an access from the host's list touches no field of the invariant, and every access keeps it. -/
theorem everyStepKeepsTheInvariant : Obligations.EveryStepKeepsTheInvariant := by
  unfold Obligations.EveryStepKeepsTheInvariant
  intro s t hs h
  rcases hin : s.inbox with _ | ⟨op, rest⟩
  · rw [step_idle hin] at h
    obtain rfl := Host.Outcome.next.inj h
    exact hs
  · rw [step_pending hin] at h
    have htaken : State.Inv Config.hw { s with inbox := rest } := { hs with }
    exact htaken.busAccess h

end Sys2Proof.Machine
end

section
/-! PROOFS of the statements about 20_memory.md R51 to R67: the word address map, each transaction of the host port, the order
of the accesses, and what an access can change. -/

namespace Sys2Proof.Machine

variable {s t : State} {op : BusOp}

/-! ### The word address map -/

/-- An address as a number is its port number times `2^24` plus its element index. -/
theorem ofNat_eq_busAddr (p : BitVec 4) (i : Index) : BitVec.ofNat 28 (p.toNat * 0x1000000 + i.toNat) = busAddr p i := by
  have hp : p.toNat * 0x1000000 + i.toNat = (p ++ i).toNat := (toNat_append2 4 24 p i).symm
  rw [hp, BitVec.ofNat_toNat, BitVec.setWidth_eq, busAddr]

theorem busDecode_eq_some_iff {x : Txn} : busDecode op = some x ↔ op = busEncode x :=
  ⟨eq_busEncode, by rintro rfl; exact busDecode_busEncode x⟩

theorem four_le_portOf {a : BusAddr} (h : 0x4000000 ≤ a.toNat) : 4 ≤ (portOf a).toNat := by
  have := a.isLt
  rw [portOf, BitVec.extractLsb'_toNat, Nat.shiftRight_eq_div_pow]
  omega

/-- The port of every transaction is below 4. -/
theorem busDecode_eq_none {a : BusAddr} (h : 0x4000000 ≤ a.toNat) (v : Word) :
    busDecode (.read a) = none ∧ busDecode (.write a v) = none := by
  have hp := four_le_portOf h
  constructor
  all_goals
    simp only [busDecode]
    split
    case h_5 => rfl
    all_goals omega

/-- Settles O6: each of the eight addresses is `busAddr` of its port, where decoding inverts encoding. -/
theorem wordAddressMap : Obligations.WordAddressMap := by
  unfold Obligations.WordAddressMap
  refine ⟨fun i v => ?_, fun a v h => busDecode_eq_none h v, fun op x => busDecode_eq_some_iff⟩
  have h0 : BitVec.ofNat 28 (0x0000000 + i.toNat) = busAddr 0#4 i := ofNat_eq_busAddr 0#4 i
  have h1 : BitVec.ofNat 28 (0x1000000 + i.toNat) = busAddr 1#4 i := ofNat_eq_busAddr 1#4 i
  have h2 : BitVec.ofNat 28 (0x2000000 + i.toNat) = busAddr 2#4 i := ofNat_eq_busAddr 2#4 i
  have h3 : BitVec.ofNat 28 (0x3000000 + i.toNat) = busAddr 3#4 i := ofNat_eq_busAddr 3#4 i
  rw [h0, h1, h2, h3]
  exact ⟨busDecode_busEncode (.regRead i), busDecode_busEncode (.regWrite i v), busDecode_busEncode (.pixRead i),
    busDecode_busEncode (.pixWrite i v), busDecode_busEncode (.idxRead i), busDecode_busEncode (.idxWrite i v),
    busDecode_busEncode (.outRead i), busDecode_busEncode (.outWrite i v)⟩

/-! ### The registers -/

theorem cfgWord_toNat (s : State) : s.cfgWord.toNat = 2 * s.format.toNat + s.dither.toNat := by
  have hf := s.format.isLt
  have hd := s.dither.toNat_lt
  rw [State.cfgWord, BitVec.toNat_setWidth, toNat_append2, BitVec.toNat_ofBool]
  omega

theorem readReg_of_ge {n : Index} (h : 13 ≤ n.toNat) (s : State) : readReg n s = 0#32 := by
  unfold readReg
  split
  case h_14 => rfl
  all_goals omega

/-- Settles O7: the answer is `readReg`, whose arm each register's number selects. -/
theorem registerReadReturnsTheRegister : Obligations.RegisterReadReturnsTheRegister := by
  unfold Obligations.RegisterReadReturnsTheRegister
  intro s n rest h
  refine ⟨readReg n s, step_txn h, fun hn => ?_, fun hn => ?_, fun hn => ?_, fun hn => ?_, fun hn => ?_, fun hn => ?_,
    fun hn => ?_, fun hn => ?_, fun hn => ?_, fun hn => ?_, fun hn => ?_, fun hn => ?_, fun hn => ?_,
    fun hn => readReg_of_ge hn s⟩
  · simp only [readReg, hn]; exact cfgWord_toNat s
  all_goals simp [readReg, hn, -BitVec.toNat_setWidth, BitVec.toNat_setWidth_of_le]

/-- A read-only register and a number that names none ignore a write. -/
theorem writeReg_ignored {c : Config} {n : Index} (h : (4 ≤ n.toNat ∧ n.toNat ≤ 8) ∨ 12 ≤ n.toNat) (v : Word) (s : State) :
    writeReg c n v s = .next s := by
  unfold writeReg
  split
  case h_8 => rfl
  all_goals omega

theorem formatField_eq (v : Word) : v.extractLsb' 1 2 = BitVec.ofNat 2 (v.toNat / 2) := by
  apply BitVec.eq_of_toNat_eq
  rw [BitVec.extractLsb'_toNat, BitVec.toNat_ofNat, Nat.shiftRight_eq_div_pow]

/-- Settles O8: the step is `writeReg`, whose arm each register's number selects. -/
theorem registerWriteStoresTheField : Obligations.RegisterWriteStoresTheField := by
  unfold Obligations.RegisterWriteStoresTheField
  intro s n v rest h
  have hstep : step s = writeReg Config.hw n v { s with inbox := rest } := step_txn h
  rw [hstep]
  refine ⟨fun hn => ?_, fun hn => ?_, fun hn => ?_, fun hn => ?_, fun hn => ?_, fun hn => ?_, fun hn => ?_,
    fun hn => writeReg_ignored hn v _⟩
  all_goals simp only [writeReg, hn, formatField_eq, dimOfWord_hw]

/-! ### The element ports -/

/-- Settles O9: below the capacity the write is `writePix` of the word's samples. -/
theorem pixelPortLoadsSamples : Obligations.PixelPortLoadsSamples := by
  unfold Obligations.PixelPortLoadsSamples
  refine ⟨fun s i rest h => step_txn h, fun s i v rest h => ⟨fun hi => ?_, fun hi => ?_⟩⟩
  · refine ⟨s.pix.write i.toNat (pixelOfWord Config.hw v), ?_, ?_, fun j hj => Memory.read_write_other _ _ hj⟩
    · rw [step_txn h, transact, hw_maxPix, if_pos hi, State.writePix]
    · rw [Memory.read_write_same, pixelOfWord_hw]; rfl
  · rw [step_txn h, transact, hw_maxPix, if_neg (not_lt.2 hi)]

/-- Settles O10: below the capacity a read answers the element it finds and a write is `writeIdx` of the word's code. -/
theorem indexPortReadsAndWritesCodes : Obligations.IndexPortReadsAndWritesCodes := by
  unfold Obligations.IndexPortReadsAndWritesCodes
  refine ⟨fun s i rest h => ⟨fun k hi hk => ?_, fun hi => ?_⟩, fun s i v rest h => ⟨fun hi => ?_, fun hi => ?_⟩⟩
  · have hread : State.readIdx { s with inbox := rest } i.toNat = .ok k := readIdx_ok_iff.2 hk
    rw [step_txn h, transact, hw_maxPix, if_pos hi, hread, BitVec.ofNat_toNat]; rfl
  · rw [step_txn h, transact, hw_maxPix, if_neg (not_lt.2 hi)]; rfl
  · refine ⟨s.idx.write i.toNat (codeOfWord Config.hw v), ?_, ?_, fun j hj => Memory.read_write_other _ _ hj⟩
    · rw [step_txn h, transact, hw_maxPix, if_pos hi, State.writeIdx]
    · rw [Memory.read_write_same, codeOfWord_hw]
  · rw [step_txn h, transact, hw_maxPix, if_neg (not_lt.2 hi)]

/-- Settles O11: inside the buffer a read answers the byte it finds. -/
theorem outputPortIsReadOnly : Obligations.OutputPortIsReadOnly := by
  unfold Obligations.OutputPortIsReadOnly
  refine ⟨fun s j rest h => ⟨fun b hj hb => ?_, fun hj => ?_⟩, fun s j v rest h => step_txn h⟩
  · have hread : State.readOut { s with inbox := rest } j.toNat = .ok b := readOut_ok_iff.2 hb
    rw [step_txn h, transact, hw_outSize, if_pos hj, hread, BitVec.ofNat_toNat]; rfl
  · rw [step_txn h, transact, hw_outSize, if_neg (not_lt.2 hj)]; rfl

/-- Settles O12: an address beyond port 3 decodes to no transaction. -/
theorem missingPortReadsZero : Obligations.MissingPortReadsZero := by
  unfold Obligations.MissingPortReadsZero
  intro s a v rest ha
  obtain ⟨hread, hwrite⟩ := busDecode_eq_none ha v
  refine ⟨fun h => ?_, fun h => ?_⟩
  · rw [step_pending h, busAccess, hread]; rfl
  · rw [step_pending h, busAccess, hwrite]

/-! ### What an access can change -/

/-- Settles O14: everything a read can answer is one word for the host. -/
theorem noReadHasASideEffect : Obligations.NoReadHasASideEffect := by
  unfold Obligations.NoReadHasASideEffect
  intro s t a rest hin h
  rw [step_pending hin] at h
  exact busAccess_read_next h

/-- The host's list of accesses is no command's business (70_reset_and_hazards.md R220). -/
theorem exec_inbox {i : Instr} (h : exec i s = .next t) : t.inbox = s.inbox := by
  rcases exec_next h with ⟨-, ht⟩ | ⟨k, info, ht, -⟩ | ⟨-, ht⟩ | ⟨-, ht, -⟩ | ⟨-, ht⟩ | ⟨-, ht, -⟩ <;> rw [ht] <;> rfl

theorem runCommand_inbox {v : Word} (h : runCommand v s = .next t) : t.inbox = s.inbox := by
  rcases runCommand_next h with ⟨i, -, -, hi⟩ | rfl | ⟨-, rfl⟩
  · exact exec_inbox hi
  · rfl
  · rfl

theorem busAccess_inbox {c : Config} (h : busAccess c op s = .next t) : t.inbox = s.inbox := by
  cases op with
  | read a => obtain ⟨v, rfl⟩ := busAccess_read_next h; rfl
  | write a v =>
    rcases busAccess_write_next h with ⟨-, h⟩ | ⟨i, -, -, rfl⟩ | ⟨i, -, -, rfl⟩ | h
    · exact runCommand_inbox h
    · rfl
    · rfl
    · cases h <;> rfl

/-- Settles O54: the step takes the oldest access off the list, and no access changes the list. -/
theorem accessesAreTakenInOrder : Obligations.AccessesAreTakenInOrder := by
  unfold Obligations.AccessesAreTakenInOrder
  refine ⟨fun s h => step_idle h, fun s t op rest hin h => ?_⟩
  rw [step_pending hin] at h
  exact busAccess_inbox h

/-! ### Who writes a memory -/

theorem eq_encode_of_decode {v : Word} {i : Instr} (h : decode v = .ok i) : v = encode i := by
  rw [decode_eq] at h
  split_ifs at h with h1 h2 h3 h4 h5 <;> cases h <;> subst v <;> rfl

/-- A step that changes a memory is a `PixWrite`, an `IdxWrite` or an executed command; the first two change their own memory
only. -/
theorem step_memory_cases (h : step s = .next t) :
    (t.pix = s.pix ∧ t.idx = s.idx ∧ t.out = s.out) ∨
      (∃ i v rest, s.inbox = busEncode (.pixWrite i v) :: rest ∧ t.idx = s.idx ∧ t.out = s.out) ∨
      (∃ i v rest, s.inbox = busEncode (.idxWrite i v) :: rest ∧ t.pix = s.pix ∧ t.out = s.out) ∨
      ∃ i rest, s.inbox = .write cmdAddr (encode i) :: rest ∧ exec i { s with inbox := rest } = .next t := by
  rcases hin : s.inbox with _ | ⟨op, rest⟩
  · rw [step_idle hin] at h
    obtain rfl := Host.Outcome.next.inj h
    exact .inl ⟨rfl, rfl, rfl⟩
  rw [step_pending hin] at h
  cases op with
  | read a => obtain ⟨v, rfl⟩ := busAccess_read_next h; exact .inl ⟨rfl, rfl, rfl⟩
  | write a v =>
    rcases busAccess_write_next h with ⟨rfl, h⟩ | ⟨i, he, -, rfl⟩ | ⟨i, he, -, rfl⟩ | h
    · rcases runCommand_next h with ⟨i, hd, -, hi⟩ | rfl | ⟨-, rfl⟩
      · exact .inr (.inr (.inr ⟨i, rest, by rw [eq_encode_of_decode hd], hi⟩))
      · exact .inl ⟨rfl, rfl, rfl⟩
      · exact .inl ⟨rfl, rfl, rfl⟩
    · exact .inr (.inl ⟨i, v, rest, by rw [he], rfl, rfl⟩)
    · exact .inr (.inr (.inl ⟨i, v, rest, by rw [he], rfl, rfl⟩))
    · refine .inl ?_; cases h <;> exact ⟨rfl, rfl, rfl⟩

/-- What each command leaves of the memories, from its frame. -/
theorem exec_memory_cases {i : Instr} (h : exec i s = .next t) :
    (t.pix = s.pix ∧ t.idx = s.idx ∧ t.out = s.out) ∨
      (i = .quant ∧ t.out = s.out ∧ (t.pix ≠ s.pix → s.dither = true)) ∨
      (i = .pack ∧ t.pix = s.pix ∧ t.idx = s.idx) ∨
      (i = .convert ∧ (t.pix ≠ s.pix → s.dither = true)) := by
  have hdither : (s.dither = false → t.pix = s.pix) → t.pix ≠ s.pix → s.dither = true :=
    fun hp hne => by simpa using mt hp hne
  rcases exec_next h with ⟨-, rfl⟩ | ⟨k, info, rfl, -⟩ | ⟨-, ht⟩ | ⟨hi, ht, hp⟩ | ⟨hi, ht⟩ | ⟨hi, -, hp⟩
  · exact .inl ⟨rfl, rfl, rfl⟩
  · exact .inl ⟨rfl, rfl, rfl⟩
  · rw [ht]; exact .inl ⟨rfl, rfl, rfl⟩
  · exact .inr (.inl ⟨hi, by rw [ht], hdither hp⟩)
  · exact .inr (.inr (.inl ⟨hi, by rw [ht], by rw [ht]⟩))
  · exact .inr (.inr (.inr ⟨hi, hdither hp⟩))

/-- Settles O15: by the access that the step takes and, for a command, by the command. -/
theorem memoriesChangeOnlyByTheirWriters : Obligations.MemoriesChangeOnlyByTheirWriters := by
  unfold Obligations.MemoriesChangeOnlyByTheirWriters
  intro s t h
  rcases step_memory_cases h with ⟨hp, hx, ho⟩ | ⟨i, v, rest, hin, hx, ho⟩ | ⟨i, v, rest, hin, hp, ho⟩ | ⟨i, rest, hin, hi⟩
  · exact ⟨fun hne => absurd ho hne, fun hne => absurd hx hne, fun hne => absurd hp hne⟩
  · exact ⟨fun hne => absurd ho hne, fun hne => absurd hx hne, fun _ => .inr ⟨i, v, rest, hin⟩⟩
  · exact ⟨fun hne => absurd ho hne, fun _ => .inr ⟨i, v, rest, hin⟩, fun hne => absurd hp hne⟩
  · rcases exec_memory_cases hi with ⟨hp, hx, ho⟩ | ⟨rfl, ho, hp⟩ | ⟨rfl, hp, hx⟩ | ⟨rfl, hp⟩
    · exact ⟨fun hne => absurd ho hne, fun hne => absurd hx hne, fun hne => absurd hp hne⟩
    · exact ⟨fun hne => absurd ho hne, fun _ => .inl ⟨_, rest, hin, .inl rfl⟩,
        fun hne => .inl ⟨hp hne, _, rest, hin, .inl rfl⟩⟩
    · exact ⟨fun _ => ⟨_, rest, hin, .inl rfl⟩, fun hne => absurd hx hne, fun hne => absurd hp hne⟩
    · exact ⟨fun _ => ⟨_, rest, hin, .inr rfl⟩, fun _ => .inl ⟨_, rest, hin, .inr rfl⟩,
        fun hne => .inl ⟨hp hne, _, rest, hin, .inr rfl⟩⟩

/-! ### The fault code is read by commands and its own registers only -/

section

variable {c : Config} {n : Index} {e : BitVec 3} {info : Word}

theorem readReg_withStatus (h4 : n.toNat ≠ 4) (h5 : n.toNat ≠ 5) (s : State) :
    readReg n { s with err := e, errInfo := info } = readReg n s := by
  unfold readReg
  split
  case h_5 => omega
  case h_6 => omega
  all_goals rfl

theorem writeReg_withStatus {v : Word} (h3 : n.toNat ≠ 3) (h : writeReg c n v s = .next t) :
    writeReg c n v { s with err := e, errInfo := info } = .next { t with err := e, errInfo := info } := by
  unfold writeReg at h ⊢
  split at h
  case h_4 => omega
  all_goals
    obtain rfl := Host.Outcome.next.inj h
    rfl

/-- The answer to a read of an element. -/
theorem finish_reply_withStatus {α : Type} {x : Except Stop α} {f : α → Word}
    (h : finish (x >>= fun a => .ok (reply (f a) s)) = .next t) :
    finish (x >>= fun a => .ok (reply (f a) { s with err := e, errInfo := info })) =
      .next { t with err := e, errInfo := info } := by
  obtain ⟨a, rfl, ht⟩ := bind_ok_iff.1 (finish_next_iff.1 h)
  obtain rfl := Except.ok.inj ht
  rfl

/-- A transaction that runs no command and reads neither `STATUS` nor `ERRINFO` has the same effect under any fault. -/
theorem transact_withStatus {x : Txn} (hcmd : ∀ v, x ≠ .regWrite 3#24 v) (h4 : x ≠ .regRead 4#24)
    (h5 : x ≠ .regRead 5#24) (h : transact c x s = .next t) :
    transact c x { s with err := e, errInfo := info } = .next { t with err := e, errInfo := info } := by
  cases x with
  | regRead n =>
    have hn4 : n.toNat ≠ 4 := fun hn => h4 (congrArg _ (BitVec.eq_of_toNat_eq hn))
    have hn5 : n.toNat ≠ 5 := fun hn => h5 (congrArg _ (BitVec.eq_of_toNat_eq hn))
    obtain rfl := Host.Outcome.next.inj h
    rw [transact, readReg_withStatus hn4 hn5]; rfl
  | regWrite n v =>
    have hn3 : n.toNat ≠ 3 := fun hn => hcmd v (by rw [BitVec.eq_of_toNat_eq (y := 3#24) hn])
    exact writeReg_withStatus hn3 h
  | pixRead i => obtain rfl := Host.Outcome.next.inj h; rfl
  | pixWrite i v =>
    obtain rfl := Host.Outcome.next.inj h
    simp only [transact]; split <;> rfl
  | idxRead i =>
    simp only [transact] at h ⊢
    split at h
    · next hi => rw [if_pos hi]; exact finish_reply_withStatus h
    · next hi => obtain rfl := Host.Outcome.next.inj h; rw [if_neg hi]; rfl
  | idxWrite i v =>
    obtain rfl := Host.Outcome.next.inj h
    simp only [transact]; split <;> rfl
  | outRead j =>
    simp only [transact] at h ⊢
    split at h
    · next hj => rw [if_pos hj]; exact finish_reply_withStatus h
    · next hj => obtain rfl := Host.Outcome.next.inj h; rw [if_neg hj]; rfl
  | outWrite j v => obtain rfl := Host.Outcome.next.inj h; rfl

end

/-- Settles O16: the access decodes to such a transaction, or to none and then reads 0 or is ignored. -/
theorem accessesDoNotDependOnTheFaultCode : Obligations.AccessesDoNotDependOnTheFaultCode := by
  unfold Obligations.AccessesDoNotDependOnTheFaultCode
  intro s t op rest e info hin hcmd h4 h5 h
  have hin' : State.inbox { s with err := e, errInfo := info } = op :: rest := hin
  cases hd : busDecode op with
  | some x =>
    obtain rfl := eq_busEncode hd
    rw [step_txn hin] at h
    rw [step_txn hin']
    exact transact_withStatus (fun v hx => hcmd v (by rw [hx]; rfl)) (fun hx => h4 (by rw [hx]))
      (fun hx => h5 (by rw [hx])) h
  | none =>
    rw [step_pending hin] at h
    rw [step_pending hin']
    cases op <;> simp only [busAccess, hd] at h ⊢ <;> obtain rfl := Host.Outcome.next.inj h <;> rfl

end Sys2Proof.Machine
end

section
/-! PROOFS of the statements about 30_encoding.md R80 to R87: command words, the decoding order of a write to `CMD`, the packed
byte and the host's configuration word. -/

namespace Sys2Proof.Machine

variable {s : State} {v : Word} {i : Instr}

/-! ### Command words -/

theorem decode_encode : ∀ i : Instr, decode (encode i) = .ok i
  | .reset => Laws.RoundTrip.reset rfl
  | .classify => Laws.RoundTrip.classify rfl
  | .quant => Laws.RoundTrip.quant rfl
  | .pack => Laws.RoundTrip.pack rfl
  | .convert => Laws.RoundTrip.convert rfl

/-- A word that is no command's word is illegal (30_encoding.md R83). -/
theorem decode_eq_error (hv : ∀ i, v ≠ encode i) : ∃ e, decode v = .error e := by
  cases hd : decode v with
  | ok i => exact absurd (eq_encode_of_decode hd) (hv i)
  | error e => exact ⟨e, rfl⟩

/-- The words of R82's table are all the command words there are. -/
theorem ne_encode_of_ne_words (h1 : v ≠ 1#32) (h2 : v ≠ 2#32) (h3 : v ≠ 3#32) (h4 : v ≠ 4#32) (h5 : v ≠ 5#32) :
    ∀ i, v ≠ encode i
  | .reset => h1
  | .classify => h2
  | .quant => h3
  | .pack => h4
  | .convert => h5

/-- Settles O2: `eq_encode_of_decode` is one direction, the round trip of each command the other. -/
theorem decodeAndEncodeAgree : Obligations.DecodeAndEncodeAgree := by
  unfold Obligations.DecodeAndEncodeAgree
  intro i v _
  exact ⟨eq_encode_of_decode, by rintro rfl; exact decode_encode i⟩

/-- Settles O1: the five words are the encodings of the five commands. -/
theorem fiveCommandWordsDecode : Obligations.FiveCommandWordsDecode :=
  ⟨decode_encode .reset, decode_encode .classify, decode_encode .quant, decode_encode .pack, decode_encode .convert⟩

/-! ### The write to `CMD`, line by line of 30_encoding.md R84 -/

theorem runCommand_eq_exec (hd : decode v = .ok i) (hs : s.err = 0#3 ∨ i = .reset) : runCommand v s = exec i s := by
  rw [runCommand_decoded hd, if_pos (hs.symm.imp_right faulted_eq_false.2)]

theorem runCommand_eq_raise (hv : ∀ i, v ≠ encode i) (hs : s.err = 0#3) :
    runCommand v s = .next (raise .illegalCommand v s) := by
  obtain ⟨e, hd⟩ := decode_eq_error hv
  rw [runCommand_illegal hd, if_neg (by simp [faulted_eq_false.2 hs])]

/-- While a fault stands, every word but `RESET`'s is refused, whether it is a command or not. -/
theorem runCommand_of_faulted (hv : v ≠ encode .reset) (hs : s.err ≠ 0#3) : runCommand v s = .next s := by
  have hf : s.faulted = true := faulted_eq_true.2 hs
  cases hd : decode v with
  | ok i =>
    have hi : i ≠ .reset := by rintro rfl; exact hv (eq_encode_of_decode hd)
    rw [runCommand_decoded hd, if_neg (by simp [hi, hf])]
  | error e => rw [runCommand_illegal hd, if_pos hf]

/-- Settles O3: a word other than the five is no command's word, `RESET`'s included. -/
theorem everyOtherWordIsIllegal : Obligations.EveryOtherWordIsIllegal := by
  unfold Obligations.EveryOtherWordIsIllegal
  intro v s h1 h2 h3 h4 h5
  have hv : ∀ i, v ≠ encode i := ne_encode_of_ne_words h1 h2 h3 h4 h5
  refine ⟨?_, runCommand_eq_raise hv, runCommand_of_faulted (hv .reset)⟩
  obtain ⟨e, hd⟩ := decode_eq_error hv
  rw [hd]; rfl

/-- Settles O4: `RESET` first, then the refusal while faulted, then the other four commands, then the raise. -/
theorem commandWriteDecodingOrder : Obligations.CommandWriteDecodingOrder := by
  unfold Obligations.CommandWriteDecodingOrder
  intro s v rest h
  rw [step_command h]
  by_cases h1 : v = 1#32
  · rw [if_pos h1, h1]; exact runCommand_eq_exec (decode_encode .reset) (.inr rfl)
  rw [if_neg h1]
  by_cases he : s.err = 0#3
  · rw [if_neg (not_not.2 he)]
    split_ifs with h2 h3 h4 h5
    · rw [h2]; exact runCommand_eq_exec (decode_encode .classify) (.inl he)
    · rw [h3]; exact runCommand_eq_exec (decode_encode .quant) (.inl he)
    · rw [h4]; exact runCommand_eq_exec (decode_encode .pack) (.inl he)
    · rw [h5]; exact runCommand_eq_exec (decode_encode .convert) (.inl he)
    · exact runCommand_eq_raise (ne_encode_of_ne_words h1 h2 h3 h4 h5) he
  · rw [if_pos he]; exact runCommand_of_faulted h1 he

/-- The table's reading of one 32-bit word is the decoder's. -/
theorem decode_of_decodeTableWord {w : Nat} (h : decodeTableWord 32 w = some i) :
    decode (BitVec.ofNat 32 (w % 2 ^ 32)) = .ok i := by
  rw [decodeTableWord, if_pos (Nat.mod_lt _ (by decide))] at h
  cases hd : decode (BitVec.ofNat 32 (w % 2 ^ 32)) with
  | ok j => rw [hd] at h; exact congrArg _ (Option.some.inj h)
  | error e => rw [hd] at h; cases h

/-- Settles O5: the second clause is the first for the access `State.withFetchWord` puts before the others. -/
theorem stepRunsTheDecodedCommand : Obligations.StepRunsTheDecodedCommand := by
  unfold Obligations.StepRunsTheDecodedCommand
  refine ⟨fun s v rest i h hd _ hs => ?_, fun s w i h hs => ?_⟩
  · rw [step_command h]; exact runCommand_eq_exec hd hs
  · rw [step_command (s := s.withFetchWord 32 w) rfl]; exact runCommand_eq_exec (decode_of_decodeTableWord h) hs

/-! ### The packed byte -/

theorem packByte_toNat (k0 k1 k2 k3 : Code) :
    (packByte k0 k1 k2 k3).toNat = 64 * k0.toNat + 16 * k1.toNat + 4 * k2.toNat + k3.toNat := by
  rw [packByte, toNat_append2, toNat_append2, toNat_append2]
  ring

/-- Settles O42: the byte is its four codes one after another, and the example is one case of it. -/
theorem packedByteLayout : Obligations.PackedByteLayout :=
  ⟨packByte_toNat, BitVec.eq_of_toNat_eq (packByte_toNat 0#2 1#2 2#2 3#2)⟩

/-! ### The configuration word (30_encoding.md R87) -/

theorem selectorWord_dither (d : Bool) (f : BitVec 2) : (selectorWord d f).getLsbD 0 = d := by
  rw [selectorWord, BitVec.getLsbD_setWidth, BitVec.getLsbD_append]
  simp

theorem selectorWord_format (d : Bool) (f : BitVec 2) : (selectorWord d f).extractLsb' 1 2 = f := by
  have hf := f.isLt
  have hd := d.toNat_lt
  apply BitVec.eq_of_toNat_eq
  rw [formatField_eq, selectorWord, BitVec.toNat_ofNat, BitVec.toNat_setWidth, toNat_append2, BitVec.toNat_ofBool]
  omega

/-- A write of both fields of `CFG`, recognised selector or not. -/
theorem step_selectorWord {d : Bool} {f : BitVec 2} {rest : List BusOp}
    (h : s.inbox = hostWr 0#24 (selectorWord d f) :: rest) :
    step s = .next { s with inbox := rest, dither := d, format := f } := by
  have hstep : step s = writeReg Config.hw 0#24 (selectorWord d f) { s with inbox := rest } :=
    step_txn (t := .regWrite 0#24 (selectorWord d f)) h
  have hn : (0#24).toNat = 0 := rfl
  rw [hstep]
  simp only [writeReg, hn, selectorWord_dither, selectorWord_format]

/-- Settles O55: the host writes the selector of the variant, which is 0 or 1. -/
theorem configurationWordSelects : Obligations.ConfigurationWordSelects := by
  unfold Obligations.ConfigurationWordSelects
  intro s d f rest h
  refine ⟨step_selectorWord h, ?_⟩
  cases f with
  | bwry => exact .inl ⟨rfl, rfl⟩
  | bwr => exact .inr ⟨rfl, rfl⟩

end Sys2Proof.Machine
end

section
/-! PROOFS of the statements about 40_classify.md R100 to R104: the squared distance, `nearest` and `CLASSIFY`. The laws hold
for both number formats, from three facts about a rounding: it is monotone, it keeps zero and it keeps the powers of two that
lie in `Q`. So no distance is negative, and a colour difference of `2^-537` or more does not vanish. -/

namespace Sys2Proof.Machine

variable {num : NumFormat} {v : Pixel} {p : PaletteEntry} {c : Config} {f : Variant} {s : State} {a b d q x : ℚ} {e k : ℤ}

/-! ### Rounding between powers of two -/

theorem roundIn_mono (num : NumFormat) (h : a ≤ b) : roundIn num a ≤ roundIn num b := by
  cases num with
  | binary64 => exact rnd_mono h
  | exact => exact h

theorem roundIn_nonneg (num : NumFormat) (h : 0 ≤ q) : 0 ≤ roundIn num q :=
  roundIn_zero num ▸ roundIn_mono num h

theorem roundIn_neg (num : NumFormat) (q : ℚ) : roundIn num (-q) = -roundIn num q := by
  cases num with
  | binary64 => exact rnd_neg q
  | exact => rfl

theorem inBinary64_pow2 (he : -1074 ≤ e) (he' : e ≤ 971) : InBinary64 (pow2 e) :=
  .inr ⟨1, e, le_rfl, by norm_num, he, he', .inl (by rw [Nat.cast_one, one_mul])⟩

theorem roundIn_pow2 (num : NumFormat) (he : -1074 ≤ e) (he' : e ≤ 971) : roundIn num (pow2 e) = pow2 e := by
  cases num with
  | binary64 => exact rnd_of_inBinary64 (inBinary64_pow2 he he')
  | exact => rfl

theorem abs_roundIn (num : NumFormat) (q : ℚ) : |roundIn num q| = roundIn num |q| := by
  rcases le_total 0 q with h | h
  · rw [abs_of_nonneg h, abs_of_nonneg (roundIn_nonneg num h)]
  · have hneg := roundIn_nonneg num (neg_nonneg.2 h)
    rw [abs_of_nonpos h, ← abs_neg, ← roundIn_neg, abs_of_nonneg hneg]

theorem pow2_le_roundIn (he : -1074 ≤ e) (he' : e ≤ 971) (h : pow2 e ≤ q) : pow2 e ≤ roundIn num q :=
  roundIn_pow2 num he he' ▸ roundIn_mono num h

theorem abs_roundIn_le (he : -1074 ≤ e) (he' : e ≤ 971) (h : |q| ≤ pow2 e) : |roundIn num q| ≤ pow2 e := by
  rw [abs_roundIn]; exact roundIn_pow2 num he he' ▸ roundIn_mono num h

/-! ### The squared distance (R100) -/

/-- The square of one channel difference, each of its two operations rounding once. -/
def roundedSquare (num : NumFormat) (x : ℚ) : ℚ := roundIn num (roundIn num x * roundIn num x)

theorem roundedSquare_nonneg (num : NumFormat) (x : ℚ) : 0 ≤ roundedSquare num x :=
  roundIn_nonneg num (mul_self_nonneg _)

@[simp] theorem roundedSquare_zero (num : NumFormat) : roundedSquare num 0 = 0 := by simp [roundedSquare]

/-- The square of `2^-537` is `2^-1074`, the least positive value of `Q`. -/
theorem abs_lt_of_roundedSquare_lt (h : roundedSquare num x < pow2 (-1074)) : |x| < pow2 (-537) := by
  by_contra hx
  have hr : pow2 (-537) ≤ |roundIn num x| := by
    rw [abs_roundIn]; exact pow2_le_roundIn (by norm_num) (by norm_num) (not_lt.1 hx)
  have hsq : pow2 (-1074) ≤ roundIn num x * roundIn num x := by
    calc pow2 (-1074) = pow2 (-537) * pow2 (-537) := by rw [← pow2_add]; norm_num
      _ ≤ |roundIn num x| * |roundIn num x| := mul_self_le_mul_self (pow2_pos _).le hr
      _ = roundIn num x * roundIn num x := abs_mul_abs_self _
  exact absurd (pow2_le_roundIn le_rfl (by norm_num) hsq) (not_le.2 h)

/-- A rounded sum of non-negative numbers that is below the least positive value of `Q` has both of them below it. -/
theorem lt_and_lt_of_roundIn_add_lt (ha : 0 ≤ a) (hb : 0 ≤ b) (h : roundIn num (a + b) < pow2 (-1074)) :
    a < pow2 (-1074) ∧ b < pow2 (-1074) := by
  have hsum : a + b < pow2 (-1074) := by
    by_contra hn
    exact absurd (pow2_le_roundIn le_rfl (by norm_num) (not_lt.1 hn)) (not_le.2 h)
  exact ⟨by linarith, by linarith⟩

theorem entryPixel_eq (p : PaletteEntry) : entryPixel p = ⟨p.r, p.g, p.b⟩ := by simp [entryPixel, fromInt]

/-- `dist` answers its eight roundings. -/
theorem dist_eq (h : dist num v p = .ok d) :
    d = roundIn num (roundIn num (roundedSquare num (v.r - p.r) + roundedSquare num (v.g - p.g))
      + roundedSquare num (v.b - p.b)) := by
  obtain ⟨e, rr, gg, bb, rg, he, hrr, hgg, hbb, hrg, hd⟩ := dist_ok_iff.1 h
  rw [entryPixel_eq] at he
  obtain ⟨hr, hg, hb⟩ := subPixel_ok_iff.1 he
  rw [(roundTo_ok_iff.1 hd).2, (roundTo_ok_iff.1 hrg).2, (roundTo_ok_iff.1 hrr).2, (roundTo_ok_iff.1 hgg).2,
    (roundTo_ok_iff.1 hbb).2, (roundTo_ok_iff.1 hr).2, (roundTo_ok_iff.1 hg).2, (roundTo_ok_iff.1 hb).2]
  rfl

theorem dist_nonneg (h : dist num v p = .ok d) : 0 ≤ d := by
  rw [dist_eq h]
  exact roundIn_nonneg num (add_nonneg (roundIn_nonneg num (add_nonneg (roundedSquare_nonneg num _)
    (roundedSquare_nonneg num _))) (roundedSquare_nonneg num _))

theorem dist_entryPixel_self (num : NumFormat) (p : PaletteEntry) : dist num (entryPixel p) p = .ok 0 := by
  simp [dist, subPixel, fsub, fmul, fadd]

/-- A distance of 0 leaves no channel a difference that its square could show. -/
theorem abs_sub_lt_of_dist_zero (h : dist num v p = .ok 0) :
    |v.r - p.r| < pow2 (-537) ∧ |v.g - p.g| < pow2 (-537) ∧ |v.b - p.b| < pow2 (-537) := by
  have hr := roundedSquare_nonneg num (v.r - p.r)
  have hg := roundedSquare_nonneg num (v.g - p.g)
  have hb := roundedSquare_nonneg num (v.b - p.b)
  have hd := (dist_eq h).symm.trans_lt (pow2_pos (-1074))
  obtain ⟨hrg, hb'⟩ := lt_and_lt_of_roundIn_add_lt (roundIn_nonneg num (add_nonneg hr hg)) hb hd
  obtain ⟨hr', hg'⟩ := lt_and_lt_of_roundIn_add_lt hr hg hrg
  exact ⟨abs_lt_of_roundedSquare_lt hr', abs_lt_of_roundedSquare_lt hg', abs_lt_of_roundedSquare_lt hb'⟩

/-- Settles O29: a channel whose difference is below `2^-537` is, by the premise, equal to the entry's. -/
theorem squaredDistance : Obligations.SquaredDistance := by
  unfold Obligations.SquaredDistance
  simp only [← pow2_eq_zpow]
  refine fun v p d h => ⟨dist_eq h, dist_nonneg h, ?_, ?_⟩
  · rintro rfl
    rw [← entryPixel_eq, dist_entryPixel_self] at h
    exact (Except.ok.inj h).symm
  · rintro rfl hr hg hb
    obtain ⟨hr', hg', hb'⟩ := abs_sub_lt_of_dist_zero h
    rw [← hr.resolve_right (not_le.2 hr'), ← hg.resolve_right (not_le.2 hg'), ← hb.resolve_right (not_le.2 hb')]

/-! ### Every distance of a bounded triple is answered -/

theorem roundTo_completes (he : -1074 ≤ e) (he' : e ≤ 971) (h : |q| ≤ pow2 e) :
    ∃ r, roundTo num q = .ok r ∧ |r| ≤ pow2 e := by
  have hr : |roundIn num q| ≤ pow2 e := abs_roundIn_le he he' h
  refine ⟨roundIn num q, roundTo_ok_iff.2 ⟨?_, rfl⟩, hr⟩
  cases num with
  | binary64 => exact (overflowsIn_binary64 _).2 (hr.trans_lt (pow2_lt_pow2 (by omega)))
  | exact => rfl

theorem fadd_completes (ha : |a| ≤ pow2 k) (hb : |b| ≤ pow2 k) (hk : -1074 ≤ k := by norm_num)
    (hk' : k ≤ 970 := by norm_num) :
    ∃ r, fadd num a b = .ok r ∧ |r| ≤ pow2 (k + 1) := by
  refine roundTo_completes (by omega) (by omega) ?_
  calc |a + b| ≤ |a| + |b| := abs_add_le a b
    _ ≤ pow2 k + pow2 k := add_le_add ha hb
    _ = pow2 (k + 1) := by rw [pow2_add, pow2_eq_zpow 1]; ring

theorem fsub_completes (ha : |a| ≤ pow2 k) (hb : |b| ≤ pow2 k) (hk : -1074 ≤ k := by norm_num)
    (hk' : k ≤ 970 := by norm_num) :
    ∃ r, fsub num a b = .ok r ∧ |r| ≤ pow2 (k + 1) := by
  rw [fsub, sub_eq_add_neg]; exact fadd_completes ha (abs_neg b ▸ hb) hk hk'

theorem fmul_self_completes (ha : |a| ≤ pow2 k) (hk : -537 ≤ k := by norm_num) (hk' : k ≤ 485 := by norm_num) :
    ∃ r, fmul num a a = .ok r ∧ |r| ≤ pow2 (k + k) := by
  refine roundTo_completes (by omega) (by omega) ?_
  rw [abs_mul, pow2_add]; exact mul_self_le_mul_self (abs_nonneg a) ha

/-- Every integer of 32 bits, signed or not, is far inside the bound of `State.GridLoaded`. -/
theorem absQ_intCast_le {n : ℤ} (h : |n| ≤ 2 ^ 32) : absQ n ≤ pow2 470 := by
  have hn : |(n : ℚ)| ≤ pow2 32 := by rw [pow2_eq_zpow]; exact_mod_cast h
  rw [absQ_eq_abs]; exact hn.trans (pow2_le_pow2 (by norm_num))

theorem entryPixel_within (hp : p.inByteRange = true) : (entryPixel p).Within (pow2 470) := by
  simp only [PaletteEntry.inByteRange, Bool.and_eq_true, decide_eq_true_eq] at hp
  refine ⟨absQ_intCast_le ?_, absQ_intCast_le ?_, absQ_intCast_le ?_⟩ <;> rw [Nat.abs_cast] <;> omega

theorem subPixel_completes {w : Pixel} (hv : v.Within (pow2 470)) (hw : w.Within (pow2 470)) :
    ∃ e, subPixel num v w = .ok e ∧ |e.r| ≤ pow2 471 ∧ |e.g| ≤ pow2 471 ∧ |e.b| ≤ pow2 471 := by
  simp only [Pixel.Within, absQ_eq_abs] at hv hw
  obtain ⟨hvr, hvg, hvb⟩ := hv
  obtain ⟨hwr, hwg, hwb⟩ := hw
  obtain ⟨r, hr, hr'⟩ := fsub_completes hvr hwr
  obtain ⟨g, hg, hg'⟩ := fsub_completes hvg hwg
  obtain ⟨b, hb, hb'⟩ := fsub_completes hvb hwb
  exact ⟨⟨r, g, b⟩, subPixel_ok_iff.2 ⟨hr, hg, hb⟩, hr', hg', hb'⟩

/-- Differences up to `2^471` have squares up to `2^942`, whose sum is below the bound of `Q`. -/
theorem dist_completes (hv : v.Within (pow2 470)) (hp : p.inByteRange = true) : ∃ d, dist num v p = .ok d := by
  obtain ⟨e, he, hr, hg, hb⟩ := subPixel_completes hv (entryPixel_within hp)
  obtain ⟨rr, hrr, hrr'⟩ := fmul_self_completes hr
  obtain ⟨gg, hgg, hgg'⟩ := fmul_self_completes hg
  obtain ⟨bb, hbb, hbb'⟩ := fmul_self_completes hb
  obtain ⟨rg, hrg, hrg'⟩ := fadd_completes hrr' hgg'
  obtain ⟨d, hd, -⟩ := fadd_completes hrg' (hbb'.trans (pow2_le_pow2 (by norm_num)))
  exact ⟨d, dist_ok_iff.2 ⟨e, rr, gg, bb, rg, he, hrr, hgg, hbb, hrg, hd⟩⟩

/-! ### The palettes of a legal configuration -/

theorem palette_wf_iff {n : Nat} {pal : Palette} :
    pal.wf n = true ↔ pal.size = n ∧ pal.blackFirst = true ∧ (∀ p ∈ pal.entries, p.inByteRange = true) ∧
      (pal.entries.map (·.name)).Nodup := by
  simp [Palette.wf, and_assoc]

theorem palette_wf (hc : c.wf = true) (f : Variant) : ∃ n ≤ 4, (c.palette f).wf n = true := by
  simp only [Config.wf, Bool.and_eq_true] at hc
  obtain ⟨⟨-, h4⟩, h3⟩ := hc
  cases f with
  | bwry => exact ⟨4, le_rfl, h4⟩
  | bwr => exact ⟨3, by norm_num, h3⟩

theorem palette_size_le (hc : c.wf = true) (f : Variant) : (c.palette f).size ≤ 4 := by
  obtain ⟨n, hn, h⟩ := palette_wf hc f
  obtain ⟨hsize, -⟩ := palette_wf_iff.1 h
  exact hsize.trans_le hn

theorem inByteRange_of_mem_palette (hc : c.wf = true) (hp : p ∈ (c.palette f).entries) : p.inByteRange = true := by
  obtain ⟨n, -, h⟩ := palette_wf hc f
  obtain ⟨-, -, hrange, -⟩ := palette_wf_iff.1 h
  exact hrange p hp

/-! ### `nearest` (R101, R103) -/

theorem nearest_completes_of_within (hc : c.wf = true) (hv : v.Within (pow2 470)) (f : Variant) :
    ∃ k, nearest c v f = .ok k :=
  nearest_completes fun _ hp => dist_completes hv (inByteRange_of_mem_palette hc hp)

/-- A palette has at most 4 entries, so the code is the position that `nearestPos` answers. -/
theorem nearest_spec {k : Code} (hc : c.wf = true) (h : nearest c v f = .ok k) :
    ∃ p dk, (c.palette f).entries[k.toNat]? = some p ∧ dist c.num v p = .ok dk ∧
      ∀ (j : Nat) (p' : PaletteEntry), (c.palette f).entries[j]? = some p' →
        ∃ dj, dist c.num v p' = .ok dj ∧ dk ≤ dj ∧ (j < k.toNat → dk < dj) := by
  obtain ⟨n, hn, rfl⟩ := nearest_ok_iff.1 h
  obtain ⟨p, d, hp, hd, hmin⟩ := nearestPos_spec hn
  have hsize : n < (c.palette f).size := (List.getElem?_eq_some_iff.1 hp).1
  have hcode : (BitVec.ofNat 2 n).toNat = n := by
    have := palette_size_le hc f
    rw [BitVec.toNat_ofNat, Nat.mod_eq_of_lt (by omega)]
  rw [hcode]
  exact ⟨p, d, hp, hd, hmin⟩

theorem eq_of_abs_natCast_sub_lt {m n : ℕ} (h : |(m : ℚ) - n| < pow2 (-537)) : m = n := by
  have h1 : |((m : ℤ) - n : ℤ)| < 1 := by
    have hlt : |(m : ℚ) - n| < 1 := h.trans (by rw [pow2_eq_zpow]; exact zpow_lt_one_of_neg₀ one_lt_two (by norm_num))
    exact_mod_cast hlt
  have h0 := Int.abs_lt_one_iff.1 h1
  omega

/-- Palette colours are integers, so two that differ have a positive distance. -/
theorem entryPixel_eq_of_dist_zero {p' : PaletteEntry} (h : dist num (entryPixel p') p = .ok 0) :
    entryPixel p' = entryPixel p := by
  rw [entryPixel_eq p'] at h
  obtain ⟨hr, hg, hb⟩ := abs_sub_lt_of_dist_zero h
  rw [entryPixel_eq, entryPixel_eq, eq_of_abs_natCast_sub_lt hr, eq_of_abs_natCast_sub_lt hg, eq_of_abs_natCast_sub_lt hb]

/-- The entry answered is at distance 0 because entry `j` is, so it is not before `j`; a later one would be strictly nearer
than `j`. -/
theorem nearest_entryPixel (hc : c.wf = true) {j : Nat} (hp : (c.palette f).entries[j]? = some p)
    (hfirst : ∀ j' p', j' < j → (c.palette f).entries[j']? = some p' → entryPixel p' ≠ entryPixel p) :
    nearest c (entryPixel p) f = .ok (BitVec.ofNat 2 j) := by
  have hv := entryPixel_within (inByteRange_of_mem_palette hc (List.mem_of_getElem? hp))
  obtain ⟨k, hk⟩ := nearest_completes_of_within hc hv f
  obtain ⟨p', dk, hp', hdk, hmin⟩ := nearest_spec hc hk
  obtain ⟨dj, hdj, hle, hlt⟩ := hmin j p hp
  obtain rfl : 0 = dj := Except.ok.inj ((dist_entryPixel_self c.num p).symm.trans hdj)
  obtain rfl : dk = 0 := le_antisymm hle (dist_nonneg hdk)
  have hjk : k.toNat = j := by
    rcases lt_trichotomy k.toNat j with h | h | h
    · exact absurd (entryPixel_eq_of_dist_zero hdk).symm (hfirst _ p' h hp')
    · exact h
    · exact absurd (hlt h) (lt_irrefl 0)
  rw [hk, ← hjk, BitVec.ofNat_toNat, BitVec.setWidth_eq]

/-- Settles O31: (a) is `nearest_entryPixel`, (b) and (c) are `nearest_spec`. -/
theorem lawsOfNearest : Obligations.LawsOfNearest := by
  unfold Obligations.LawsOfNearest
  refine fun c hc f => ⟨fun j p hp hfirst => ⟨nearest_entryPixel hc hp hfirst, dist_entryPixel_self c.num p⟩,
    fun v k hk => ?_⟩
  obtain ⟨p, dk, hp, hdk, hmin⟩ := nearest_spec hc hk
  have hat : paletteAt (c.palette f) k = p := by rw [paletteAt, hp, Option.getD_some]
  exact ⟨(List.getElem?_eq_some_iff.1 hp).1, dk, hat ▸ hdk, hmin⟩

/-! ### The command (R104) -/

theorem execClassify_of_variant {k : Code} (hf : variantOf s.format = some f)
    (hk : nearest Config.hw s.operandTriple f = .ok k) : execClassify s = .next { s with result := k } := by
  rw [execClassify, classify, withFormat_some hf, hk]; rfl

theorem execClassify_of_unrecognised (h : 2 ≤ s.format.toNat) :
    execClassify s = .next (raise .invalidPaletteFormat s.formatInfo s) := by
  rw [execClassify, classify, withFormat_none (variantOf_eq_none.2 h)]; rfl

theorem abs_toInt_le (w : Word) : |w.toInt| ≤ 2 ^ 32 := by
  have hlo := w.le_toInt
  have hhi := w.toInt_lt
  rw [abs_le]; omega

theorem operandTriple_within (s : State) : s.operandTriple.Within (pow2 470) :=
  ⟨absQ_intCast_le (abs_toInt_le s.cr), absQ_intCast_le (abs_toInt_le s.cg), absQ_intCast_le (abs_toInt_le s.cb)⟩

/-- Settles O32: 32-bit operands are inside the bound under which every distance is answered; the worked examples are
evaluated. -/
theorem classifyWritesTheNearestCode : Obligations.ClassifyWritesTheNearestCode := by
  unfold Obligations.ClassifyWritesTheNearestCode
  refine ⟨fun s f hs => ?_, fun s h => ?_, ?_⟩
  · obtain ⟨k, hk⟩ := nearest_completes_of_within hw_wf (operandTriple_within s) f
    exact ⟨k, hk, execClassify_of_variant (variantOf_eq_some.2 hs) hk⟩
  · rw [← formatInfo_eq]; exact execClassify_of_unrecognised h
  · decide +kernel

/-- Settles O30: the model is evaluated on the rule's two fixed triples. -/
theorem noClampingExample : Obligations.NoClampingExample := by
  unfold Obligations.NoClampingExample
  decide +kernel

end Sys2Proof.Machine
end

section
/-! PROOFS of the statements about 41_dither.md R120 and R121: `ADVANCE` and the number of turns of the quantising loop. Both
count with `State.AtPixel`, the scan position in row-major order. -/

namespace Sys2Proof.Machine

variable {s : State} {w h i n : Nat}

/-! ### `ADVANCE` (R120) -/

theorem advance_end_toNat (hx : s.xpos.toNat + 1 = s.W) (hy : s.ypos.toNat < s.H) :
    s.advance.xpos.toNat = 0 ∧ s.advance.ypos.toNat = s.ypos.toNat + 1 := by
  have hH : s.H < 2 ^ 16 := s.height.isLt
  rw [advance_xpos_end hx, advance_ypos_end hx]
  exact ⟨rfl, BitVec.toNat_add_of_lt (by change s.ypos.toNat + 1 < 2 ^ 16; omega)⟩

theorem advance_inner_toNat (hx : s.xpos.toNat < s.W) (hne : s.xpos.toNat + 1 ≠ s.W) :
    s.advance.xpos.toNat = s.xpos.toNat + 1 ∧ s.advance.ypos = s.ypos := by
  have hW : s.W < 2 ^ 16 := s.width.isLt
  rw [advance_xpos_inner hne, advance_ypos_inner hne]
  exact ⟨BitVec.toNat_add_of_lt (by change s.xpos.toNat + 1 < 2 ^ 16; omega), rfl⟩

theorem State.AtPixel.iterate_advance (p : s.AtPixel w h 0) (hn : n ≤ w * h) :
    ((State.advance)^[n] s).AtPixel w h n := by
  induction n with
  | zero => exact p
  | succ n ih => rw [Function.iterate_succ_apply']; exact (ih (by omega)).advance hn

/-- Settles O33: one call by whether the column is the last, `n` calls by `State.AtPixel.iterate_advance`. -/
theorem advanceIsRowMajor : Obligations.AdvanceIsRowMajor := by
  unfold Obligations.AdvanceIsRowMajor
  refine ⟨fun s hx hy => ⟨advance_eq s, fun he => advance_end_toNat he hy, advance_inner_toNat hx⟩,
    fun s n hx hy _ hn => ?_⟩
  have hstart : s.AtPixel s.W s.H 0 := (atPixel_start s).congr rfl rfl hx hy
  obtain ⟨-, -, hcol, hrow⟩ := hstart.iterate_advance hn
  exact ⟨hcol, hrow⟩

/-! ### The number of turns (R121) -/

theorem State.DimsOk.badDims_eq_false {c : Config} (hd : s.DimsOk c) {m : Bool} (hm : m = true → s.W % 4 = 0) :
    s.badDims c m = false := by
  obtain ⟨hW, hH, hcap⟩ := hd
  exact Machine.badDims_eq_false.2 ⟨hW, hH, hcap, hm⟩

/-- Once the checks pass, `QUANT` is its body. -/
theorem exec_quant_eq {f : Variant} (hs : s.Selects f) (hd : s.DimsOk Config.hw) :
    exec .quant s = finish (quantBody Config.hw f s) := by
  have hb : s.badDims Config.hw false = false := hd.badDims_eq_false (by simp)
  rw [exec, execQuant, quant, withFormat_some (variantOf_eq_some.2 hs), withDims_good hb]

/-- Where each turn moves to the next pixel, the guard of the loop holds at every turn, so it can be left out. -/
theorem scan_eq_repeatMicro {micro : State → Except Stop State} (hw : 0 < w)
    (turn : ∀ {i s t}, i < w * h → s.AtPixel w h i → micro s = .ok t → t.AtPixel w h (i + 1))
    (hn : i + n = w * h) (p : s.AtPixel w h i) : scan micro n s = repeatMicro micro n s := by
  induction n generalizing i s with
  | zero => rfl
  | succ n ih =>
    have hi : i < w * h := by omega
    rw [scan_succ, if_pos ((p.guard hw).2 hi), repeatMicro]
    cases hu : micro s with
    | error e => rfl
    | ok u => exact ih (by omega) (turn hi p hu)

/-- Settles O36: the micro-operation of either setting of `CFG.DITHER` moves the scan to the next pixel. -/
theorem quantRunsOneMicroOperationPerPixel : Obligations.QuantRunsOneMicroOperationPerPixel := by
  unfold Obligations.QuantRunsOneMicroOperationPerPixel
  intro s f hs hd
  have hmicro : (if s.dither then dstep Config.hw f else qstep Config.hw f) = quantStep Config.hw f s.dither := rfl
  rw [exec_quant_eq hs hd, hmicro, quantBody,
    scan_eq_repeatMicro hd.1 quantStep_atPixel (Nat.zero_add _) (atPixel_start s)]

end Sys2Proof.Machine
end

section
/-! PROOFS of the statements about one `DSTEP` (41_dither.md R122 to R126): what it leaves in every element of the memories,
and that a zero error leaves `PIX` as it is. -/

namespace Sys2Proof.Machine

variable {c : Config} {f : Variant} {num : NumFormat} {s t : State} {v e p p' : Pixel} {k : ℚ} {x y i : Nat}

/-! ### The share of one neighbour (R122) -/

/-- Element `i` of `PIX` gets the share `k` of the error `e` on the way from `s` to `t`. -/
def State.GetsShare (num : NumFormat) (e : Pixel) (k : ℚ) (i : Nat) (s t : State) : Prop :=
  ∃ p p', s.pix.read i = some p ∧ addShare num p e k = .ok p' ∧ t.pix.read i = some p'

/-- The four neighbours of a pixel inside the grid are four elements, so each gets one share and no other element any. -/
theorem propagate_read (hx : x < s.W) (h : propagate num x y i e s = .ok t) :
    (x + 1 < s.W → State.GetsShare num e K7 (i + 1) s t) ∧
      (y + 1 < s.H ∧ 1 ≤ x → State.GetsShare num e K3 (i + s.W - 1) s t) ∧
      (y + 1 < s.H → State.GetsShare num e K5 (i + s.W) s t) ∧
      (y + 1 < s.H ∧ x + 1 < s.W → State.GetsShare num e K1 (i + s.W + 1) s t) ∧
      ∀ j, ¬(x + 1 < s.W ∧ j = i + 1) → ¬((y + 1 < s.H ∧ 1 ≤ x) ∧ j = i + s.W - 1) →
        ¬(y + 1 < s.H ∧ j = i + s.W) → ¬((y + 1 < s.H ∧ x + 1 < s.W) ∧ j = i + s.W + 1) →
        t.pix.read j = s.pix.read j := by
  obtain ⟨s1, s2, s3, h1, h2, h3, h4⟩ := propagate_ok h
  obtain ⟨share1, other1⟩ := diffuseIf_read h1
  obtain ⟨share2, other2⟩ := diffuseIf_read h2
  obtain ⟨share3, other3⟩ := diffuseIf_read h3
  obtain ⟨share4, other4⟩ := diffuseIf_read h4
  refine ⟨fun hin => ?_, fun hin => ?_, fun hin => ?_, fun hin => ?_, fun j n1 n2 n3 n4 => ?_⟩
  · obtain ⟨p, p', hp, hadd, hp'⟩ := share1 hin
    exact ⟨p, p', hp, hadd, by rw [other4 _ (by omega), other3 _ (by omega), other2 _ (by omega), hp']⟩
  · obtain ⟨p, p', hp, hadd, hp'⟩ := share2 hin
    exact ⟨p, p', by rw [← hp, other1 _ (by omega)], hadd, by rw [other4 _ (by omega), other3 _ (by omega), hp']⟩
  · obtain ⟨p, p', hp, hadd, hp'⟩ := share3 hin
    exact ⟨p, p', by rw [← hp, other2 _ (by omega), other1 _ (by omega)], hadd, by rw [other4 _ (by omega), hp']⟩
  · obtain ⟨p, p', hp, hadd, hp'⟩ := share4 hin
    exact ⟨p, p', by rw [← hp, other3 _ (by omega), other2 _ (by omega), other1 _ (by omega)], hadd, hp'⟩
  · rw [other4 j n4, other3 j n3, other2 j n2, other1 j n1]

theorem subPixel_eq (h : subPixel num v p = .ok e) :
    e = ⟨roundIn num (v.r - p.r), roundIn num (v.g - p.g), roundIn num (v.b - p.b)⟩ := by
  obtain ⟨hr, hg, hb⟩ := subPixel_ok_iff.1 h
  rw [← (roundTo_ok_iff.1 hr).2, ← (roundTo_ok_iff.1 hg).2, ← (roundTo_ok_iff.1 hb).2]

theorem addShare_eq (h : addShare num p e k = .ok p') :
    p' = ⟨roundIn num (p.r + roundIn num (e.r * k)), roundIn num (p.g + roundIn num (e.g * k)),
      roundIn num (p.b + roundIn num (e.b * k))⟩ := by
  obtain ⟨⟨mr, hmr, hr⟩, ⟨mg, hmg, hg⟩, ⟨mb, hmb, hb⟩⟩ := addShare_ok_iff.1 h
  rw [← (roundTo_ok_iff.1 hmr).2, ← (roundTo_ok_iff.1 hmg).2, ← (roundTo_ok_iff.1 hmb).2,
    ← (roundTo_ok_iff.1 hr).2, ← (roundTo_ok_iff.1 hg).2, ← (roundTo_ok_iff.1 hb).2]

/-- In binary64 a neighbour's new value is written out with one rounding per product and one per sum. -/
theorem State.GetsShare.rounded (h : State.GetsShare .binary64 e k i s t) :
    ∃ a, s.pix.read i = some a ∧ t.pix.read i =
      some ⟨rnd (a.r + rnd (e.r * k)), rnd (a.g + rnd (e.g * k)), rnd (a.b + rnd (e.b * k))⟩ := by
  obtain ⟨a, p', ha, hadd, hp'⟩ := h
  exact ⟨a, ha, by rw [hp', addShare_eq hadd]; rfl⟩

theorem paletteAt_of_getElem? {pal : Palette} {code : Code} {q : PaletteEntry} (h : pal.entries[code.toNat]? = some q) :
    paletteAt pal code = q := by rw [paletteAt, h, Option.getD_some]

/-- Settles O34: the elements are those of `propagate_read`, the rest of the state is `dstep_frame`. -/
theorem ditherStepDiffusesTheError : Obligations.DitherStepDiffusesTheError := by
  unfold Obligations.DitherStepDiffusesTheError
  rintro s t f x y i rfl rfl rfl hx - h
  obtain ⟨⟨h7, h3, h5, h1⟩, -⟩ := diffusionCoefficients
  obtain ⟨v, code, e, u, hv, hcode, he, hu, rfl⟩ := dstep_ok h
  obtain ⟨q, -, hq, -⟩ := nearest_spec hw_wf hcode
  rw [paletteAt_of_getElem? hq, entryPixel_eq] at he
  obtain ⟨right, downLeft, down, downRight, other⟩ :=
    propagate_read (s := s.writeIdx s.scanIndex code) hx hu
  have hidx : u.idx = s.idx.write s.scanIndex code := by rw [propagate_frame hu]; rfl
  refine ⟨v, e, code, q, hv, hcode, hq, subPixel_eq he, ?_, fun j hj => ?_, fun hr => ?_, fun hl hd => ?_, fun hd => ?_,
    fun hr hd => ?_, fun j n1 n2 n3 n4 => ?_, dstep_frame h⟩
  · rw [advance_idx, hidx]; exact Memory.read_write_same _ _ _
  · rw [advance_idx, hidx]; exact Memory.read_write_other _ _ hj
  · rw [advance_pix, ← h7]; exact (right hr).rounded
  · rw [advance_pix, ← h3]; exact (downLeft ⟨hd, hl⟩).rounded
  · rw [advance_pix, ← h5]; exact (down hd).rounded
  · rw [advance_pix, ← h1]; exact (downRight ⟨hd, hr⟩).rounded
  · rw [advance_pix]
    exact other j n1 (fun ⟨⟨hd, hl⟩, hj⟩ => n2 ⟨hl, hd, hj⟩) n3 fun ⟨⟨hd, hr⟩, hj⟩ => n4 ⟨hr, hd, hj⟩

/-! ### A zero error (R126) -/

theorem roundIn_of_inCarrier {q : ℚ} (h : InCarrier num q) : roundIn num q = q := by
  cases num with
  | binary64 => exact rnd_of_inBinary64 h
  | exact => rfl

/-- The share of a zero error is zero, and a value of `Q` is not rounded. -/
theorem addShare_zero (hp : p.InCarrier num) (h : addShare num p ⟨0, 0, 0⟩ k = .ok p') : p' = p := by
  obtain ⟨hr, hg, hb⟩ := hp
  rw [addShare_eq h]
  simp only [zero_mul, roundIn_zero, add_zero, roundIn_of_inCarrier hr, roundIn_of_inCarrier hg, roundIn_of_inCarrier hb]

/-- `PIX` is canonical and holds values of `Q` only. -/
structure State.PixWf (cap : Nat) (num : NumFormat) (s : State) : Prop where
  pixWf : s.pix.wf cap
  pixInCarrier : ∀ i v, s.pix.read i = some v → v.InCarrier num

theorem diffuseIf_zero {cap : Nat} {inside : Prop} [Decidable inside] (hs : s.PixWf cap num)
    (h : diffuseIf inside num i ⟨0, 0, 0⟩ k s = .ok t) : t = s := by
  rcases diffuseIf_ok_iff.1 h with ⟨-, h⟩ | ⟨-, rfl⟩
  · obtain ⟨p, p', hp, hadd, rfl⟩ := diffuse_ok_iff.1 h
    rw [addShare_zero (hs.pixInCarrier i p hp) hadd, State.writePix, Memory.write_read_self hs.pixWf hp]
  · rfl

theorem propagate_zero {cap : Nat} (hs : s.PixWf cap num) (h : propagate num x y i ⟨0, 0, 0⟩ s = .ok t) : t = s := by
  obtain ⟨s1, s2, s3, h1, h2, h3, h4⟩ := propagate_ok h
  obtain rfl := diffuseIf_zero hs h1
  obtain rfl := diffuseIf_zero hs h2
  obtain rfl := diffuseIf_zero hs h3
  exact diffuseIf_zero hs h4

/-- The code of an exact palette colour is a code of that colour. -/
theorem entryPixel_of_nearest {q : PaletteEntry} {code : Code} (hc : c.wf = true) (hq : q ∈ (c.palette f).entries)
    (h : nearest c (entryPixel q) f = .ok code) :
    ∃ q', (c.palette f).entries[code.toNat]? = some q' ∧ entryPixel q' = entryPixel q := by
  obtain ⟨q', dk, hq', hdk, hmin⟩ := nearest_spec hc h
  obtain ⟨j, hj⟩ := List.getElem?_of_mem hq
  obtain ⟨dj, hdj, hle, -⟩ := hmin j q hj
  obtain rfl : 0 = dj := Except.ok.inj ((dist_entryPixel_self c.num q).symm.trans hdj)
  obtain rfl : dk = 0 := le_antisymm hle (dist_nonneg hdk)
  exact ⟨q', hq', (entryPixel_eq_of_dist_zero hdk).symm⟩

theorem subPixel_self (h : subPixel num v v = .ok e) : e = ⟨0, 0, 0⟩ := by
  rw [subPixel_eq h]; simp only [sub_self, roundIn_zero]

/-- A `DSTEP` over an exact palette colour has a zero error to diffuse. -/
theorem dstep_pix_of_exact {q : PaletteEntry} {cap : Nat} (hc : c.wf = true) (hs : s.PixWf cap c.num)
    (hq : q ∈ (c.palette f).entries) (hv : s.pix.read s.scanIndex = some (entryPixel q)) (h : dstep c f s = .ok t) :
    t.pix = s.pix := by
  obtain ⟨v, code, e, u, hv', hcode, he, hu, rfl⟩ := dstep_ok h
  obtain rfl : entryPixel q = v := Option.some.inj (hv.symm.trans hv')
  obtain ⟨q', hq', heq⟩ := entryPixel_of_nearest hc hq hcode
  rw [paletteAt_of_getElem? hq', heq] at he
  obtain rfl := subPixel_self he
  have hcoded : (s.writeIdx s.scanIndex code).PixWf cap c.num := ⟨hs.pixWf, hs.pixInCarrier⟩
  rw [advance_pix, propagate_zero hcoded hu, writeIdx_pix]

/-- Settles O40. -/
theorem zeroErrorLeavesThePixelGrid : Obligations.ZeroErrorLeavesThePixelGrid := by
  unfold Obligations.ZeroErrorLeavesThePixelGrid
  exact fun s t f q hwf hcar hq hv h => dstep_pix_of_exact hw_wf ⟨hwf, hcar⟩ hq hv h

end Sys2Proof.Machine
end

section
/-! PROOFS of the statements about what a whole run leaves in the memories (41_dither.md R121, R128; 43_pack.md R150, R154). A
step at pixel `i` writes `PIX` only at neighbours after `i` and inside the grid, so a pixel keeps its value, and its code stays
the nearest code of that value, once the scan has passed it. -/

namespace Sys2Proof.Machine

variable {c : Config} {f : Variant} {num : NumFormat} {s s₀ t u : State} {e : Pixel} {w h i n : Nat}

/-! ### What one micro-operation leaves (R122, R140) -/

/-- The neighbours inside a `w` by `h` grid are elements of the grid. -/
theorem neighbour_lt (hi : i < w * h) :
    (i % w + 1 < w → i + 1 < w * h) ∧ (i / w + 1 < h → i + w < w * h) ∧
      (i / w + 1 < h → i % w + 1 < w → i + w + 1 < w * h) := by
  have hw : 0 < w := Nat.pos_of_mul_pos_right (Nat.zero_lt_of_lt hi)
  have hpos : w * (i / w) + i % w = i := Nat.div_add_mod i w
  have hcol : i % w < w := Nat.mod_lt i hw
  have hrow : w * (i / w + 1) ≤ w * h := Nat.mul_le_mul_left w ((Nat.div_lt_iff_lt_mul hw).2 (by rwa [mul_comm] at hi))
  have hnext (hy : i / w + 1 < h) : w * (i / w + 2) ≤ w * h := Nat.mul_le_mul_left w hy
  simp only [Nat.mul_add] at hrow hnext
  refine ⟨fun hx => by omega, fun hy => ?_, fun hy hx => ?_⟩
  · have := hnext hy; omega
  · have := hnext hy; omega

theorem propagate_read_outside (p : s.AtPixel w h i) (hi : i < w * h)
    (hu : propagate num s.xpos.toNat s.ypos.toNat i e s = .ok u) {j : Nat} (hj : j ≤ i ∨ w * h ≤ j) :
    u.pix.read j = s.pix.read j := by
  obtain ⟨hW, hH, hcol, hrow⟩ := p
  have hx : i % w < w := Nat.mod_lt i (Nat.pos_of_mul_pos_right (Nat.zero_lt_of_lt hi))
  obtain ⟨right, down, downRight⟩ := neighbour_lt hi
  obtain ⟨-, -, -, -, other⟩ := propagate_read (by rw [hcol, hW]; exact hx) hu
  simp only [hW, hH, hcol, hrow] at other
  refine other j (fun ⟨hr, _⟩ => ?_) (fun ⟨⟨hd, hl⟩, _⟩ => ?_) (fun ⟨hd, _⟩ => ?_) fun ⟨⟨hd, hr⟩, _⟩ => ?_
  · have := right hr; omega
  · have := down hd; omega
  · have := down hd; omega
  · have := downRight hd hr; omega

/-- Either micro-operation at pixel `i` records the nearest code of the pixel, and leaves `PIX` up to it and beyond the grid. -/
theorem quantStep_spec {d : Bool} (p : s.AtPixel w h i) (hi : i < w * h) (ht : quantStep c f d s = .ok t) :
    ∃ v k, s.pix.read i = some v ∧ nearest c v f = .ok k ∧ t.idx = s.idx.write i k ∧
      ∀ j, j ≤ i ∨ w * h ≤ j → t.pix.read j = s.pix.read j := by
  cases d with
  | true =>
    obtain ⟨v, k, e, u, hv, hk, -, hu, rfl⟩ := dstep_ok ht
    rw [p.scanIndex] at hv hu
    have hcoded : (s.writeIdx i k).AtPixel w h i := p.congr rfl rfl rfl rfl
    refine ⟨v, k, hv, hk, ?_, fun j hj => ?_⟩
    · rw [advance_idx, propagate_frame hu, writeIdx_idx]
    · rw [advance_pix, propagate_read_outside hcoded hi hu hj, writeIdx_pix]
  | false =>
    obtain ⟨v, k, hv, hk, rfl⟩ := qstep_ok_iff.1 ht
    rw [p.scanIndex] at hv ⊢
    exact ⟨v, k, hv, hk, by rw [advance_idx, writeIdx_idx], fun j _ => by rw [advance_pix, writeIdx_pix]⟩

/-! ### What a whole scan leaves (R121) -/

/-- A scan that began in `s₀` has passed the first `i` pixels: each of them has the nearest code of its value, and pixel 0 and
what lies beyond the grid are as they were. -/
structure State.Coded (c : Config) (f : Variant) (i : Nat) (s s₀ : State) : Prop where
  code : ∀ j, j < i → ∃ v k, s.pix.read j = some v ∧ nearest c v f = .ok k ∧ s.idx.read j = some k
  first : s.pix.read 0 = s₀.pix.read 0
  beyond : ∀ j, s₀.W * s₀.H ≤ j → s.pix.read j = s₀.pix.read j ∧ s.idx.read j = s₀.idx.read j

theorem State.Coded.start (hp : s.pix = s₀.pix) (hx : s.idx = s₀.idx) : s.Coded c f 0 s₀ where
  code j hj := absurd hj (Nat.not_lt_zero j)
  first := by rw [hp]
  beyond j _ := by rw [hp, hx]; exact ⟨rfl, rfl⟩

theorem State.Coded.quantStep {d : Bool} (hs : s.Coded c f i s₀) (p : s.AtPixel s₀.W s₀.H i) (hi : i < s₀.W * s₀.H)
    (ht : quantStep c f d s = .ok t) : t.Coded c f (i + 1) s₀ := by
  obtain ⟨v, k, hv, hk, hidx, hpix⟩ := quantStep_spec p hi ht
  refine ⟨fun j hj => ?_, (hpix 0 (.inl (Nat.zero_le i))).trans hs.first, fun j hj => ?_⟩
  · rw [hpix j (.inl (Nat.le_of_lt_succ hj)), hidx]
    rcases Nat.lt_succ_iff_lt_or_eq.1 hj with hlt | rfl
    · rw [Memory.read_write_other _ _ hlt.ne]; exact hs.code j hlt
    · exact ⟨v, k, hv, hk, Memory.read_write_same _ _ _⟩
  · rw [hpix j (.inr hj), hidx, Memory.read_write_other _ _ (hi.trans_le hj).ne']
    exact hs.beyond j hj

theorem quantBody_coded (hW : 0 < s.W) (ht : quantBody c f s = .ok t) : t.Coded c f (s.W * s.H) s :=
  (scan_counted (J := fun i u => u.Coded c f i s)
    (fun _ _ _ hi p hu hv => ⟨quantStep_atPixel hi p hv, hu.quantStep p hi hv⟩)
    hW (Nat.zero_add _) (atPixel_start s) (.start rfl rfl) ht).2

/-! ### Palette codes (R128) -/

theorem code_lt_size {v : Pixel} {k : Code} (hc : c.wf = true) (hk : nearest c v f = .ok k) :
    k.toNat < (c.palette f).size := by
  obtain ⟨p, -, hp, -⟩ := nearest_spec hc hk
  exact (List.getElem?_eq_some_iff.1 hp).1

/-- Once the checks pass, `CONVERT` is its two bodies. -/
theorem exec_convert_eq (hs : s.Selects f) (hd : s.DimsOk Config.hw) (h4 : s.W % 4 = 0) :
    exec .convert s = finish (quantBody Config.hw f s >>= packBody) := by
  have hb : s.badDims Config.hw true = false := hd.badDims_eq_false fun _ => h4
  rw [exec, execConvert, convert, withFormat_some (variantOf_eq_some.2 hs), withDims_good hb]

theorem packBody_idx (ht : packBody s = .ok t) : t.idx = s.idx := by rw [packBody_frame ht]

/-- Settles O41: the codes are those of the scan, which `CONVERT`'s packing only reads. -/
theorem onlyPaletteCodesAreEmitted : Obligations.OnlyPaletteCodesAreEmitted := by
  unfold Obligations.OnlyPaletteCodesAreEmitted
  intro s t f hs hd hrun i hi
  obtain ⟨u, hu, hidx⟩ : ∃ u, quantBody Config.hw f s = .ok u ∧ t.idx = u.idx := by
    rcases hrun with hq | ⟨h4, hc⟩
    · rw [exec_quant_eq hs hd] at hq
      exact ⟨t, finish_next_iff.1 hq, rfl⟩
    · rw [exec_convert_eq hs hd h4] at hc
      obtain ⟨u, hu, ht⟩ := bind_ok_iff.1 (finish_next_iff.1 hc)
      exact ⟨u, hu, packBody_idx ht⟩
  obtain ⟨v, k, -, hk, hread⟩ := (quantBody_coded hd.1 hu).code i hi
  exact ⟨k, hidx ▸ hread, code_lt_size hw_wf hk⟩

/-! ### What each command leaves of the memories -/

theorem packBody_out_beyond (ht : packBody s = .ok t) {j : Nat} (hj : s.W * s.H / 4 ≤ j) :
    t.out.read j = s.out.read j := by
  have keeps := packLoop_keeps (I := fun u => u.W = s.W ∧ u.H = s.H ∧ u.out.read j = s.out.read j)
    (s := { s with optr := 0#32 }) ?_ ⟨rfl, rfl, rfl⟩ ht
  · exact keeps.2.2
  · rintro u v ⟨hW, hH, hout⟩ hlt hv
    obtain ⟨k0, k1, k2, k3, -, -, -, -, rfl⟩ := packb_ok_iff.1 hv
    rw [hW, hH] at hlt
    exact ⟨hW, hH, (Memory.read_write_other _ _ (hlt.trans_le hj).ne').trans hout⟩

theorem exec_quant_memories (ht : exec .quant s = .next t) :
    t.out = s.out ∧ (s.dither = false → t.pix = s.pix) ∧
      ∀ i, s.W * s.H ≤ i → t.pix.read i = s.pix.read i ∧ t.idx.read i = s.idx.read i := by
  rcases quant_ok (finish_next_iff.1 ht) with ⟨k, info, rfl, -⟩ | ⟨f, -, hb, hq⟩
  · exact ⟨rfl, fun _ => rfl, fun _ _ => ⟨rfl, rfl⟩⟩
  · obtain ⟨hframe, hpix⟩ := quantBody_frame hq
    exact ⟨by rw [hframe], hpix, (quantBody_coded (badDims_eq_false.1 hb).1 hq).beyond⟩

theorem exec_pack_memories (ht : exec .pack s = .next t) :
    t.pix = s.pix ∧ t.idx = s.idx ∧ ∀ j, s.W * s.H / 4 ≤ j → t.out.read j = s.out.read j := by
  rcases pack_ok (finish_next_iff.1 ht) with ⟨-, rfl⟩ | ⟨-, hp⟩
  · exact ⟨rfl, rfl, fun _ _ => rfl⟩
  · exact ⟨by rw [packBody_frame hp], packBody_idx hp, fun j => packBody_out_beyond hp⟩

theorem exec_convert_memories (ht : exec .convert s = .next t) :
    (s.dither = false → t.pix = s.pix) ∧
      (∀ i, s.W * s.H ≤ i → t.pix.read i = s.pix.read i ∧ t.idx.read i = s.idx.read i) ∧
      ∀ j, s.W * s.H / 4 ≤ j → t.out.read j = s.out.read j := by
  rcases convert_ok (finish_next_iff.1 ht) with ⟨k, info, rfl, -⟩ | ⟨f, u, -, hb, hq, hp⟩
  · exact ⟨fun _ => rfl, fun _ _ => ⟨rfl, rfl⟩, fun _ _ => rfl⟩
  · obtain ⟨hframe, hpix⟩ := quantBody_frame hq
    have hbeyond := (quantBody_coded (badDims_eq_false.1 hb).1 hq).beyond
    have hpacked : t.pix = u.pix := by rw [packBody_frame hp]
    refine ⟨fun hd => hpacked.trans (hpix hd), fun i hi => ?_, fun j hj => ?_⟩
    · rw [hpacked, packBody_idx hp]; exact hbeyond i hi
    · have hju : u.W * u.H / 4 ≤ j := by rw [hframe]; exact hj
      rw [packBody_out_beyond hp hju, hframe]

theorem exec_reset_or_classify_memories (ht : exec .reset s = .next t ∨ exec .classify s = .next t) :
    t.pix = s.pix ∧ t.idx = s.idx ∧ t.out = s.out := by
  rcases ht with ht | ht
  · obtain rfl := Host.Outcome.next.inj ht
    exact ⟨rfl, rfl, rfl⟩
  · rcases classify_ok (finish_next_iff.1 ht) with ⟨-, rfl⟩ | ⟨f, k, -, -, rfl⟩
    · exact ⟨rfl, rfl, rfl⟩
    · exact ⟨rfl, rfl, rfl⟩

/-- Settles O51, command by command. -/
theorem elementsEachCommandLeavesAlone : Obligations.ElementsEachCommandLeavesAlone := by
  unfold Obligations.ElementsEachCommandLeavesAlone
  exact fun s t => ⟨exec_reset_or_classify_memories, exec_quant_memories, exec_pack_memories, exec_convert_memories⟩

end Sys2Proof.Machine
end

section
/-! PROOFS of the statements about whole runs of `QUANT` over a loaded grid (41_dither.md R121, R126; 00_scope.md R12): no
result leaves `Q`, and exact palette colours need no dithering.

A loaded channel is at most `2^470`, sixteen of the units `2^466`. The error of pixel `i` is at most its value plus a palette
colour, and its value at most the loaded one plus sixteen sixteenths of the greatest error before it; so by induction that
error is at most `2 * (i + 1)` times `2^470`. All these bounds are small multiples of the unit, so values of `Q`, and rounding
keeps them. -/

namespace Sys2Proof.Machine

variable {c : Config} {f : Variant} {num : NumFormat} {s t u : State} {v e p : Pixel} {a b q k : ℚ} {d : ℤ} {w h i j l m n : ℕ}
  {wt : ℕ → ℕ}

/-! ### Bounds that rounding keeps -/

/-- A bound that is itself a value of `Q` survives the rounding. -/
theorem roundTo_completes_of_inBinary64 (hb : InBinary64 b) (h : |q| ≤ b) : ∃ r, roundTo num q = .ok r ∧ |r| ≤ b := by
  have hkept : roundIn num b = b := by
    cases num with
    | binary64 => exact rnd_of_inBinary64 hb
    | exact => rfl
  have hr : |roundIn num q| ≤ b := by
    rw [abs_roundIn]; exact (roundIn_mono num h).trans_eq hkept
  refine ⟨roundIn num q, roundTo_ok_iff.2 ⟨?_, rfl⟩, hr⟩
  cases num with
  | binary64 => exact (overflowsIn_binary64 _).2 (hr.trans_lt (hb.abs_lt.trans_le' (le_abs_self b)))
  | exact => rfl

/-- `n` units of `2^e`. -/
def units (e : ℤ) (n : ℕ) : ℚ := n * pow2 e

/-- `n` sixteenths of the bound of a loaded channel. -/
abbrev sixteenths (n : ℕ) : ℚ := units 466 n

theorem units_nonneg (d : ℤ) (n : ℕ) : 0 ≤ units d n := mul_nonneg (Nat.cast_nonneg n) (pow2_pos d).le

theorem units_add (d : ℤ) (m n : ℕ) : units d (m + n) = units d m + units d n := by
  simp only [units]; push_cast; ring

theorem units_mono (h : m ≤ n) : units d m ≤ units d n := mul_le_mul_of_nonneg_right (Nat.cast_le.2 h) (pow2_pos d).le

theorem units_two_pow (d : ℤ) (n : ℕ) : units d (2 ^ n) = pow2 (n + d) := by
  rw [units, pow2_add, pow2_eq_zpow n, zpow_natCast, Nat.cast_pow, Nat.cast_ofNat]

theorem inBinary64_units (hd : 0 ≤ d) (hd' : d ≤ 970) (hn : n ≤ 2 ^ 53) : InBinary64 (units d n) := by
  have hlt : units d n < pow2 1024 :=
    (units_mono hn).trans_lt (by rw [units_two_pow]; exact pow2_lt_pow2 (by omega))
  refine inBinary64_int_mul_pow2 (n := n) (by rw [Nat.abs_cast]; exact_mod_cast hn) (by omega) ?_
  rw [Int.cast_natCast]
  exact (abs_of_nonneg (units_nonneg d n)).trans_lt hlt

theorem fadd_completes_units (ha : |a| ≤ units d m) (hb : |b| ≤ units d n) (hmn : m + n ≤ 2 ^ 53)
    (hd : 0 ≤ d := by norm_num) (hd' : d ≤ 970 := by norm_num) :
    ∃ r, fadd num a b = .ok r ∧ |r| ≤ units d (m + n) := by
  refine roundTo_completes_of_inBinary64 (inBinary64_units hd hd' hmn) ?_
  rw [units_add]
  exact (abs_add_le a b).trans (add_le_add ha hb)

theorem fsub_completes_sixteenths (ha : |a| ≤ sixteenths m) (hb : |b| ≤ sixteenths n) (hmn : m + n ≤ 2 ^ 53) :
    ∃ r, fsub num a b = .ok r ∧ |r| ≤ sixteenths (m + n) := by
  rw [fsub, sub_eq_add_neg]; exact fadd_completes_units ha (by rwa [abs_neg]) hmn

theorem fmul_completes_sixteenths (hk : k = l / 16) (ha : |a| ≤ sixteenths (16 * m)) (hm : l * m ≤ 2 ^ 53) :
    ∃ r, fmul num a k = .ok r ∧ |r| ≤ sixteenths (l * m) := by
  refine roundTo_completes_of_inBinary64 (inBinary64_units (by norm_num) (by norm_num) hm) ?_
  have hk0 : 0 ≤ k := by rw [hk]; positivity
  calc |a * k| = |a| * k := by rw [abs_mul, abs_of_nonneg hk0]
    _ ≤ sixteenths (16 * m) * k := mul_le_mul_of_nonneg_right ha hk0
    _ = sixteenths (l * m) := by simp only [units, hk]; push_cast; ring

/-! ### Pixels -/

theorem within_iff : v.Within b ↔ |v.r| ≤ b ∧ |v.g| ≤ b ∧ |v.b| ≤ b := by simp only [Pixel.Within, absQ_eq_abs]

theorem Pixel.Within.mono (hv : v.Within a) (hab : a ≤ b) : v.Within b := by
  obtain ⟨hr, hg, hb⟩ := hv
  exact ⟨hr.trans hab, hg.trans hab, hb.trans hab⟩

theorem pow2_470_eq : pow2 470 = sixteenths 16 := (units_two_pow 466 4).symm

theorem subPixel_completes_sixteenths (hv : v.Within (sixteenths m)) (hp : p.Within (sixteenths n)) (hmn : m + n ≤ 2 ^ 53) :
    ∃ e, subPixel num v p = .ok e ∧ e.Within (sixteenths (m + n)) := by
  obtain ⟨hvr, hvg, hvb⟩ := within_iff.1 hv
  obtain ⟨hpr, hpg, hpb⟩ := within_iff.1 hp
  obtain ⟨r, hr, hr'⟩ := fsub_completes_sixteenths hvr hpr hmn
  obtain ⟨g, hg, hg'⟩ := fsub_completes_sixteenths hvg hpg hmn
  obtain ⟨b, hb, hb'⟩ := fsub_completes_sixteenths hvb hpb hmn
  exact ⟨⟨r, g, b⟩, subPixel_ok_iff.2 ⟨hr, hg, hb⟩, within_iff.2 ⟨hr', hg', hb'⟩⟩

theorem share_completes (hk : k = l / 16) (ha : |a| ≤ sixteenths n) (hb : |b| ≤ sixteenths (16 * m))
    (hn : n + l * m ≤ 2 ^ 53) :
    ∃ r, (∃ d, fmul num b k = .ok d ∧ fadd num a d = .ok r) ∧ |r| ≤ sixteenths (n + l * m) := by
  obtain ⟨d, hd, hd'⟩ := fmul_completes_sixteenths hk hb (by omega)
  obtain ⟨r, hr, hr'⟩ := fadd_completes_units ha hd' hn
  exact ⟨r, ⟨d, hd, hr⟩, hr'⟩

theorem addShare_completes (hk : k = l / 16) (hp : p.Within (sixteenths n)) (he : e.Within (sixteenths (16 * m)))
    (hn : n + l * m ≤ 2 ^ 53) :
    ∃ p', addShare num p e k = .ok p' ∧ p'.Within (sixteenths (n + l * m)) := by
  obtain ⟨hpr, hpg, hpb⟩ := within_iff.1 hp
  obtain ⟨her, heg, heb⟩ := within_iff.1 he
  obtain ⟨r, hr, hr'⟩ := share_completes hk hpr her hn
  obtain ⟨g, hg, hg'⟩ := share_completes hk hpg heg hn
  obtain ⟨b, hb, hb'⟩ := share_completes hk hpb heb hn
  exact ⟨⟨r, g, b⟩, addShare_ok_iff.2 ⟨hr, hg, hb⟩, within_iff.2 ⟨hr', hg', hb'⟩⟩

/-! ### The classifier on adjusted pixels -/

/-- A channel difference up to `2^496` has a square up to `2^992`. -/
theorem fmul_self_completes_units (ha : |a| ≤ pow2 496) : ∃ r, fmul num a a = .ok r ∧ |r| ≤ units 970 (2 ^ 22) := by
  refine roundTo_completes_of_inBinary64 (inBinary64_units (by norm_num) (by norm_num) (by norm_num)) ?_
  calc |a * a| = |a| * |a| := abs_mul a a
    _ ≤ pow2 496 * pow2 496 := mul_self_le_mul_self (abs_nonneg a) ha
    _ = units 970 (2 ^ 22) := by rw [← pow2_add, units_two_pow]; norm_num

/-- The sum of three such squares is below the bound of `Q`. -/
theorem dist_completes_sixteenths {pe : PaletteEntry} (hv : v.Within (sixteenths n)) (hn : n + 16 ≤ 2 ^ 30)
    (hp : pe.inByteRange = true) : ∃ d, dist num v pe = .ok d := by
  have hentry : (entryPixel pe).Within (sixteenths 16) := pow2_470_eq ▸ entryPixel_within hp
  obtain ⟨e, he, hbound⟩ := subPixel_completes_sixteenths (num := num) hv hentry (by omega)
  have h496 : sixteenths (n + 16) ≤ pow2 496 := (units_mono hn).trans_eq (units_two_pow 466 30)
  obtain ⟨hr, hg, hb⟩ := within_iff.1 (hbound.mono h496)
  obtain ⟨rr, hrr, hrr'⟩ := fmul_self_completes_units hr
  obtain ⟨gg, hgg, hgg'⟩ := fmul_self_completes_units hg
  obtain ⟨bb, hbb, hbb'⟩ := fmul_self_completes_units hb
  obtain ⟨rg, hrg, hrg'⟩ := fadd_completes_units hrr' hgg' (by norm_num)
  obtain ⟨d, hd, -⟩ := fadd_completes_units hrg' hbb' (by norm_num)
  exact ⟨d, dist_ok_iff.2 ⟨e, rr, gg, bb, rg, he, hrr, hgg, hbb, hrg, hd⟩⟩

theorem nearest_completes_sixteenths (hc : c.wf = true) (hv : v.Within (sixteenths n)) (hn : n + 16 ≤ 2 ^ 30) (f : Variant) :
    ∃ code, nearest c v f = .ok code :=
  nearest_completes fun _ hp => dist_completes_sixteenths hv hn (inByteRange_of_mem_palette hc hp)

theorem paletteAt_within (hc : c.wf = true) (f : Variant) (code : Code) :
    (entryPixel (paletteAt (c.palette f) code)).Within (sixteenths 16) := by
  rw [← pow2_470_eq]
  refine entryPixel_within (inByteRange_of_mem_palette (f := f) hc ?_)
  rw [paletteAt]
  cases hq : (c.palette f).entries[code.toNat]? with
  | none => exact List.mem_cons_self
  | some q => exact List.mem_of_getElem? hq

/-! ### The grid while it is dithered -/

/-- The sixteenths of an error that element `j` of a grid of width `w` can have got from the first `i` pixels: 7, 3, 5 and 1
where the pixel that gives the share is among them. -/
def received (w i j : ℕ) : ℕ :=
  (if j < i + 1 then 7 else 0) + (if j + 1 < i + w then 3 else 0) + (if j < i + w then 5 else 0) +
    if j < i + w + 1 then 1 else 0

theorem received_le (w i j : ℕ) : received w i j ≤ 16 := by
  have hle (P : Prop) [Decidable P] (a : ℕ) : (if P then a else 0) ≤ a := by split <;> omega
  exact Nat.add_le_add (Nat.add_le_add (Nat.add_le_add (hle _ 7) (hle _ 3)) (hle _ 5)) (hle _ 1)

/-- The weight of element `j` once element `r` has got `l` sixteenths more. -/
def addWeight (wt : ℕ → ℕ) (r l j : ℕ) : ℕ := wt j + if j = r then l else 0

theorem le_addWeight (wt : ℕ → ℕ) (r l j : ℕ) : wt j ≤ addWeight wt r l j := Nat.le_add_right _ _

theorem addWeight_le {bound r : ℕ} (hwt : ∀ j, wt j ≤ bound) (j : ℕ) : addWeight wt r l j ≤ bound + l := by
  have := hwt j
  rw [addWeight]; split <;> omega

theorem ite_lt_succ (j r a : ℕ) : (if j < r + 1 then a else 0) = (if j < r then a else 0) + if j = r then a else 0 := by
  split_ifs <;> omega

/-- Pixel `i` gives its four shares. -/
theorem received_succ (hw : 0 < w) (i : ℕ) : received w (i + 1) =
    addWeight (addWeight (addWeight (addWeight (received w i) (i + 1) 7) (i + w - 1) 3) (i + w) 5) (i + w + 1) 1 := by
  funext j
  have hrow : i + 1 + w = i + w + 1 := by omega
  have hleft : (j + 1 = i + w) = (j = i + w - 1) := propext (by omega)
  simp only [addWeight, received]
  rw [hrow, ite_lt_succ j (i + 1) 7, ite_lt_succ (j + 1) (i + w) 3, ite_lt_succ j (i + w) 5, ite_lt_succ j (i + w + 1) 1]
  simp only [hleft]
  omega

theorem received_mono (hw : 0 < w) (i j : ℕ) : received w i j ≤ received w (i + 1) j := by
  rw [received_succ hw]; simp only [addWeight]; omega

/-- Every pixel of the grid from `i` to below `n` has been written, with the bound of a loaded channel and `wt` sixteenths of
an error of `m` times it. -/
def State.Bounded (i n m : ℕ) (wt : ℕ → ℕ) (s : State) : Prop :=
  ∀ j, i ≤ j → j < n → ∃ v, s.pix.read j = some v ∧ v.Within (sixteenths (16 + wt j * m))

theorem State.Bounded.mono {i' m' : ℕ} {wt' : ℕ → ℕ} (hs : s.Bounded i n m wt) (hi : i ≤ i') (hm : m ≤ m')
    (hwt : ∀ j, wt j ≤ wt' j) : s.Bounded i' n m' wt' := fun j hj hjn => by
  obtain ⟨v, hv, hb⟩ := hs j (hi.trans hj) hjn
  exact ⟨v, hv, hb.mono (units_mono (Nat.add_le_add_left (Nat.mul_le_mul (hwt j) hm) 16))⟩

theorem State.Bounded.congr (hs : s.Bounded i n m wt) (hpix : t.pix = s.pix) : t.Bounded i n m wt := by
  unfold State.Bounded; rw [hpix]; exact hs

theorem bounded_of_gridLoaded (hs : s.GridLoaded) (wt : ℕ → ℕ) : s.Bounded 0 (s.W * s.H) 0 wt := fun j _ hj => by
  obtain ⟨v, hv, hb⟩ := hs j hj
  exact ⟨v, hv, by rw [Nat.mul_zero, Nat.add_zero, ← pow2_470_eq]; exact hb⟩

theorem diffuseIf_completes {inside : Prop} [Decidable inside] {r : ℕ} (hk : k = l / 16) (hs : s.Bounded i n m wt)
    (he : e.Within (sixteenths (16 * m))) (hr : inside → i ≤ r ∧ r < n) {bound : ℕ} (hwt : ∀ j, wt j ≤ bound)
    (hl : bound + l ≤ 32) (hm : m ≤ 2 ^ 26) :
    ∃ t, diffuseIf inside num r e k s = .ok t ∧ t.Bounded i n m (addWeight wt r l) := by
  by_cases hin : inside
  · obtain ⟨hir, hrn⟩ := hr hin
    obtain ⟨p, hp, hb⟩ := hs r hir hrn
    have hcap : 16 + wt r * m + l * m ≤ 2 ^ 53 := by
      have : (wt r + l) * m ≤ 32 * 2 ^ 26 := Nat.mul_le_mul ((Nat.add_le_add_right (hwt r) l).trans hl) hm
      rw [Nat.add_mul] at this; omega
    obtain ⟨p', hadd, hp'⟩ := addShare_completes (num := num) hk hb he hcap
    refine ⟨s.writePix r p', diffuseIf_ok_iff.2 (.inl ⟨hin, diffuse_ok_iff.2 ⟨p, p', hp, hadd, rfl⟩⟩), fun j hj hjn => ?_⟩
    rw [writePix_pix, Memory.read_write, addWeight]
    split
    · next hjr => subst hjr; exact ⟨p', rfl, by rw [Nat.add_mul, ← Nat.add_assoc]; exact hp'⟩
    · exact hs j hj hjn
  · exact ⟨s, diffuseIf_ok_iff.2 (.inr ⟨hin, rfl⟩), hs.mono le_rfl le_rfl (le_addWeight wt r l)⟩

theorem diffuseIf_dims {inside : Prop} [Decidable inside] (hu : diffuseIf inside num i e k s = .ok u) :
    u.W = s.W ∧ u.H = s.H := by rw [diffuseIf_frame hu]; exact ⟨rfl, rfl⟩

/-- Four shares that answer one after another are step 4 of `DSTEP`. -/
theorem propagate_of_shares {x y : ℕ} {s1 s2 s3 : State} (h1 : diffuseIf (x + 1 < s.W) num (i + 1) e K7 s = .ok s1)
    (h2 : diffuseIf (y + 1 < s.H ∧ 1 ≤ x) num (i + s.W - 1) e K3 s1 = .ok s2)
    (h3 : diffuseIf (y + 1 < s.H) num (i + s.W) e K5 s2 = .ok s3)
    (h4 : diffuseIf (y + 1 < s.H ∧ x + 1 < s.W) num (i + s.W + 1) e K1 s3 = .ok t) : propagate num x y i e s = .ok t := by
  obtain ⟨hW1, hH1⟩ := diffuseIf_dims h1
  obtain ⟨hW2, hH2⟩ := diffuseIf_dims h2
  obtain ⟨hW3, hH3⟩ := diffuseIf_dims h3
  rw [hW1] at hW2; rw [hH1] at hH2; rw [hW2] at hW3; rw [hH2] at hH3
  simp only [propagate, h1, ok_bind, hW1, hH1, h2, hW2, hH2, h3, hW3, hH3, h4]

/-- Step 4 of `DSTEP` at pixel `i` answers, and its neighbours have got its shares. -/
theorem propagate_completes (p : s.AtPixel w h i) (hi : i < w * h) (hs : s.Bounded (i + 1) (w * h) m (received w i))
    (he : e.Within (sixteenths (16 * m))) (hm : m ≤ 2 ^ 26) :
    ∃ t, propagate num s.xpos.toNat s.ypos.toNat i e s = .ok t ∧ t.Bounded (i + 1) (w * h) m (received w (i + 1)) := by
  obtain ⟨hk7, hk3, hk5, hk1⟩ := diffusionCoefficients.1
  have hw := p.pos hi
  obtain ⟨hW, hH, hcol, hrow⟩ := p
  obtain ⟨right, down, downRight⟩ := neighbour_lt hi
  rw [← hcol] at right downRight
  rw [← hrow] at down downRight
  have hwt0 := received_le w i
  have hwt1 := addWeight_le (r := i + 1) (l := 7) hwt0
  have hwt2 := addWeight_le (r := i + w - 1) (l := 3) hwt1
  have hwt3 := addWeight_le (r := i + w) (l := 5) hwt2
  have hleft (hd : s.ypos.toNat + 1 < h) (hl : 1 ≤ s.xpos.toNat) : i + 1 ≤ i + w - 1 ∧ i + w - 1 < w * h := by
    have := down hd
    have := Nat.mod_lt i hw
    omega
  obtain ⟨s1, h1, b1⟩ := diffuseIf_completes (num := num) (inside := s.xpos.toNat + 1 < w) (r := i + 1) hk7 hs he
    (fun hr => ⟨le_rfl, right hr⟩) hwt0 (by norm_num) hm
  obtain ⟨s2, h2, b2⟩ := diffuseIf_completes (num := num) (inside := s.ypos.toNat + 1 < h ∧ 1 ≤ s.xpos.toNat)
    (r := i + w - 1) hk3 b1 he (fun ⟨hd, hl⟩ => hleft hd hl) hwt1 (by norm_num) hm
  obtain ⟨s3, h3, b3⟩ := diffuseIf_completes (num := num) (inside := s.ypos.toNat + 1 < h) (r := i + w) hk5 b2 he
    (fun hd => ⟨by omega, down hd⟩) hwt2 (by norm_num) hm
  obtain ⟨t, h4, b4⟩ := diffuseIf_completes (num := num) (inside := s.ypos.toNat + 1 < h ∧ s.xpos.toNat + 1 < w)
    (r := i + w + 1) hk1 b3 he (fun ⟨hd, hr⟩ => ⟨by omega, downRight hd hr⟩) hwt3 (by norm_num) hm
  refine ⟨t, ?_, by rw [received_succ hw]; exact b4⟩
  subst hW hH
  exact propagate_of_shares h1 h2 h3 h4

theorem dstep_of {code : Code} (hi : s.scanIndex = i) (hv : s.pix.read i = some v) (hcode : nearest c v f = .ok code)
    (he : subPixel c.num v (entryPixel (paletteAt (c.palette f) code)) = .ok e)
    (hu : propagate c.num s.xpos.toNat s.ypos.toNat i e (s.writeIdx i code) = .ok u) : dstep c f s = .ok u.advance := by
  subst hi
  simp only [dstep, readPix_ok_iff.2 hv, ok_bind, hcode, he, hu, pure_ok]

theorem maxPix_le (hc : c.wf = true) : c.maxPix ≤ 2 ^ 24 := by
  simp only [Config.wf, Config.capacityOk, Bool.and_eq_true, decide_eq_true_eq] at hc
  obtain ⟨⟨⟨⟨⟨-, hcap⟩, -⟩, -⟩, -⟩, -⟩ := hc
  exact hcap

/-- Either micro-operation at pixel `i` answers, and leaves the grid as bounded as the next pixel needs it: the value of pixel
`i` is within `16 + 32 * i` sixteenths, so its error within `32 * (i + 1)`. -/
theorem quantStep_completes (hc : c.wf = true) {d : Bool} (p : s.AtPixel w h i) (hi : i < w * h) (hcap : w * h ≤ 2 ^ 24)
    (hs : s.Bounded i (w * h) (2 * i) (received w i)) :
    ∃ t, quantStep c f d s = .ok t ∧ t.Bounded (i + 1) (w * h) (2 * (i + 1)) (received w (i + 1)) := by
  have hw := p.pos hi
  obtain ⟨v, hv, hb⟩ := hs i le_rfl hi
  have hvalue : v.Within (sixteenths (16 + 16 * (2 * i))) :=
    hb.mono (units_mono (Nat.add_le_add_left (Nat.mul_le_mul_right _ (received_le w i i)) 16))
  obtain ⟨code, hcode⟩ := nearest_completes_sixteenths hc hvalue (by omega) f
  cases d with
  | true =>
    obtain ⟨e, he, hb'⟩ := subPixel_completes_sixteenths (num := c.num) hvalue (paletteAt_within hc f code) (by omega)
    have herror : e.Within (sixteenths (16 * (2 * (i + 1)))) := hb'.mono (units_mono (by omega))
    have hcoded : (s.writeIdx i code).AtPixel w h i := p.congr rfl rfl rfl rfl
    have hrest : (s.writeIdx i code).Bounded (i + 1) (w * h) (2 * (i + 1)) (received w i) :=
      (hs.mono (Nat.le_succ i) (by omega) fun _ => le_rfl).congr rfl
    obtain ⟨u, hu, hbu⟩ := propagate_completes hcoded hi hrest herror (by omega)
    exact ⟨u.advance, dstep_of p.scanIndex hv hcode he hu, hbu.congr (advance_pix u)⟩
  | false =>
    refine ⟨(s.writeIdx i code).advance, qstep_ok_iff.2 ⟨v, code, ?_, hcode, ?_⟩, ?_⟩
    · rw [p.scanIndex, hv]
    · rw [p.scanIndex]
    · exact (hs.mono (Nat.le_succ i) (by omega) (received_mono hw i)).congr (advance_pix _)

/-- Over a loaded grid a scan of either kind completes (00_scope.md R12). -/
theorem quantBody_completes (hc : c.wf = true) (hd : s.DimsOk c) (hl : s.GridLoaded) : ∃ t, quantBody c f s = .ok t := by
  obtain ⟨hW, -, hcap⟩ := hd
  have hbound : s.W * s.H ≤ 2 ^ 24 := hcap.trans (maxPix_le hc)
  have hstart : State.Bounded 0 (s.W * s.H) (2 * 0) (received s.W 0) { s with xpos := 0#16, ypos := 0#16 } :=
    (bounded_of_gridLoaded hl _).congr rfl
  obtain ⟨t, ht, -⟩ := scan_completes (micro := quantStep c f s.dither)
    (J := fun i u => u.Bounded i (s.W * s.H) (2 * i) (received s.W i))
    (fun i u hi p hu => by
      obtain ⟨t, ht, hb⟩ := quantStep_completes hc p hi hbound hu
      exact ⟨t, ht, quantStep_atPixel hi p ht, hb⟩)
    hW (Nat.zero_add _) (atPixel_start s) hstart
  exact ⟨t, ht⟩

/-- Over a loaded grid `QUANT` answers what its body does, a state at (0, H) that differs in `PIX` and `IDX` only. -/
theorem exec_quant_completes (hs : s.Selects f) (hd : s.DimsOk Config.hw) (hl : s.GridLoaded) :
    ∃ t, quantBody Config.hw f s = .ok t ∧
      exec .quant s = .next { s with xpos := 0#16, ypos := s.height, pix := t.pix, idx := t.idx } := by
  obtain ⟨t, ht⟩ := quantBody_completes (f := f) hw_wf hd hl
  obtain ⟨hx, hy⟩ := quantBody_position hd.1 ht
  refine ⟨t, ht, ?_⟩
  rw [exec_quant_eq hs hd, ht, finish_ok, (quantBody_frame ht).1, hx, hy]

/-- Settles O38: the run completes by `exec_quant_completes`, and what it leaves is `quantBody_coded`. -/
theorem quantWithDitheringCompletes : Obligations.QuantWithDitheringCompletes := by
  unfold Obligations.QuantWithDitheringCompletes
  rintro s f hs hd - hl
  obtain ⟨t, ht, hexec⟩ := exec_quant_completes hs hd hl
  obtain ⟨hcode, hfirst, hbeyond⟩ := quantBody_coded hd.1 ht
  refine ⟨t.pix, t.idx, hexec, fun i hi => ?_, hfirst, fun i hi => (hbeyond i hi).symm⟩
  obtain ⟨v, k, hv, hk, hx⟩ := hcode i hi
  exact ⟨v, k, hv, hk, hx, code_lt_size hw_wf hk⟩

/-! ### Exact palette colours (R126) -/

theorem gridLoaded_of_gridExact (hc : c.wf = true) (hs : s.GridExact c f) : s.GridLoaded := fun i hi => by
  obtain ⟨q, hq, hread⟩ := hs i hi
  exact ⟨entryPixel q, hread, entryPixel_within (inByteRange_of_mem_palette hc hq)⟩

theorem quantBody_pix_of_exact {cap : ℕ} (hc : c.wf = true) (hW : 0 < s.W) (hs : s.PixWf cap c.num)
    (hexact : s.GridExact c f) (ht : quantBody c f s = .ok t) : t.pix = s.pix := by
  refine (scan_counted (J := fun _ u => u.pix = s.pix) (fun i u v hi p hu hv => ⟨quantStep_atPixel hi p hv, ?_⟩)
    hW (Nat.zero_add _) (atPixel_start s) rfl ht).2
  cases hd : s.dither with
  | true =>
    rw [hd] at hv
    obtain ⟨q, hq, hread⟩ := hexact i hi
    have hpix : u.PixWf cap c.num := ⟨hu ▸ hs.pixWf, hu ▸ hs.pixInCarrier⟩
    rw [dstep_pix_of_exact hc hpix hq (by rw [p.scanIndex, hu, hread]) hv, hu]
  | false =>
    rw [hd] at hv
    rw [qstep_frame hv]
    exact hu

/-- The codes a scan leaves follow from the pixels it leaves. -/
theorem State.Coded.idx_eq {s₀ : State} (hs : s.Coded c f (s₀.W * s₀.H) s₀) (ht : t.Coded c f (s₀.W * s₀.H) s₀)
    (hpix : s.pix = t.pix) (j : ℕ) : s.idx.read j = t.idx.read j := by
  rcases lt_or_ge j (s₀.W * s₀.H) with hj | hj
  · obtain ⟨v, k, hv, hk, hx⟩ := hs.code j hj
    obtain ⟨v', k', hv', hk', hx'⟩ := ht.code j hj
    obtain rfl : v = v' := Option.some.inj (by rw [← hv, ← hv', hpix])
    obtain rfl : k = k' := Except.ok.inj (hk.symm.trans hk')
    rw [hx, hx']
  · rw [(hs.beyond j hj).2, (ht.beyond j hj).2]

theorem entry0_black (hc : c.wf = true) (f : Variant) : entryPixel (c.palette f).entry0 = ⟨0, 0, 0⟩ := by
  obtain ⟨n, -, hwf⟩ := palette_wf hc f
  obtain ⟨-, hblack, -⟩ := palette_wf_iff.1 hwf
  simp only [Palette.blackFirst, Bool.and_eq_true, beq_iff_eq] at hblack
  obtain ⟨⟨hr, hg⟩, hb⟩ := hblack
  rw [entryPixel_eq, hr, hg, hb, Nat.cast_zero]

theorem nearest_black (hc : c.wf = true) (f : Variant) : nearest c ⟨0, 0, 0⟩ f = .ok 0#2 := by
  rw [← entry0_black hc f]
  exact nearest_entryPixel (j := 0) hc rfl fun _ _ hlt => absurd hlt (Nat.not_lt_zero _)

/-- A run over exact palette colours completes under either setting of `CFG.DITHER`, and leaves `PIX` as it is. -/
theorem exec_quant_of_exact (hinv : s.Inv Config.hw) (hs : s.Selects f) (hd : s.DimsOk Config.hw)
    (hexact : s.GridExact Config.hw f) (d : Bool) :
    ∃ t : State, t.pix = s.pix ∧ t.idx.wf 40000 ∧ t.Coded Config.hw f (s.W * s.H) s ∧
      exec .quant { s with dither := d } = .next { s with dither := d, xpos := 0#16, ypos := s.height, idx := t.idx } := by
  have hl : s.GridLoaded := gridLoaded_of_gridExact hw_wf hexact
  obtain ⟨t, ht, hexec⟩ := exec_quant_completes (s := { s with dither := d }) hs hd hl
  have hgrids : State.GridsWf Config.hw { s with dither := d } := { hinv.gridsWf with }
  have hpix : t.pix = s.pix := quantBody_pix_of_exact (s := { s with dither := d }) hw_wf hd.1
    ⟨hinv.pixWf, hinv.pixInCarrier⟩ hexact ht
  obtain ⟨hcode, hfirst, hbeyond⟩ := quantBody_coded (s := { s with dither := d }) hd.1 ht
  exact ⟨t, hpix, (hgrids.quantBody ht).idxWf, ⟨hcode, hfirst, hbeyond⟩, by rw [hexec, hpix]⟩

/-- Settles O39: both runs complete, neither changes `PIX`, so they leave the same codes. -/
theorem exactColoursQuantiseTheSameWithAndWithoutDithering :
    Obligations.ExactColoursQuantiseTheSameWithAndWithoutDithering := by
  unfold Obligations.ExactColoursQuantiseTheSameWithAndWithoutDithering
  intro s f hinv hs hd hexact
  obtain ⟨t1, hpix1, hwf1, hcoded1, hexec1⟩ := exec_quant_of_exact hinv hs hd hexact true
  obtain ⟨t0, hpix0, hwf0, hcoded0, hexec0⟩ := exec_quant_of_exact hinv hs hd hexact false
  have hidx : t0.idx = t1.idx := Memory.ext_of_wf hwf0 hwf1 (hcoded0.idx_eq hcoded1 (hpix0.trans hpix1.symm))
  refine ⟨t1.idx, hexec1, hidx ▸ hexec0, fun i hi => ?_, fun hblack i hi => ?_⟩
  · obtain ⟨v, k, hv, hk, hx⟩ := hcoded1.code i hi
    obtain ⟨q, hq, hread⟩ := hexact i hi
    obtain rfl : entryPixel q = v := Option.some.inj (by rw [← hread, ← hv, hpix1])
    obtain ⟨q', hq', heq⟩ := entryPixel_of_nearest hw_wf hq hk
    exact ⟨k, q', hx, hq', by rw [heq, hread]⟩
  · obtain ⟨v, k, hv, hk, hx⟩ := hcoded1.code i hi
    obtain rfl : ⟨0, 0, 0⟩ = v := Option.some.inj (by rw [← hblack i hi, ← hv, hpix1])
    rw [hx, Except.ok.inj (hk.symm.trans (nearest_black hw_wf f))]

end Sys2Proof.Machine
end

section
/-! PROOFS of the statements about the Simple Quantizer (42_quantize.md R140, R141). `QSTEP` is `qstep_ok_iff`; the run with
`CFG.DITHER = 0` is the scan of the dithering run, which without diffusion leaves `PIX` as it was. -/

namespace Sys2Proof.Machine

/-- Settles O35: what `QSTEP` writes is `qstep_ok_iff`, the rest of the state is `qstep_frame`. -/
theorem simpleStepClassifiesOnePixel : Obligations.SimpleStepClassifiesOnePixel := by
  unfold Obligations.SimpleStepClassifiesOnePixel
  rintro s t f i hi h
  obtain rfl : i = s.scanIndex := hi
  have hframe := qstep_frame h
  obtain ⟨v, k, hv, hk, rfl⟩ := qstep_ok_iff.1 h
  refine ⟨v, k, hv, hk, ?_, fun j hj => ?_, hframe⟩
  · rw [advance_idx, writeIdx_idx]; exact Memory.read_write_same _ _ _
  · rw [advance_idx, writeIdx_idx]; exact Memory.read_write_other _ _ hj

/-- Settles O37: the run completes by `exec_quant_completes`, `PIX` is unchanged by `quantBody_frame`, and the codes are those
of `quantBody_coded`. -/
theorem quantWithoutDitheringClassifiesEveryPixel : Obligations.QuantWithoutDitheringClassifiesEveryPixel := by
  unfold Obligations.QuantWithoutDitheringClassifiesEveryPixel
  intro s f hs hd hdither hl
  obtain ⟨t, ht, hexec⟩ := exec_quant_completes hs hd hl
  have hpix : t.pix = s.pix := (quantBody_frame ht).2 hdither
  obtain ⟨hcode, -, hbeyond⟩ := quantBody_coded hd.1 ht
  rw [hpix] at hexec hcode
  exact ⟨t.idx, hexec, hcode, fun i hi => (hbeyond i hi).2⟩

end Sys2Proof.Machine
end

section
/-! PROOFS of the statements about the Bit Packer and the whole conversion (43_pack.md R150 to R154). The packing loop counts
with `State.Packed`: after `n` turns the first `n` bytes of `OUT` are the packed bytes of the Index Grid. -/

namespace Sys2Proof.Machine

variable {c : Config} {f : Variant} {s s₀ t : State} {x : Memory Code} {b : Byte} {j m n : ℕ}

/-! ### The packed byte and its four codes (R151, R153) -/

theorem packByte_eq_ofNat (k0 k1 k2 k3 : Code) :
    packByte k0 k1 k2 k3 = BitVec.ofNat 8 (64 * k0.toNat + 16 * k1.toNat + 4 * k2.toNat + k3.toNat) := by
  rw [← packByte_toNat, BitVec.ofNat_toNat, BitVec.setWidth_eq]

theorem unpack_toNat (b : Byte) (n : ℕ) : (unpack b n).toNat = b.toNat / 4 ^ (3 - n) % 4 := by
  have hpow : 2 ^ (6 - 2 * n) = 4 ^ (3 - n) := by
    rw [show 6 - 2 * n = 2 * (3 - n) by omega, pow_mul]; rfl
  rw [unpack, BitVec.extractLsb'_toNat, Nat.shiftRight_eq_div_pow, hpow]

theorem unpack_packByte (k0 k1 k2 k3 : Code) :
    unpack (packByte k0 k1 k2 k3) 0 = k0 ∧ unpack (packByte k0 k1 k2 k3) 1 = k1 ∧
      unpack (packByte k0 k1 k2 k3) 2 = k2 ∧ unpack (packByte k0 k1 k2 k3) 3 = k3 := by
  simp only [BitVec.toNat_eq, unpack_toNat, packByte_toNat]
  omega

/-- The byte `b` packs the four codes that the Index Grid `x` holds from element `4 * j` on. -/
def PackedAt (x : Memory Code) (j : ℕ) (b : Byte) : Prop :=
  ∃ k0 k1 k2 k3 : Code, x.read (4 * j) = some k0 ∧ x.read (4 * j + 1) = some k1 ∧ x.read (4 * j + 2) = some k2 ∧
    x.read (4 * j + 3) = some k3 ∧ b = packByte k0 k1 k2 k3

theorem PackedAt.read_eq_unpack (hb : PackedAt x j b) (hn : n < 4) : x.read (4 * j + n) = some (unpack b n) := by
  obtain ⟨k0, k1, k2, k3, h0, h1, h2, h3, rfl⟩ := hb
  obtain ⟨u0, u1, u2, u3⟩ := unpack_packByte k0 k1 k2 k3
  match n, hn with
  | 0, _ => rw [u0]; exact h0
  | 1, _ => rw [u1]; exact h1
  | 2, _ => rw [u2]; exact h2
  | 3, _ => rw [u3]; exact h3

/-- What one `PACKB` answers, with its byte named. -/
theorem packb_ok_iff_packedAt : packb s = .ok t ↔
    ∃ b, PackedAt s.idx s.optr.toNat b ∧ t = { s with out := s.out.write s.optr.toNat b, optr := s.optr + 1#32 } := by
  rw [packb_ok_iff]
  constructor
  · rintro ⟨k0, k1, k2, k3, h0, h1, h2, h3, rfl⟩
    exact ⟨_, ⟨k0, k1, k2, k3, h0, h1, h2, h3, rfl⟩, rfl⟩
  · rintro ⟨_, ⟨k0, k1, k2, k3, h0, h1, h2, h3, rfl⟩, rfl⟩
    exact ⟨k0, k1, k2, k3, h0, h1, h2, h3, rfl⟩

/-! ### The packing loop (R150) -/

theorem gridBytes_lt (s : State) : s.W * s.H / 4 < 2 ^ 32 := by
  have hprod : s.W * s.H < 2 ^ 16 * 2 ^ 16 := Nat.mul_lt_mul'' s.width.isLt s.height.isLt
  omega

/-- A packing loop that began in `s₀` has packed the first `n` bytes: `OPTR` counts them, and only `OUT` has changed beside. -/
structure State.Packed (n : ℕ) (s s₀ : State) : Prop where
  frame : s = { s₀ with out := s.out, optr := BitVec.ofNat 32 n }
  byte : ∀ j, j < n → ∃ b, s.out.read j = some b ∧ PackedAt s₀.idx j b

theorem State.Packed.start (s : State) : State.Packed 0 { s with optr := 0#32 } s :=
  ⟨rfl, fun j hj => absurd hj (Nat.not_lt_zero j)⟩

theorem State.Packed.idx (hs : s.Packed n s₀) : s.idx = s₀.idx := by rw [hs.frame]

theorem State.Packed.optr_toNat (hs : s.Packed n s₀) (hn : n < 2 ^ 32) : s.optr.toNat = n := by
  rw [hs.frame]; exact Nat.mod_eq_of_lt hn

/-- The loop guard `OPTR.J < (W * H) div 4` holds exactly while a byte is left. -/
theorem State.Packed.guard (hs : s.Packed n s₀) (hn : n < s₀.W * s₀.H / 4) : s.optr.toNat < s.W * s.H / 4 := by
  rw [hs.optr_toNat (hn.trans (gridBytes_lt s₀)), hs.frame]; exact hn

theorem State.Packed.packb (hs : s.Packed n s₀) (hn : n < s₀.W * s₀.H / 4) (ht : packb s = .ok t) :
    t.Packed (n + 1) s₀ := by
  obtain ⟨b, hb, rfl⟩ := packb_ok_iff_packedAt.1 ht
  rw [hs.optr_toNat (hn.trans (gridBytes_lt s₀))] at hb ⊢
  rw [hs.idx] at hb
  refine ⟨?_, fun j hj => ?_⟩
  · have hoptr : s.optr + 1#32 = BitVec.ofNat 32 (n + 1) := by rw [hs.frame, BitVec.ofNat_add]
    rw [hoptr, hs.frame]
  · rcases Nat.lt_succ_iff_lt_or_eq.1 hj with hlt | rfl
    · rw [Memory.read_write_other _ _ hlt.ne]; exact hs.byte j hlt
    · exact ⟨b, Memory.read_write_same _ _ _, hb⟩

theorem packedAt_of_codesWritten (hs : s.CodesWritten) (hj : j < s.W * s.H / 4) : ∃ b, PackedAt s.idx j b := by
  obtain ⟨k0, h0⟩ := hs (4 * j) (by omega)
  obtain ⟨k1, h1⟩ := hs (4 * j + 1) (by omega)
  obtain ⟨k2, h2⟩ := hs (4 * j + 2) (by omega)
  obtain ⟨k3, h3⟩ := hs (4 * j + 3) (by omega)
  exact ⟨_, k0, k1, k2, k3, h0, h1, h2, h3, rfl⟩

theorem State.Packed.packb_completes (hs : s.Packed n s₀) (hn : n < s₀.W * s₀.H / 4) (hcodes : s₀.CodesWritten) :
    ∃ t, Machine.packb s = .ok t := by
  obtain ⟨b, hb⟩ := packedAt_of_codesWritten hcodes hn
  refine ⟨_, packb_ok_iff_packedAt.2 ⟨b, ?_, rfl⟩⟩
  rw [hs.idx, hs.optr_toNat (hn.trans (gridBytes_lt s₀))]
  exact hb

theorem State.Packed.packLoop (hs : s.Packed n s₀) (hm : n + m = s₀.W * s₀.H / 4) (ht : packLoop m s = .ok t) :
    t.Packed (s₀.W * s₀.H / 4) s₀ := by
  induction m generalizing n s with
  | zero =>
    obtain rfl := Except.ok.inj ht
    exact hm ▸ hs
  | succ m ih =>
    have hn : n < s₀.W * s₀.H / 4 := by omega
    rw [packLoop_succ, if_pos (hs.guard hn)] at ht
    obtain ⟨u, hu, ht⟩ := bind_ok_iff.1 ht
    exact ih (hs.packb hn hu) (by omega) ht

theorem State.Packed.packLoop_completes (hs : s.Packed n s₀) (hm : n + m = s₀.W * s₀.H / 4) (hcodes : s₀.CodesWritten) :
    ∃ t, Machine.packLoop m s = .ok t := by
  induction m generalizing n s with
  | zero => exact ⟨s, rfl⟩
  | succ m ih =>
    have hn : n < s₀.W * s₀.H / 4 := by omega
    obtain ⟨u, hu⟩ := hs.packb_completes hn hcodes
    obtain ⟨t, ht⟩ := ih (hs.packb hn hu) (by omega)
    exact ⟨t, by rw [packLoop_succ, if_pos (hs.guard hn), hu, ok_bind, ht]⟩

theorem packBody_packed (ht : packBody s = .ok t) : t.Packed (s.W * s.H / 4) s :=
  (State.Packed.start s).packLoop (Nat.zero_add _) ht

/-- Over a grid whose codes are written the packing completes. -/
theorem packBody_completes (hcodes : s.CodesWritten) : ∃ t, packBody s = .ok t :=
  (State.Packed.start s).packLoop_completes (Nat.zero_add _) hcodes

/-! ### `PACK` (R150, R153) -/

/-- Once the checks pass, `PACK` is its body. -/
theorem exec_pack_eq (hd : s.DimsOk Config.hw) (h4 : s.W % 4 = 0) : exec .pack s = finish (packBody s) := by
  rw [exec, execPack, pack, withDims_good (hd.badDims_eq_false fun _ => h4)]

theorem exec_pack_bad (hb : s.badDims Config.hw true = true) :
    exec .pack s = .next (raise .unsupportedGridDimensions s.dimsInfo s) := by
  rw [exec, execPack, pack, withDims_bad hb, finish_ok]

/-- Settles O43: over written codes the body completes and has packed every byte of the grid; bad dimensions raise. -/
theorem packWritesTheGridsBytes : Obligations.PackWritesTheGridsBytes := by
  unfold Obligations.PackWritesTheGridsBytes
  refine ⟨fun s hd h4 hcodes => ?_, fun s hbad => ?_⟩
  · obtain ⟨t, ht⟩ := packBody_completes hcodes
    obtain ⟨hframe, hbyte⟩ := packBody_packed ht
    refine ⟨t.out, ?_, fun j hj => ?_, fun j => packBody_out_beyond ht⟩
    · rw [exec_pack_eq hd h4, ht, finish_ok, ← hframe]
    · obtain ⟨b, hb, k0, k1, k2, k3, h0, h1, h2, h3, rfl⟩ := hbyte j hj
      exact ⟨k0, k1, k2, k3, h0, h1, h2, h3, by rw [hb, packByte_eq_ofNat]⟩
  · have hb : s.badDims Config.hw true = true := badDims_eq_true.2 (by simpa using hbad)
    rw [exec_pack_bad hb, dimsInfo_eq]
    rfl

/-- Settles O44: every byte of the grid packs four codes of `IDX`, and `unpack` takes each of them out again. -/
theorem packThenUnpackIsTheIndexGrid : Obligations.PackThenUnpackIsTheIndexGrid := by
  unfold Obligations.PackThenUnpackIsTheIndexGrid
  intro s t hd h4 h j n hj hn
  rw [exec_pack_eq hd h4, finish_next_iff] at h
  obtain ⟨b, hb, hpacked⟩ := (packBody_packed h).byte j hj
  exact ⟨b, unpack b n, hb, packBody_idx h ▸ hpacked.read_eq_unpack hn, unpack_toNat b n, rfl⟩

/-! ### `PACK` does not read `CFG` (R150) -/

section

variable {d : Bool} {g : BitVec 2}

theorem packb_withCfg (h : packb s = .ok t) :
    packb { s with dither := d, format := g } = .ok { t with dither := d, format := g } := by
  obtain ⟨b, hb, rfl⟩ := packb_ok_iff_packedAt.1 h
  exact packb_ok_iff_packedAt.2 ⟨b, hb, rfl⟩

theorem packLoop_withCfg (h : packLoop n s = .ok t) :
    packLoop n { s with dither := d, format := g } = .ok { t with dither := d, format := g } := by
  induction n generalizing s with
  | zero =>
    obtain rfl := Except.ok.inj h
    rfl
  | succ n ih =>
    rw [packLoop_succ] at h
    split at h
    · next hj =>
      obtain ⟨u, hu, ht⟩ := bind_ok_iff.1 h
      exact (if_pos hj).trans (bind_ok_iff.2 ⟨_, packb_withCfg hu, ih ht⟩)
    · next hj =>
      obtain rfl := Except.ok.inj h
      exact if_neg hj

theorem pack_withCfg (h : pack c s = .ok t) :
    pack c { s with dither := d, format := g } = .ok { t with dither := d, format := g } := by
  rcases pack_ok h with ⟨hb, rfl⟩ | ⟨hb, ht⟩
  · have hb' : State.badDims c true { s with dither := d, format := g } = true := hb
    rw [pack, withDims_bad hb']
    rfl
  · have hb' : State.badDims c true { s with dither := d, format := g } = false := hb
    rw [pack, withDims_good hb']
    exact packLoop_withCfg ht

end

/-- Settles O45: neither the check of the dimensions nor a turn of the loop reads `CFG`. -/
theorem packDoesNotReadCfg : Obligations.PackDoesNotReadCfg := by
  unfold Obligations.PackDoesNotReadCfg
  exact fun s t d g h => finish_next_iff.2 (pack_withCfg (finish_next_iff.1 h))

/-! ### `CONVERT` (R154) -/

theorem State.FormatOk.selects (hs : s.FormatOk) : ∃ f, s.Selects f := by
  cases hv : variantOf s.format with
  | none => exact absurd hs (variantOf_eq_none.1 hv).not_gt
  | some f => exact ⟨f, variantOf_eq_some.1 hv⟩

/-- The state a `QUANT` answers passes `PACK`'s checks as the first state does, since no run writes the dimensions. -/
theorem exec_convert_eq_exec_pack (hs : s.Selects f) (hd : s.DimsOk Config.hw) (h4 : s.W % 4 = 0)
    (hq : exec .quant s = .next t) : exec .convert s = exec .pack t := by
  rw [exec_quant_eq hs hd, finish_next_iff] at hq
  have hframe := (quantBody_frame hq).1
  have hdt : t.DimsOk Config.hw := by rw [hframe]; exact hd
  have h4t : t.W % 4 = 0 := by rw [hframe]; exact h4
  rw [exec_convert_eq hs hd h4, hq, ok_bind, exec_pack_eq hdt h4t]

/-- Settles O46, for the variant that `CFG.FORMAT` selects. -/
theorem convertIsQuantThenPack : Obligations.ConvertIsQuantThenPack := by
  unfold Obligations.ConvertIsQuantThenPack
  intro s t hf hd h4 hq
  obtain ⟨f, hs⟩ := hf.selects
  exact exec_convert_eq_exec_pack hs hd h4 hq

/-- Settles O47: over a loaded grid the `QUANT` completes and writes every code of the grid, so the `PACK` from the state it
answers completes too. -/
theorem convertCompletes : Obligations.ConvertCompletes := by
  unfold Obligations.ConvertCompletes
  intro s f hs hd h4 hl
  obtain ⟨u, hu, hquant⟩ := exec_quant_completes hs hd hl
  obtain ⟨hcode, -, hbeyond⟩ := quantBody_coded hd.1 hu
  have hcodes : ∀ i, i < s.W * s.H → ∃ k, u.idx.read i = some k ∧ k.toNat < (Config.hw.palette f).size := fun i hi => by
    obtain ⟨v, k, -, hk, hx⟩ := hcode i hi
    exact ⟨k, hx, code_lt_size hw_wf hk⟩
  obtain ⟨o, hpack, hbytes, hout⟩ := packWritesTheGridsBytes.1
    { s with xpos := 0#16, ypos := s.height, pix := u.pix, idx := u.idx } hd h4
    fun i hi => (hcodes i hi).imp fun _ => And.left
  exact ⟨u.pix, u.idx, o, (exec_convert_eq_exec_pack hs hd h4 hquant).trans hpack, (quantBody_frame hu).2, hcodes, hbytes,
    fun i hi => (hbeyond i hi).symm, hout⟩

end Sys2Proof.Machine
end

section
/-! PROOFS of the statements about the host around the block (44_host_formats.md R170 to R175): the two file formats, the
stripe pattern, the configuration and the scripts of a conversion. A file or an image collects one element per index, which
`mapM_read_range` states once for the three memories; a script makes one access per element, which is `perElement_near`. -/

namespace Sys2Proof.Machine

variable {c : Config} {f : Variant} {s : State}

/-! ### The elements of a memory in order -/

/-- Where the first `n` elements are written, collecting them gives one value per element. -/
theorem mapM_read_range {α : Type} {m : Memory α} {n : ℕ} (h : ∀ i, i < n → ∃ a, m.read i = some a) :
    ∃ l, ((List.range n).mapM fun i => m.read i) = some l ∧ l.length = n ∧ ∀ i, i < n → l[i]? = m.read i := by
  induction n with
  | zero => exact ⟨[], rfl, rfl, fun i hi => absurd hi (Nat.not_lt_zero i)⟩
  | succ n ih =>
    obtain ⟨l, hl, hlen, hget⟩ := ih fun i hi => h i (by omega)
    obtain ⟨a, ha⟩ := h n (Nat.lt_succ_self n)
    refine ⟨l ++ [a], by simp [List.range_succ, List.mapM_append, hl, ha], by simp [hlen], fun i hi => ?_⟩
    rcases Nat.lt_succ_iff_lt_or_eq.1 hi with hlt | rfl
    · rw [List.getElem?_append_left (hlen.symm ▸ hlt), hget i hlt]
    · rw [List.getElem?_append_right hlen.le, hlen, Nat.sub_self, ha]; rfl

/-! ### The raw format "4EI1" (R170) -/

theorem rawFile_clear (h : s.err = 0#3) :
    s.rawFile = ((List.range s.optr.toNat).mapM fun j => s.out.read j).map (rawFile s.width s.height) :=
  if_neg (by simp [faulted_eq_false.2 h])

/-- The two bytes of a dimension, little-endian. -/
theorem dimBytes_eq (w : BitVec 16) :
    w.extractLsb' 0 8 = BitVec.ofNat 8 (w.toNat % 256) ∧ w.extractLsb' 8 8 = BitVec.ofNat 8 (w.toNat / 256) := by
  constructor
  all_goals
    apply BitVec.eq_of_toNat_eq
    simp [BitVec.extractLsb'_toNat, Nat.shiftRight_eq_div_pow]

/-- Settles O56: the data bytes are those `OUT` holds, and each dimension is its low byte and its high byte. -/
theorem rawFileLayout : Obligations.RawFileLayout := by
  unfold Obligations.RawFileLayout
  refine ⟨fun s herr hoptr hbytes => ?_, rfl⟩
  obtain ⟨data, hdata, hlen, hget⟩ := mapM_read_range hbytes
  obtain ⟨hw0, hw1⟩ := dimBytes_eq s.width
  obtain ⟨hh0, hh1⟩ := dimBytes_eq s.height
  have hheader : (rawHeader s.width s.height).length = 8 := rfl
  refine ⟨rawFile s.width s.height data, by rw [rawFile_clear herr, hoptr, hdata]; rfl, ?_, rfl, congrArg some hw0,
    congrArg some hw1, congrArg some hh0, congrArg some hh1, fun j hj => ?_⟩
  · rw [rawFile, List.length_append, hheader, hlen]
  · rw [rawFile, List.getElem?_append_right (by omega), hheader, Nat.add_sub_cancel_left, hget j hj]

/-! ### The indexed format (R172) -/

/-- For a legal configuration the colour table is the palette, then black: the entry that is added for three colours is
black too. -/
theorem colorTable_eq (hc : c.wf = true) (f : Variant) : colorTable c f =
    (c.palette f).entries.map (fun p => (p.r, p.g, p.b)) ++ List.replicate (256 - (c.palette f).size) (0, 0, 0) := by
  simp only [Config.wf, Bool.and_eq_true] at hc
  obtain ⟨⟨-, h4⟩, h3⟩ := hc
  cases f with
  | bwry => simp [colorTable, Palette.size]
  | bwr =>
    obtain ⟨hsize, hblack, -⟩ := palette_wf_iff.1 h3
    simp only [Palette.size] at hsize
    simp only [Palette.blackFirst, Bool.and_eq_true, beq_iff_eq] at hblack
    obtain ⟨⟨hr, hg⟩, hb⟩ := hblack
    have hpad : 256 - c.bwr.entries.length = 256 - (c.bwr.entries.length + 1) + 1 := by omega
    simp only [colorTable, Config.palette, Palette.size, List.length_append, List.length_map, List.length_singleton, hr, hg, hb,
      hpad, List.replicate_succ, List.append_assoc, List.singleton_append]

/-- No legal palette has more entries than the table. -/
theorem colorTable_length (hc : c.wf = true) (f : Variant) : (colorTable c f).length = 256 := by
  have h := palette_size_le hc f
  simp only [Palette.size] at h
  simp only [colorTable_eq hc, Palette.size, List.length_append, List.length_map, List.length_replicate]
  omega

theorem colorTable_of_entry (hc : c.wf = true) {k : ℕ} {p : PaletteEntry} (hp : (c.palette f).entries[k]? = some p) :
    (colorTable c f)[k]? = some (p.r, p.g, p.b) := by
  have hk := (List.getElem?_eq_some_iff.1 hp).1
  rw [colorTable_eq hc, List.getElem?_append_left (by rwa [List.length_map]), List.getElem?_map, hp, Option.map_some]

theorem colorTable_beyond (hc : c.wf = true) {k : ℕ} (hk : (c.palette f).size ≤ k) (hk' : k < 256) :
    (colorTable c f)[k]? = some (0, 0, 0) := by
  simp only [Palette.size] at hk
  rw [colorTable_eq hc, List.getElem?_append_right (by rwa [List.length_map]), List.length_map, Palette.size,
    List.getElem?_replicate_of_lt (by omega)]

/-- Settles O57: the table is `colorTable_eq`, the codes are those `IDX` holds, the reads are one `IdxRead` per index. -/
theorem indexedFormatTableAndBytes : Obligations.IndexedFormatTableAndBytes := by
  unfold Obligations.IndexedFormatTableAndBytes
  refine ⟨fun c hc f => ⟨colorTable_length hc f, fun k p => colorTable_of_entry hc, fun k => colorTable_beyond hc⟩,
    fun c f codes => ⟨rfl, List.length_map _, fun i k hk => ?_⟩, fun c f s herr hcodes => ?_, fun s herr hcap => ?_,
    fun c f s herr => ⟨?_, indexFetchScript_faulted herr⟩⟩
  · rw [indexedImage, List.getElem?_map, hk, Option.map_some, BitVec.ofNat_toNat]
  · obtain ⟨codes, hgrid, hlen, hget⟩ := mapM_read_range hcodes
    exact ⟨codes, by rw [State.indexedImage, indexGrid_clear herr, hgrid]; rfl, hlen, hget⟩
  · rw [indexFetchScript_clear herr]
    exact perIndex_near hostIdxr (by omega)
  · rw [State.indexedImage, indexGrid_faulted herr]; rfl

/-! ### The stripe pattern (R175) -/

/-- `h` rows of `w` equal elements, row by row: what stands at `(x, y)`. -/
theorem flatMap_replicate_rows {α : Type} (row : ℕ → α) (w h : ℕ) :
    ((List.range h).flatMap fun y => List.replicate w (row y)).length = w * h ∧
      ∀ x y, x < w → y < h →
        ((List.range h).flatMap fun y => List.replicate w (row y))[pixelIndex w x y]? = some (row y) := by
  induction h with
  | zero => exact ⟨rfl, fun x y _ hy => absurd hy (Nat.not_lt_zero y)⟩
  | succ h ih =>
    obtain ⟨hlen, hget⟩ := ih
    rw [List.range_succ, List.flatMap_append, List.flatMap_singleton]
    refine ⟨by rw [List.length_append, hlen, List.length_replicate, Nat.mul_succ], fun x y hx hy => ?_⟩
    have hat : pixelIndex w x y = w * y + x := by rw [pixelIndex, Nat.mul_comm]
    rcases Nat.lt_succ_iff_lt_or_eq.1 hy with hlt | rfl
    · have hin : pixelIndex w x y < w * h := calc
        pixelIndex w x y < w * (y + 1) := by rw [hat, Nat.mul_succ]; omega
        _ ≤ w * h := Nat.mul_le_mul_left w hlt
      rw [List.getElem?_append_left (hlen.symm ▸ hin), hget x y hx hlt]
    · rw [List.getElem?_append_right (by omega), hlen, hat, Nat.add_sub_cancel_left, List.getElem?_replicate_of_lt hx]

theorem stripes_of_le {w h : ℕ} (hn : (c.palette f).size ≤ h) : stripes c f w h =
    some ((List.range h).flatMap fun y => List.replicate w (BitVec.ofNat 2 (stripeCode (c.palette f).size h y))) :=
  if_pos hn

theorem stripes_of_lt {w h : ℕ} (hn : h < (c.palette f).size) : stripes c f w h = none := if_neg (not_le.2 hn)

/-- Settles O58: every row is `w` times its own code; the two examples are arithmetic on the row number. -/
theorem stripePatternBands : Obligations.StripePatternBands := by
  unfold Obligations.StripePatternBands
  refine ⟨fun f w h hn => ?_, fun f w h => stripes_of_lt, fun y hy => ⟨?_, ?_⟩⟩
  · exact ⟨_, stripes_of_le hn, flatMap_replicate_rows _ w h⟩
  · simp only [stripeCode]; omega
  · simp only [stripeCode]; split_ifs <;> omega

/-! ### The configuration (R174, R87) -/

/-- The word of `CFG` as a number: `d + 2 * f` (30_encoding.md R90). -/
theorem selectorWord_eq_ofNat (d : Bool) (g : BitVec 2) : selectorWord d g = BitVec.ofNat 32 (d.toNat + 2 * g.toNat) := by
  have hg := g.isLt
  have hd := d.toNat_lt
  apply BitVec.eq_of_toNat_eq
  rw [selectorWord, BitVec.toNat_setWidth, toNat_append2, BitVec.toNat_ofBool, BitVec.toNat_ofNat]
  omega

/-- A recognised format string gives its selector by every course. -/
theorem script_of_variantOfName {cfg : HostConfig} (h : variantOfName cfg.format = some f) (course : FormatCourse) :
    cfg.script course = .ok [hostWr 0#24 (selectorWord cfg.dither (formatSelector f))] :=
  HostConfig.script_ok_iff.2 ⟨formatSelector f, by simp [selectorOfName, h], rfl⟩

/-- Every command that uses the palette raises on an unrecognised selector, before any other check (60_exceptions.md R192). -/
theorem exec_of_unrecognised {i : Instr} (hi : i = .classify ∨ i = .quant ∨ i = .convert) (h : variantOf s.format = none) :
    exec i s = .next (raise .invalidPaletteFormat s.formatInfo s) := by
  rcases hi with rfl | rfl | rfl
  · exact execClassify_of_unrecognised (variantOf_eq_none.1 h)
  · rw [exec, execQuant, quant, withFormat_none h, finish_ok]
  · rw [exec, execConvert, convert, withFormat_none h, finish_ok]

/-- Settles O59: the write of `CFG` is `step_selectorWord`, and the selectors 2 and 3 select no variant. -/
theorem configurationSelectsOrIsReported : Obligations.ConfigurationSelectsOrIsReported := by
  unfold Obligations.ConfigurationSelectsOrIsReported
  refine ⟨fun course d => ⟨?_, ?_, rfl⟩, fun cfg h1 h2 => ?_⟩
  · rw [script_of_variantOfName variantOfName_bwry, selectorWord_eq_ofNat]; rfl
  · rw [script_of_variantOfName variantOfName_bwr, selectorWord_eq_ofNat]; rfl
  have hname : variantOfName cfg.format = none := variantOfName_other h1 h2
  refine ⟨by simp [HostConfig.script, selectorOfName, hname], fun course g hcourse => ?_⟩
  have hsel : selectorOfName course cfg.format = .ok g ∧ variantOf g = none := by
    rcases hcourse with ⟨rfl, rfl⟩ | ⟨rfl, rfl⟩
    all_goals exact ⟨by simp [selectorOfName, hname], rfl⟩
  obtain ⟨hg, hnone⟩ := hsel
  refine ⟨_, HostConfig.script_ok_iff.2 ⟨g, hg, rfl⟩, fun s rest h => ⟨_, step_selectorWord h, rfl, fun i hi => ?_⟩⟩
  rw [exec_of_unrecognised hi hnone, formatInfo_eq]
  rfl

/-! ### The scripts of a conversion (R171, R173) -/

/-- The pixel word as a number (30_encoding.md R88). -/
theorem pixelWord_eq_ofNat (r g b : Byte) :
    pixelWord r g b = BitVec.ofNat 32 (65536 * r.toNat + 256 * g.toNat + b.toNat) := by
  have hr := r.isLt
  have hg := g.isLt
  have hb := b.isLt
  apply BitVec.eq_of_toNat_eq
  rw [pixelWord, toNat_append2, toNat_append2, toNat_append2, BitVec.toNat_ofNat, BitVec.toNat_ofNat]
  omega

/-- The loader hands over pixel `i` as the write of element `i`. -/
theorem hostLoad_near {pixels : List (Byte × Byte × Byte)} (h : pixels.length ≤ 2 ^ 24) :
    ∃ load, hostLoad pixels = .ok load ∧ load.length = pixels.length ∧
      ∀ (i : ℕ) (r g b : Byte), pixels[i]? = some (r, g, b) →
        load[i]? = some (busEncode (.pixWrite (BitVec.ofNat 24 i)
          (BitVec.ofNat 32 (65536 * r.toNat + 256 * g.toNat + b.toNat)))) := by
  obtain ⟨load, hload, hlen, hget⟩ := perElement_near (fun i p => hostPix i p.1 p.2.1 p.2.2) h
  refine ⟨load, hload, hlen, fun i r g b hp => ?_⟩
  rw [hget i _ hp, hostPix, pixelWord_eq_ofNat]

/-- Settles O60: the script's size clauses are those of the loader, and the fetch is one `OutRead` per byte. -/
theorem conversionScriptLoadsRunsAndFetches : Obligations.ConversionScriptLoadsRunsAndFetches := by
  unfold Obligations.ConversionScriptLoadsRunsAndFetches
  refine ⟨fun start course cfg configure w h pixels run hc => ⟨fun hl hcap => ?_, conversionScript_wrong hc,
    fun hl hfar => ?_⟩, ⟨rfl, rfl, rfl, rfl, rfl⟩, fun s herr hcap => ?_,
    fun s herr => ⟨fetchScript_faulted herr, rawFile_faulted herr⟩⟩
  · obtain ⟨load, hload, hlen, hget⟩ := hostLoad_near hcap
    exact ⟨load, by rw [conversionScript_right hc hl, hload]; rfl, hlen.trans hl, hget⟩
  · rw [conversionScript_right hc hl, hostLoad, perElement_far hfar]; rfl
  · rw [fetchScript_clear herr]
    exact perIndex_near hostOut (by omega)

end Sys2Proof.Machine
end

section
/-! PROOFS of the statements about 60_exceptions.md R190 to R196: which condition raises which fault, that a fault is precise,
the refusal while faulted, and the return by `RESET`. -/

namespace Sys2Proof.Machine

variable {c : Config} {s t : State} {i : Instr} {v : Word}

/-! ### The conditions and their faults (R191, R192) -/

theorem ne_encode_of_toNat (hv : v.toNat < 1 ∨ 5 < v.toNat) (i : Instr) : v ≠ encode i := by
  have hlo : 1 ≤ (encode i).toNat := by cases i <;> decide
  have hhi : (encode i).toNat ≤ 5 := by cases i <;> decide
  rintro rfl
  omega

theorem badDims_of_size (h : s.W = 0 ∨ s.H = 0 ∨ c.maxPix < s.W * s.H) (m : Bool) : s.badDims c m = true :=
  badDims_eq_true.2 (h.imp_right (Or.imp_right .inl))

theorem badDims_of_width (h : s.W % 4 ≠ 0) : s.badDims c true = true :=
  badDims_eq_true.2 (.inr (.inr (.inr ⟨rfl, h⟩)))

/-- The two commands that make both checks raise on bad dimensions once the selector is recognised; `CONVERT` asks for a
width that is a multiple of 4. -/
theorem exec_of_badDims (hi : i = .quant ∨ i = .convert) (hf : s.FormatOk)
    (hb : s.badDims Config.hw (i != .quant) = true) :
    exec i s = .next (raise .unsupportedGridDimensions s.dimsInfo s) := by
  obtain ⟨f, hs⟩ := hf.selects
  have hv := variantOf_eq_some.2 hs
  rcases hi with rfl | rfl
  · have hb : s.badDims Config.hw false = true := hb
    rw [exec, execQuant, quant, withFormat_some hv, withDims_bad hb, finish_ok]
  · have hb : s.badDims Config.hw true = true := hb
    rw [exec, execConvert, convert, withFormat_some hv, withDims_bad hb, finish_ok]

/-- What a command can do to `STATUS.ERR`: `RESET` clears it, a check that fails raises its own fault, and anything else leaves
it. -/
theorem exec_err_cases (h : exec i s = .next t) :
    (i = .reset ∧ t = resetRegisters Config.hw s) ∨
      ((i = .classify ∨ i = .quant ∨ i = .convert) ∧ 2 ≤ s.format.toNat ∧
        t = raise .invalidPaletteFormat s.formatInfo s) ∨
      ((i = .quant ∨ i = .pack ∨ i = .convert) ∧ s.badDims Config.hw (i != .quant) = true ∧
        t = raise .unsupportedGridDimensions s.dimsInfo s) ∨
      t.err = s.err := by
  cases i with
  | reset => exact .inl ⟨rfl, (Host.Outcome.next.inj h).symm⟩
  | classify =>
    rcases classify_ok (finish_next_iff.1 h) with ⟨hf, ht⟩ | ⟨f, k, -, -, rfl⟩
    · exact .inr (.inl ⟨.inl rfl, variantOf_eq_none.1 hf, ht⟩)
    · exact .inr (.inr (.inr rfl))
  | quant =>
    rcases withFormat_ok (finish_next_iff.1 h) with ⟨hf, ht⟩ | ⟨f, -, h⟩
    · exact .inr (.inl ⟨.inr (.inl rfl), variantOf_eq_none.1 hf, ht⟩)
    rcases withDims_ok h with ⟨hb, ht⟩ | ⟨-, h⟩
    · exact .inr (.inr (.inl ⟨.inl rfl, hb, ht⟩))
    · exact .inr (.inr (.inr (by rw [(quantBody_frame h).1])))
  | pack =>
    rcases pack_ok (finish_next_iff.1 h) with ⟨hb, ht⟩ | ⟨-, h⟩
    · exact .inr (.inr (.inl ⟨.inr (.inl rfl), hb, ht⟩))
    · exact .inr (.inr (.inr (by rw [packBody_frame h])))
  | convert =>
    rcases withFormat_ok (finish_next_iff.1 h) with ⟨hf, ht⟩ | ⟨f, -, h⟩
    · exact .inr (.inl ⟨.inr (.inr rfl), variantOf_eq_none.1 hf, ht⟩)
    rcases withDims_ok h with ⟨hb, ht⟩ | ⟨-, h⟩
    · exact .inr (.inr (.inl ⟨.inr (.inr rfl), hb, ht⟩))
    · obtain ⟨u, hu, ht⟩ := bind_ok_iff.1 h
      exact .inr (.inr (.inr (by rw [packBody_frame ht, (quantBody_frame hu).1])))

/-- Settles O19: each condition's raise, in the order of the checks; the converse is `exec_err_cases`. -/
theorem faultConditionsAndPriority : Obligations.FaultConditionsAndPriority := by
  unfold Obligations.FaultConditionsAndPriority
  simp only [← dimsInfo_eq, ← formatInfo_eq]
  refine ⟨fun s v hs hv => runCommand_eq_raise (ne_encode_of_toNat hv) hs,
    fun s hf i hi => exec_of_unrecognised hi (variantOf_eq_none.2 hf),
    fun s hf hd i hi => exec_of_badDims hi hf (badDims_of_size hd _),
    fun s hf hw => exec_of_badDims (.inr rfl) hf (badDims_of_width hw),
    fun s hbad => by rw [dimsInfo_eq]; exact packWritesTheGridsBytes.2 s hbad, fun i s t hs h => ?_⟩
  rcases exec_err_cases h with ⟨-, rfl⟩ | ⟨hi, hf, rfl⟩ | ⟨hi, hb, rfl⟩ | he
  · simp
  · exact ⟨fun _ => ⟨hi, hf⟩, by simp [ErrKind.code], by simp [ErrKind.code]⟩
  · exact ⟨by simp [ErrKind.code], fun _ => ⟨hi, by simpa using badDims_eq_true.1 hb⟩, by simp [ErrKind.code]⟩
  · simp [he, hs]

/-! ### Faults are precise (R193) -/

theorem raise_precise (k : ErrKind) (info : Word) (s : State) :
    ((raise k info s).err = 1#3 ∨ (raise k info s).err = 2#3 ∨ (raise k info s).err = 3#3) ∧
      raise k info s = { s with err := (raise k info s).err, errInfo := (raise k info s).errInfo } := by
  refine ⟨?_, rfl⟩
  cases k <;> simp [ErrKind.code]

/-- Settles O20: without a fault before, the only way to one is `raise`. -/
theorem faultsArePrecise : Obligations.FaultsArePrecise := by
  unfold Obligations.FaultsArePrecise
  intro v s t hs h ht
  rcases runCommand_next h with ⟨i, -, -, hi⟩ | rfl | ⟨-, rfl⟩
  · rcases exec_err_cases hi with ⟨-, rfl⟩ | ⟨-, -, rfl⟩ | ⟨-, -, rfl⟩ | he
    · exact absurd rfl ht
    · exact raise_precise _ _ s
    · exact raise_precise _ _ s
    · exact absurd (he.trans hs) ht
  · exact absurd hs ht
  · exact raise_precise _ _ s

/-! ### `RESET` and the refusal while faulted (R194, R195) -/

theorem runCommand_reset (s : State) : runCommand 1#32 s = exec .reset s :=
  runCommand_eq_exec (decode_encode .reset) (.inr rfl)

/-- Settles O18: `RESET` writes the registers' reset values of this hardware, and no fault refuses it. -/
theorem resetCommandRestoresRegisters : Obligations.ResetCommandRestoresRegisters := by
  unfold Obligations.ResetCommandRestoresRegisters
  intro s
  refine ⟨?_, runCommand_reset s⟩
  rw [exec, execReset, resetRegisters, hw_wReset, hw_hReset]

/-- Settles O22: the access is the write to `CMD`, which a faulted block refuses. -/
theorem faultedBlockRefusesCommands : Obligations.FaultedBlockRefusesCommands := by
  unfold Obligations.FaultedBlockRefusesCommands
  intro s v rest h hs hv
  rw [step_command h]
  exact runCommand_of_faulted hv hs

/-! ### The first fault is kept (R196) -/

theorem RegisterStore.status (h : RegisterStore c v s t) : t.err = s.err ∧ t.errInfo = s.errInfo := by
  cases h <;> exact ⟨rfl, rfl⟩

/-- No access but a write to `CMD` changes `STATUS` or `ERRINFO` (10_state.md R25, R26). -/
theorem busAccess_status {op : BusOp} (hop : ∀ v, op ≠ .write cmdAddr v) (h : busAccess c op s = .next t) :
    t.err = s.err ∧ t.errInfo = s.errInfo := by
  cases op with
  | read a => obtain ⟨v, rfl⟩ := busAccess_read_next h; exact ⟨rfl, rfl⟩
  | write a v =>
    rcases busAccess_write_next h with ⟨rfl, -⟩ | ⟨i, -, -, rfl⟩ | ⟨i, -, -, rfl⟩ | h
    · exact absurd rfl (hop v)
    · exact ⟨rfl, rfl⟩
    · exact ⟨rfl, rfl⟩
    · exact h.status

/-- Settles O23: only a write to `CMD` touches the fault, and a faulted block takes no command but `RESET`. -/
theorem firstFaultIsKeptUntilReset : Obligations.FirstFaultIsKeptUntilReset := by
  unfold Obligations.FirstFaultIsKeptUntilReset
  intro s t hs h
  rcases hin : s.inbox with _ | ⟨op, rest⟩
  · rw [step_idle hin] at h
    obtain rfl := Host.Outcome.next.inj h
    exact .inl ⟨rfl, rfl⟩
  by_cases hcmd : ∃ v, op = .write cmdAddr v
  · obtain ⟨v, rfl⟩ := hcmd
    by_cases hv : v = 1#32
    · subst hv
      rw [step_command hin, runCommand_reset] at h
      obtain rfl := Host.Outcome.next.inj h
      exact .inr ⟨rest, rfl, rfl, rfl⟩
    · rw [faultedBlockRefusesCommands s v rest hin hs hv] at h
      obtain rfl := Host.Outcome.next.inj h
      exact .inl ⟨rfl, rfl⟩
  · rw [step_pending hin] at h
    have hkept := busAccess_status (not_exists.1 hcmd) h
    exact .inl hkept

end Sys2Proof.Machine
end

section
/-! PROOFS of the statements about elements that nothing has written since hardware reset (10_state.md R37;
70_reset_and_hazards.md R222; 93_implementation_defined.md U3; assumption 2). A share of an error is added to a neighbour's
value, so the neighbour is read before it is written: no turn of the scan writes a pixel that has no value, and the scan stops
at the pixel when it gets there, if not before. -/

namespace Sys2Proof.Machine

variable {c : Config} {f : Variant} {num : NumFormat} {s t : State} {e : Pixel} {k : ℚ} {x y i j : ℕ}

/-! ### Host reads (U3) -/

/-- Settles O13: the transaction reads the element from the same memory, and the read stops. -/
theorem hostReadOfUnwrittenElementStops : Obligations.HostReadOfUnwrittenElementStops := by
  unfold Obligations.HostReadOfUnwrittenElementStops
  refine fun s i rest => ⟨fun h hi hnone => ?_, fun h hi hnone => ?_⟩
  · have hread : State.readIdx { s with inbox := rest } i.toNat = .error (.fault (.unwrittenIdx i.toNat)) :=
      readIdx_none hnone
    rw [step_txn h, transact, hw_maxPix, if_pos hi, hread, error_bind, finish_fault]
  · have hread : State.readOut { s with inbox := rest } i.toNat = .error (.fault (.unwrittenOut i.toNat)) :=
      readOut_none hnone
    rw [step_txn h, transact, hw_outSize, if_pos hi, hread, error_bind, finish_fault]

/-! ### A run that stops at its first element -/

/-- Either micro-operation reads its pixel first. -/
theorem quantStep_of_unwritten {d : Bool} (h : s.pix.read s.scanIndex = none) :
    quantStep c f d s = .error (.fault (.unwrittenPix s.scanIndex)) := by
  cases d <;> exact congrArg (· >>= _) (readPix_none h)

theorem packb_of_unwritten (h : s.idx.read (4 * s.optr.toNat) = none) :
    packb s = .error (.fault (.unwrittenIdx (4 * s.optr.toNat))) :=
  congrArg (· >>= _) (readIdx_none h)

/-- The grid is not empty, so the scan takes a first turn, at pixel 0. -/
theorem quantBody_of_unwritten_first (hd : s.DimsOk c) (h : s.pix.read 0 = none) :
    quantBody c f s = .error (.fault (.unwrittenPix 0)) := by
  obtain ⟨hW, hH, -⟩ := hd
  have hstart := atPixel_start s
  have hpixels : 0 < s.W * s.H := Nat.mul_pos hW hH
  obtain ⟨n, hn⟩ := Nat.exists_eq_add_one.2 hpixels
  have hstop : quantStep c f s.dither { s with xpos := 0#16, ypos := 0#16 } = .error (.fault (.unwrittenPix 0)) := by
    rw [quantStep_of_unwritten (by rw [hstart.scanIndex]; exact h), hstart.scanIndex]
  rw [quantBody, hn, scan_succ, if_pos ((hstart.guard hW).2 hpixels), hstop, error_bind]

/-- A grid of whole bytes has a first byte, so the packing loop takes a first turn, at code 0. -/
theorem packBody_of_unwritten_first (hd : s.DimsOk c) (h4 : s.W % 4 = 0) (h : s.idx.read 0 = none) :
    packBody s = .error (.fault (.unwrittenIdx 0)) := by
  obtain ⟨hW, hH, -⟩ := hd
  have hbytes : 0 < s.W * s.H / 4 := by
    have hmul : s.W ≤ s.W * s.H := Nat.le_mul_of_pos_right _ hH
    omega
  obtain ⟨n, hn⟩ := Nat.exists_eq_add_one.2 hbytes
  have hstop : packb { s with optr := 0#32 } = .error (.fault (.unwrittenIdx 0)) := packb_of_unwritten h
  rw [packBody, hn, packLoop_succ, if_pos ((State.Packed.start s).guard hbytes), hstop, error_bind]

/-- Settles O48: once the checks pass each command is its body, which stops in its first turn. -/
theorem runOverUnwrittenGridStops : Obligations.RunOverUnwrittenGridStops := by
  unfold Obligations.RunOverUnwrittenGridStops
  refine ⟨fun s hf hd h => ?_, fun s hf hd h4 h => ?_, fun s hd h4 h => ?_⟩
  · obtain ⟨f, hs⟩ := hf.selects
    rw [exec_quant_eq hs hd, quantBody_of_unwritten_first hd h, finish_fault]
  · obtain ⟨f, hs⟩ := hf.selects
    rw [exec_convert_eq hs hd h4, quantBody_of_unwritten_first hd h, error_bind, finish_fault]
  · rw [exec_pack_eq hd h4, packBody_of_unwritten_first hd h4 h, finish_fault]

/-! ### A run that completes has read its whole grid -/

/-- The one element a share writes has a value before. -/
theorem diffuseIf_keeps_unwritten {inside : Prop} [Decidable inside] (ht : diffuseIf inside num i e k s = .ok t)
    (hj : s.pix.read j = none) : t.pix.read j = none := by
  obtain ⟨share, other⟩ := diffuseIf_read ht
  by_cases htarget : inside ∧ j = i
  · obtain ⟨hinside, rfl⟩ := htarget
    obtain ⟨p, -, hp, -⟩ := share hinside
    rw [hj] at hp
    cases hp
  · rw [other j htarget, hj]

theorem propagate_keeps_unwritten (ht : propagate num x y i e s = .ok t) (hj : s.pix.read j = none) :
    t.pix.read j = none := by
  obtain ⟨s1, s2, s3, h1, h2, h3, h4⟩ := propagate_ok ht
  exact diffuseIf_keeps_unwritten h4 (diffuseIf_keeps_unwritten h3 (diffuseIf_keeps_unwritten h2
    (diffuseIf_keeps_unwritten h1 hj)))

theorem quantStep_keeps_unwritten {d : Bool} (ht : quantStep c f d s = .ok t) (hj : s.pix.read j = none) :
    t.pix.read j = none := by
  cases d with
  | true =>
    obtain ⟨v, code, e, u, -, -, -, hu, rfl⟩ := dstep_ok ht
    rw [advance_pix]
    exact propagate_keeps_unwritten hu hj
  | false =>
    obtain ⟨v, code, -, -, rfl⟩ := qstep_ok_iff.1 ht
    rw [advance_pix, writeIdx_pix, hj]

theorem quantBody_keeps_unwritten (ht : quantBody c f s = .ok t) (hj : s.pix.read j = none) : t.pix.read j = none :=
  scan_keeps (I := fun u => u.pix.read j = none) (fun _ _ hu _ hv => quantStep_keeps_unwritten hv hu)
    (s := { s with xpos := 0#16, ypos := 0#16 }) hj ht

/-- The pixels a completed scan has coded have a value after it, so they had one before it. -/
theorem quantBody_reads_written (hW : 0 < s.W) (ht : quantBody c f s = .ok t) (hi : i < s.W * s.H) :
    s.pix.read i ≠ none := by
  intro hnone
  obtain ⟨v, -, hv, -⟩ := (quantBody_coded hW ht).code i hi
  rw [quantBody_keeps_unwritten ht hnone] at hv
  cases hv

/-- Code `i` of a grid of whole bytes is one of the four that byte `i / 4` packs. -/
theorem packBody_reads_written (h4 : s.W % 4 = 0) (ht : packBody s = .ok t) (hi : i < s.W * s.H) :
    s.idx.read i ≠ none := by
  have hwhole : s.W * s.H % 4 = 0 := by rw [Nat.mul_mod, h4, zero_mul, Nat.zero_mod]
  obtain ⟨b, -, hb⟩ := (packBody_packed ht).byte (i / 4) (by omega)
  have hread : s.idx.read (4 * (i / 4) + i % 4) = some (unpack b (i % 4)) := hb.read_eq_unpack (Nat.mod_lt i (by omega))
  rw [Nat.div_add_mod] at hread
  simp [hread]

/-- Settles O49: a body that completes has read every element of its grid. -/
theorem noRunCompletesOverAnUnwrittenElement : Obligations.NoRunCompletesOverAnUnwrittenElement := by
  unfold Obligations.NoRunCompletesOverAnUnwrittenElement
  refine fun s t i hi => ⟨fun hf hd hnone h => ?_, fun hf hd h4 hnone h => ?_, fun hd h4 hnone h => ?_⟩
  · obtain ⟨f, hs⟩ := hf.selects
    rw [exec_quant_eq hs hd, finish_next_iff] at h
    exact quantBody_reads_written hd.1 h hi hnone
  · obtain ⟨f, hs⟩ := hf.selects
    rw [exec_convert_eq hs hd h4, finish_next_iff] at h
    obtain ⟨u, hu, -⟩ := bind_ok_iff.1 h
    exact quantBody_reads_written hd.1 hu hi hnone
  · rw [exec_pack_eq hd h4, finish_next_iff] at h
    exact packBody_reads_written h4 h hi hnone

end Sys2Proof.Machine
end
